-- ==== Sys2Proof/Word.lean ====
section
/-! DEFINITION. The word types of the engine: the widths of spec/00_scope.md rule R8 and spec/10_state.md rule R19. -/

set_option Elab.async false

namespace Sys2Proof

/-- `byte`, an unsigned 8-bit value (R10). -/
abbrev Byte := BitVec 8

/-- A 29-bit CAN identifier, `ID_W` (R8, R70). -/
abbrev CanId := BitVec 29

/-- A PGN the codec produces, `PGN_W` = 17 bits (R8, C3). -/
abbrev Pgn := BitVec 17

/-- A PGN in a 3-byte field: a list entry (R40), a requested PGN (R83), or the `pgn` operand,
whose limit 2^17 its command checks (R68, R89).
DESIGN CHOICE (log entry 2): the operand port is three bytes wide. -/
abbrev Pgn24 := BitVec 24

/-- A bus address, `ADDR_W` (R8). -/
abbrev Addr := BitVec 8

/-- A priority, `PRIO_W` (R8). -/
abbrev Prio := BitVec 3

/-- The 64-bit NAME, `NAME_W` (R8, R22). -/
abbrev NameWord := BitVec 64

/-- A sample of the millisecond clock, `CLOCK_W` = 32 bits (R8, R44). -/
abbrev Millis := BitVec 32

/-- A counter, `CNT_W` = 32 bits, wrapping (R8, R37). -/
abbrev Count := BitVec 32

end Sys2Proof
end

