-- ==== Sys2Proof/Syntax.lean ====
section
/-! DEFINITION. The commands of the engine: one constructor per row of spec/opcode_table.json (spec/30_encoding.md rule R64), with the operand fields that row has. -/

set_option Elab.async false

namespace Sys2Proof

/-- An inbound frame operand `(id, len, data)` (R82). `data` has exactly `len` bytes, so `len` is not
stored a second time. -/
structure Frame where
  id   : CanId
  data : List Byte
deriving DecidableEq, Repr, Inhabited

/-- The `len` of a frame (R82). -/
def Frame.len (f : Frame) : Nat := f.data.length

/-- A `num` operand: an exact rational or the constant `NA_VALUE` (R68, R98). -/
inductive NumOperand where
  | na
  | rat (q : Rat)
deriving DecidableEq, Repr

/-- The six numeric kinds of R66: two, three or four bytes, unsigned or signed. -/
inductive NumKind where
  | u16 | s16 | u24 | s24 | u32 | s32
deriving DecidableEq, Repr

/-- The commands (R64). -/
inductive Instr where
  | idPgnof (id : CanId)
  | idDecode (id : CanId)
  | idEncode (pgn : Pgn24) (prio : Prio) (src dst : Addr)
  | numEncU16 (value prec : NumOperand)
  | numEncS16 (value prec : NumOperand)
  | numEncU24 (value prec : NumOperand)
  | numEncS24 (value prec : NumOperand)
  | numEncU32 (value prec : NumOperand)
  | numEncS32 (value prec : NumOperand)
  | numDecU16 (raw : Vector Byte 2) (prec : NumOperand)
  | numDecS16 (raw : Vector Byte 2) (prec : NumOperand)
  | numDecU24 (raw : Vector Byte 3) (prec : NumOperand)
  | numDecS24 (raw : Vector Byte 3) (prec : NumOperand)
  | numDecU32 (raw : Vector Byte 4) (prec : NumOperand)
  | numDecS32 (raw : Vector Byte 4) (prec : NumOperand)
  | frStart (pgn : Pgn24) (prio : Prio) (src dst : Addr)
  | frStartFast (pgn : Pgn24) (prio : Prio) (src dst : Addr) (total : Byte)
  | frOutByte (b : Byte)
  | frOutRaw16 (v : BitVec 16)
  | frOutRaw24 (v : BitVec 24)
  | frOutRaw32 (v : BitVec 32)
  | frOutFixstr (str : List Byte) (maxLen pad : Byte)
  | frOutVarstr (str : List Byte)
  | frOutNumU16 (value prec : NumOperand)
  | frOutNumS16 (value prec : NumOperand)
  | frOutNumU24 (value prec : NumOperand)
  | frOutNumS24 (value prec : NumOperand)
  | frOutNumU32 (value prec : NumOperand)
  | frOutNumS32 (value prec : NumOperand)
  | frFinish
  | frFinishFast
  | acClaim
  | acPoll
  | acRxClaim (frame : Frame)
  | isoRxRequest (frame : Frame)
  | isoRxAck (frame : Frame)
  | pump
  | status
  | engOpen (bitrate clockConfig : Nat)
deriving DecidableEq, Repr

end Sys2Proof
end

