-- ==== Sys2Proof/WellFormed.lean ====
section
/-! DEFINITION. The operand limits of spec/30_encoding.md rules R68 and R82 that the operand types do not already hold. Limits that a command's own rule checks (a `pgn` below 2^17, a `total` up to 223, a positive `prec`) are not here: the command refuses them by name. -/

set_option Elab.async false

namespace Sys2Proof

/-- A frame's `len` is in 0..8 (R68, R82). -/
def Frame.wellFormed (f : Frame) : Bool := decide (f.len ≤ 8)

/-- A `bytes` operand is a byte list of length at most 255 (R68). -/
def stringWellFormed (str : List Byte) : Bool := decide (str.length ≤ 255)

/-- What a command's operand fields must be for it to be presentable on the command port (R68). -/
def Instr.wellFormed : Instr → Bool
  | .idPgnof _ => true
  | .idDecode _ => true
  | .idEncode _ _ _ _ => true
  | .numEncU16 _ _ => true
  | .numEncS16 _ _ => true
  | .numEncU24 _ _ => true
  | .numEncS24 _ _ => true
  | .numEncU32 _ _ => true
  | .numEncS32 _ _ => true
  | .numDecU16 _ _ => true
  | .numDecS16 _ _ => true
  | .numDecU24 _ _ => true
  | .numDecS24 _ _ => true
  | .numDecU32 _ _ => true
  | .numDecS32 _ _ => true
  | .frStart _ _ _ _ => true
  | .frStartFast _ _ _ _ _ => true
  | .frOutByte _ => true
  | .frOutRaw16 _ => true
  | .frOutRaw24 _ => true
  | .frOutRaw32 _ => true
  | .frOutFixstr str _ _ => stringWellFormed str
  | .frOutVarstr str => stringWellFormed str
  | .frOutNumU16 _ _ => true
  | .frOutNumS16 _ _ => true
  | .frOutNumU24 _ _ => true
  | .frOutNumS24 _ _ => true
  | .frOutNumU32 _ _ => true
  | .frOutNumS32 _ _ => true
  | .frFinish => true
  | .frFinishFast => true
  | .acClaim => true
  | .acPoll => true
  | .acRxClaim f => f.wellFormed
  | .isoRxRequest f => f.wellFormed
  | .isoRxAck f => f.wellFormed
  | .pump => true
  | .status => true
  | .engOpen _ _ => true

end Sys2Proof
end

