-- ==== Sys2Proof/Decode.lean ====
section
/-! DEFINITION. Decoding and encoding of commands on the command port: the code map of spec/30_encoding.md rules R64 to R67. The spec gives the 8-bit code and the operand fields' widths and order; the byte form of a field is the model's own (log entry 1): each field in the order of R64, a fixed-width field least significant byte first in as many bytes as hold it. -/

set_option Elab.async false

namespace Sys2Proof

/-- `LEbytes_n(v)` (R10): the n low bytes of v, least significant first. -/
def leBytes : Nat → Nat → List Byte
  | 0, _ => []
  | n + 1, v => BitVec.ofNat 8 v :: leBytes n (v / 256)

/-- `LE(b0, ..., bk)` (R10): little-endian assembly. -/
def leNat : List Byte → Nat
  | [] => 0
  | b :: bs => b.toNat + 256 * leNat bs

/-- Why bytes on the command port are no command. -/
inductive DecodeError where
  /-- no code byte at all -/
  | noCommand
  /-- a code that R64 does not list (R67) -/
  | illegalCommand (code : Byte)
  /-- an operand field's bytes are missing -/
  | truncated
  /-- a value outside the width R64 gives the field; the port is that wide (R68) -/
  | operandTooWide
  /-- a frame length above 8 (R68, R82) -/
  | frameTooLong
  /-- a `num` operand that starts with none of the four tags -/
  | badNumTag
deriving DecidableEq, Repr

/-- The result of reading operand fields. -/
abbrev Decoded (α : Type) := Except DecodeError α

/-! ### Operand fields -/

/-- A `bits<w>` field in `k` bytes. -/
def withBits {α : Type} (w k : Nat) (bs : List Byte) (f : BitVec w → List Byte → Decoded α) :
    Decoded α :=
  if bs.length < k then .error .truncated
  else if leNat (bs.take k) < 2 ^ w then f (BitVec.ofNat w (leNat (bs.take k))) (bs.drop k)
  else .error .operandTooWide

/-- A `byte[n]` field. -/
def withVector {α : Type} (n : Nat) (bs : List Byte) (f : Vector Byte n → List Byte → Decoded α) :
    Decoded α :=
  if h : (bs.take n).toArray.size = n then f ⟨(bs.take n).toArray, h⟩ (bs.drop n)
  else .error .truncated

/-- A natural number in base 128, least significant digit first, bit 7 of a byte set when another
byte follows. -/
def readNat : List Byte → Option (Nat × List Byte)
  | [] => none
  | b :: bs =>
    if b.toNat < 128 then some (b.toNat, bs)
    else match readNat bs with
      | some (n, rest) => some (b.toNat - 128 + 128 * n, rest)
      | none => none

/-- An opaque natural-number field (R184) or a part of a `num` field. -/
def withNat {α : Type} (bs : List Byte) (f : Nat → List Byte → Decoded α) : Decoded α :=
  match readNat bs with
  | some (n, rest) => f n rest
  | none => .error .truncated

/-- A `num` field (R68): tag 0 or 1 for a positive or negative rational, then its magnitude's numerator
less one and its denominator less one; tag 2 for zero; tag 3 for `NA_VALUE`. -/
def withNum {α : Type} (bs : List Byte) (f : NumOperand → List Byte → Decoded α) : Decoded α :=
  match bs with
  | [] => .error .truncated
  | tag :: rest =>
    if tag = 0 then
      withNat rest fun n r => withNat r fun d r' => f (.rat (mkRat (n + 1) (d + 1))) r'
    else if tag = 1 then
      withNat rest fun n r => withNat r fun d r' => f (.rat (mkRat (-(n + 1)) (d + 1))) r'
    else if tag = 2 then f (.rat 0) rest
    else if tag = 3 then f .na rest
    else .error .badNumTag

/-- A `bytes` field (R68): a length byte, then that many bytes. -/
def withString {α : Type} (bs : List Byte) (f : List Byte → List Byte → Decoded α) : Decoded α :=
  match bs with
  | [] => .error .truncated
  | len :: rest =>
    if rest.length < len.toNat then .error .truncated
    else f (rest.take len.toNat) (rest.drop len.toNat)

/-- A `frame` field (R82): the identifier, `len` in 0..8, then `len` data bytes. -/
def withFrame {α : Type} (bs : List Byte) (f : Frame → List Byte → Decoded α) : Decoded α :=
  withBits 29 4 bs fun id r =>
    match r with
    | [] => .error .truncated
    | len :: rest =>
      if 8 < len.toNat then .error .frameTooLong
      else if rest.length < len.toNat then .error .truncated
      else f { id := id, data := rest.take len.toNat } (rest.drop len.toNat)

/-- The header fields `pgn`, `prio`, `src`, `dst` (R64). -/
def withHeader {α : Type} (bs : List Byte)
    (f : Pgn24 → Prio → Addr → Addr → List Byte → Decoded α) : Decoded α :=
  withBits 24 3 bs fun pgn r1 =>
  withBits 3 1 r1 fun prio r2 =>
  withBits 8 1 r2 fun src r3 =>
  withBits 8 1 r3 fun dst r4 => f pgn prio src dst r4

/-- The fields `value`, `prec` of a numeric command (R64). -/
def withValuePrec {α : Type} (bs : List Byte) (mk : NumOperand → NumOperand → α) : Decoded α :=
  withNum bs fun value r => withNum r fun prec _ => .ok (mk value prec)

/-! ### The decoder -/

/-- The operand fields of the command with code `code` (R64); every other code is illegal (R67). -/
def decodeOperands (code : Byte) (bs : List Byte) : Decoded Instr :=
  match code.toNat with
  | 0x01 => withBits 29 4 bs fun id _ => .ok (.idPgnof id)
  | 0x02 => withBits 29 4 bs fun id _ => .ok (.idDecode id)
  | 0x03 => withHeader bs fun pgn prio src dst _ => .ok (.idEncode pgn prio src dst)
  | 0x10 => withValuePrec bs .numEncU16
  | 0x11 => withValuePrec bs .numEncS16
  | 0x12 => withValuePrec bs .numEncU24
  | 0x13 => withValuePrec bs .numEncS24
  | 0x14 => withValuePrec bs .numEncU32
  | 0x15 => withValuePrec bs .numEncS32
  | 0x18 => withVector 2 bs fun raw r => withNum r fun prec _ => .ok (.numDecU16 raw prec)
  | 0x19 => withVector 2 bs fun raw r => withNum r fun prec _ => .ok (.numDecS16 raw prec)
  | 0x1A => withVector 3 bs fun raw r => withNum r fun prec _ => .ok (.numDecU24 raw prec)
  | 0x1B => withVector 3 bs fun raw r => withNum r fun prec _ => .ok (.numDecS24 raw prec)
  | 0x1C => withVector 4 bs fun raw r => withNum r fun prec _ => .ok (.numDecU32 raw prec)
  | 0x1D => withVector 4 bs fun raw r => withNum r fun prec _ => .ok (.numDecS32 raw prec)
  | 0x20 => withHeader bs fun pgn prio src dst _ => .ok (.frStart pgn prio src dst)
  | 0x21 =>
    withHeader bs fun pgn prio src dst r =>
    withBits 8 1 r fun total _ => .ok (.frStartFast pgn prio src dst total)
  | 0x22 => withBits 8 1 bs fun b _ => .ok (.frOutByte b)
  | 0x23 => withBits 16 2 bs fun v _ => .ok (.frOutRaw16 v)
  | 0x24 => withBits 24 3 bs fun v _ => .ok (.frOutRaw24 v)
  | 0x25 => withBits 32 4 bs fun v _ => .ok (.frOutRaw32 v)
  | 0x26 =>
    withString bs fun str r1 =>
    withBits 8 1 r1 fun maxLen r2 =>
    withBits 8 1 r2 fun pad _ =>
    .ok (.frOutFixstr str maxLen pad)
  | 0x27 => withString bs fun str _ => .ok (.frOutVarstr str)
  | 0x28 => withValuePrec bs .frOutNumU16
  | 0x29 => withValuePrec bs .frOutNumS16
  | 0x2A => withValuePrec bs .frOutNumU24
  | 0x2B => withValuePrec bs .frOutNumS24
  | 0x2C => withValuePrec bs .frOutNumU32
  | 0x2D => withValuePrec bs .frOutNumS32
  | 0x2E => .ok .frFinish
  | 0x2F => .ok .frFinishFast
  | 0x30 => .ok .acClaim
  | 0x31 => .ok .acPoll
  | 0x32 => withFrame bs fun frame _ => .ok (.acRxClaim frame)
  | 0x40 => withFrame bs fun frame _ => .ok (.isoRxRequest frame)
  | 0x41 => withFrame bs fun frame _ => .ok (.isoRxAck frame)
  | 0x50 => .ok .pump
  | 0x51 => .ok .status
  | 0x52 =>
    withNat bs fun bitrate r1 =>
    withNat r1 fun clockConfig _ =>
    .ok (.engOpen bitrate clockConfig)
  | _ => .error (.illegalCommand code)

/-- A command is its 8-bit code and its operand fields; the code alone tells which (R63). Port bytes
past the command's own fields are not read (log entry 30). -/
def decode : List Byte → Decoded Instr
  | [] => .error .noCommand
  | code :: bs => decodeOperands code bs

/-! ### The encoder -/

/-- The base-128 digits of n, least significant first; `fuel` bounds their number. -/
def natDigits : Nat → Nat → List Byte
  | 0, n => [BitVec.ofNat 8 n]
  | fuel + 1, n =>
    if n < 128 then [BitVec.ofNat 8 n]
    else BitVec.ofNat 8 (128 + n % 128) :: natDigits fuel (n / 128)

/-- A natural-number field, as `readNat` reads it. -/
def natBytes (n : Nat) : List Byte := natDigits (Nat.log2 n) n

/-- A `num` field, as `withNum` reads it. -/
def numBytes : NumOperand → List Byte
  | .na => [3]
  | .rat q =>
    if q.num = 0 then [2]
    else (if 0 < q.num then 0 else 1) :: (natBytes (q.num.natAbs - 1) ++ natBytes (q.den - 1))

/-- A `bytes` field, as `withString` reads it. -/
def stringBytes (str : List Byte) : List Byte := BitVec.ofNat 8 str.length :: str

/-- A `frame` field, as `withFrame` reads it. -/
def frameBytes (f : Frame) : List Byte :=
  leBytes 4 f.id.toNat ++ (BitVec.ofNat 8 f.len :: f.data)

/-- The header fields, as `withHeader` reads them. -/
def headerBytes (pgn : Pgn24) (prio : Prio) (src dst : Addr) : List Byte :=
  leBytes 3 pgn.toNat ++ leBytes 1 prio.toNat ++ leBytes 1 src.toNat ++ leBytes 1 dst.toNat

/-- The 8-bit command code of R64. -/
def opcode : Instr → Byte
  | .idPgnof _ => 0x01
  | .idDecode _ => 0x02
  | .idEncode _ _ _ _ => 0x03
  | .numEncU16 _ _ => 0x10
  | .numEncS16 _ _ => 0x11
  | .numEncU24 _ _ => 0x12
  | .numEncS24 _ _ => 0x13
  | .numEncU32 _ _ => 0x14
  | .numEncS32 _ _ => 0x15
  | .numDecU16 _ _ => 0x18
  | .numDecS16 _ _ => 0x19
  | .numDecU24 _ _ => 0x1A
  | .numDecS24 _ _ => 0x1B
  | .numDecU32 _ _ => 0x1C
  | .numDecS32 _ _ => 0x1D
  | .frStart _ _ _ _ => 0x20
  | .frStartFast _ _ _ _ _ => 0x21
  | .frOutByte _ => 0x22
  | .frOutRaw16 _ => 0x23
  | .frOutRaw24 _ => 0x24
  | .frOutRaw32 _ => 0x25
  | .frOutFixstr _ _ _ => 0x26
  | .frOutVarstr _ => 0x27
  | .frOutNumU16 _ _ => 0x28
  | .frOutNumS16 _ _ => 0x29
  | .frOutNumU24 _ _ => 0x2A
  | .frOutNumS24 _ _ => 0x2B
  | .frOutNumU32 _ _ => 0x2C
  | .frOutNumS32 _ _ => 0x2D
  | .frFinish => 0x2E
  | .frFinishFast => 0x2F
  | .acClaim => 0x30
  | .acPoll => 0x31
  | .acRxClaim _ => 0x32
  | .isoRxRequest _ => 0x40
  | .isoRxAck _ => 0x41
  | .pump => 0x50
  | .status => 0x51
  | .engOpen _ _ => 0x52

/-- The operand fields of a command, in the order of R64. -/
def operandBytes : Instr → List Byte
  | .idPgnof id => leBytes 4 id.toNat
  | .idDecode id => leBytes 4 id.toNat
  | .idEncode pgn prio src dst => headerBytes pgn prio src dst
  | .numEncU16 value prec => numBytes value ++ numBytes prec
  | .numEncS16 value prec => numBytes value ++ numBytes prec
  | .numEncU24 value prec => numBytes value ++ numBytes prec
  | .numEncS24 value prec => numBytes value ++ numBytes prec
  | .numEncU32 value prec => numBytes value ++ numBytes prec
  | .numEncS32 value prec => numBytes value ++ numBytes prec
  | .numDecU16 raw prec => raw.toList ++ numBytes prec
  | .numDecS16 raw prec => raw.toList ++ numBytes prec
  | .numDecU24 raw prec => raw.toList ++ numBytes prec
  | .numDecS24 raw prec => raw.toList ++ numBytes prec
  | .numDecU32 raw prec => raw.toList ++ numBytes prec
  | .numDecS32 raw prec => raw.toList ++ numBytes prec
  | .frStart pgn prio src dst => headerBytes pgn prio src dst
  | .frStartFast pgn prio src dst total => headerBytes pgn prio src dst ++ leBytes 1 total.toNat
  | .frOutByte b => leBytes 1 b.toNat
  | .frOutRaw16 v => leBytes 2 v.toNat
  | .frOutRaw24 v => leBytes 3 v.toNat
  | .frOutRaw32 v => leBytes 4 v.toNat
  | .frOutFixstr str maxLen pad => stringBytes str ++ leBytes 1 maxLen.toNat ++ leBytes 1 pad.toNat
  | .frOutVarstr str => stringBytes str
  | .frOutNumU16 value prec => numBytes value ++ numBytes prec
  | .frOutNumS16 value prec => numBytes value ++ numBytes prec
  | .frOutNumU24 value prec => numBytes value ++ numBytes prec
  | .frOutNumS24 value prec => numBytes value ++ numBytes prec
  | .frOutNumU32 value prec => numBytes value ++ numBytes prec
  | .frOutNumS32 value prec => numBytes value ++ numBytes prec
  | .frFinish => []
  | .frFinishFast => []
  | .acClaim => []
  | .acPoll => []
  | .acRxClaim frame => frameBytes frame
  | .isoRxRequest frame => frameBytes frame
  | .isoRxAck frame => frameBytes frame
  | .pump => []
  | .status => []
  | .engOpen bitrate clockConfig => natBytes bitrate ++ natBytes clockConfig

/-- A command as it stands on the command port. -/
def encode (i : Instr) : List Byte := opcode i :: operandBytes i

/-! ### The opcode table's words -/

/-- The port bytes of a table word: its `nbits` bits, lowest byte first, then operand bytes of zero. -/
def tableBytes (nbits w : Nat) : List Byte :=
  leBytes ((nbits + 7) / 8) (w % 2 ^ nbits) ++ List.replicate 32 0

/-- The command that the decoder reads from a word of spec/opcode_table.json (bit 0 is bit 0 of the
code), with every operand bit above `nbits` zero. -/
def decodeTableWord (nbits w : Nat) : Option Instr :=
  match decode (tableBytes nbits w) with
  | .ok i => some i
  | .error _ => none

end Sys2Proof
end

