-- ==== Sys2Proof/Config.lean ====
section
/-! DEFINITION. What is fixed for one engine: the static configuration of spec/10_state.md rules R39 and R40, the OPEN parameters of spec/00_scope.md rule R8, and the free values of the draws (R11), which are constants with no body. -/

set_option Elab.async false

namespace Sys2Proof

/-- `NAME_LAYOUT` (R24): where NAME bits 63:48 come from. -/
inductive NameLayout where
  | j1939
  | listed
deriving DecidableEq, Repr

/-- `FP_PAD` (R77, D30): whether a short last fast-packet frame is padded to 8 bytes with 0xFF. -/
inductive FpPad where
  | unpadded
  | padFF
deriving DecidableEq, Repr

/-- The DeviceIdentity fields, with the widths of R22. The reserved bit is copied from the
configuration (U18). -/
structure DeviceIdentity where
  uniqueNumber     : BitVec 21
  manufacturerCode : BitVec 11
  deviceInstance   : BitVec 8
  deviceFunction   : BitVec 8
  deviceClass      : BitVec 7
  reservedBit      : BitVec 1
  industryGroup    : BitVec 3
  systemInstance   : BitVec 4
  arbitraryAddress : BitVec 1
deriving DecidableEq, Repr

/-- `PRODUCT_INFO` (R39). -/
structure ProductInfo where
  version            : BitVec 16
  productCode        : BitVec 16
  modelId            : List Byte
  softwareVersion    : List Byte
  modelVersion       : List Byte
  serialNumber       : List Byte
  certificationLevel : Byte
  loadEquivalency    : Byte
deriving DecidableEq, Repr

/-- `CONFIG_INFO` (R39). -/
structure ConfigInfo where
  manufacturerInfo    : List Byte
  installDescription1 : List Byte
  installDescription2 : List Byte
deriving DecidableEq, Repr

/-- The static configuration (R39, R40) and the OPEN parameters (R8) that are plain data. A statement
over all states is a statement over all of their values. `ackTail` lists the requested PGNs whose
six NAK tail bytes are not the default ones of R88; any function of a 24-bit PGN is such a list. -/
structure Config where
  initAddr       : Addr
  identity       : DeviceIdentity
  nameLayout     : NameLayout
  productInfo    : ProductInfo
  configInfo     : ConfigInfo
  rxList         : List Pgn24
  txList         : List Pgn24
  hasIsoHandler  : Bool
  claimPrio      : Prio
  respPrio       : Prio
  naValue        : Rat
  fpPad          : FpPad
  ackTail        : List (Pgn24 × Vector Byte 6)
  startupDelayMs : Nat
deriving DecidableEq, Repr

/-- The configuration of State.reset. DESIGN CHOICE (log entries 14 to 16) and PRESUMED (log entries
10 to 13): the identity, lists and texts of spec/95_test_vectors.md B.5 and P2, and the spec's
default for every parameter that has one. -/
def Config.standard : Config where
  initAddr := 25
  identity :=
    { uniqueNumber := 100, manufacturerCode := 0, deviceInstance := 0, deviceFunction := 0,
      deviceClass := 0, reservedBit := 0, industryGroup := 0, systemInstance := 0,
      arbitraryAddress := 0 }
  nameLayout := .j1939
  productInfo :=
    { version := 2100, productCode := 1234,
      modelId := [0x53, 0x6D, 0x61, 0x6C, 0x6C, 0x4E, 0x32, 0x4B],
      softwareVersion := [0x31, 0x2E, 0x30], modelVersion := [0x41],
      serialNumber := [0x30, 0x30, 0x30, 0x31],
      certificationLevel := 1, loadEquivalency := 1 }
  configInfo :=
    { manufacturerInfo := [0x69, 0x65, 0x62],
      installDescription1 := [0x42, 0x69, 0x6C, 0x67, 0x65], installDescription2 := [] }
  rxList := [59904, 59392, 60928]
  txList := [59392, 60928, 126464, 126996, 126998]
  hasIsoHandler := false
  claimPrio := 6
  respPrio := 6
  naValue := -1000000000
  fpPad := .unpadded
  ackTail := []
  startupDelayMs := 0

/-- Free value (R99, D19): whether ROUND takes a tie to the upper of its two neighbours. Away from
ties R99 leaves no choice. -/
opaque Config.roundTieUp : Rat → Bool

/-- Free value (R55, U28): the transport's answer to a `trySend`, at each draw. -/
opaque Config.freeSend : Nat → Bool

/-- Free value (R175, U28): the transport's answer to a `pollReceive`, at each draw. -/
opaque Config.freePoll : Nat → Option Frame

/-- Free value (R184, U28): the transport's answer to an `open`, at each draw. -/
opaque Config.freeOpen : Nat → Bool

/-- Free value (R44, U30): how many milliseconds pass before a clock sample, at each draw. -/
opaque Config.freeElapsed : Nat → Nat

/-- Free value (R153, U19): a NAME byte that a short Address Claim does not have, at each draw. -/
opaque Config.freeByte : Nat → Byte

end Sys2Proof
end

