-- ==== Sys2Proof/Machine/Identity.lean ====
section
/-! DEFINITION. Assembly of the NAME from the DeviceIdentity fields: spec/10_state.md rules R22 to R24. -/

set_option Elab.async false

namespace Sys2Proof.Machine

/-- NAME bits 47:0, the same in both layouts (R23, R24): unique number 20:0, manufacturer code 31:21,
device instance 39:32, device function 47:40. -/
def nameLow (d : DeviceIdentity) : BitVec 48 :=
  d.deviceFunction ++ d.deviceInstance ++ d.manufacturerCode ++ d.uniqueNumber

/-- NAME bits 63:48 (R24). J1939: bit 48 reserved, 55:49 class, 59:56 system instance, 62:60 industry
group, 63 arbitrary. LISTED: 54:48 class, bit 55 reserved, 58:56 industry group, 62:59 system
instance, 63 arbitrary. -/
def nameHigh (layout : NameLayout) (d : DeviceIdentity) : BitVec 16 :=
  match layout with
  | .j1939 =>
    d.arbitraryAddress ++ d.industryGroup ++ d.systemInstance ++ d.deviceClass ++ d.reservedBit
  | .listed =>
    d.arbitraryAddress ++ d.systemInstance ++ d.industryGroup ++ d.reservedBit ++ d.deviceClass

/-- `NAME_INIT` (R39, R203). -/
def nameInit (c : Config) : NameWord := nameHigh c.nameLayout c.identity ++ nameLow c.identity

end Sys2Proof.Machine
end

