-- ==== Sys2Proof/Machine/State.lean ====
section
/-! DEFINITION. The state of the engine (spec/10_state.md rule R19), its environment (spec/00_scope.md rule R13), the ways a step can stop, and the state after reset (spec/70_reset_and_hazards.md rule R203). -/

set_option Elab.async false

namespace Sys2Proof.Machine

/-- `FR_MODE` (R29). -/
inductive FrMode where
  | idle
  | single
  | fast
deriving DecidableEq, Repr

/-- The packet in progress (R29 to R36). While `mode` is idle the other fields but `seq` hold no value
that a rule reads (R36). -/
structure Framer where
  /-- `FR_MODE` (R29) -/
  mode    : FrMode
  /-- `FR_BUF[0..7]` (R30) -/
  buf     : Vector Byte 8
  /-- `FR_OFF`, 0..8 (R31) -/
  off     : BitVec 4
  /-- `FR_ID` (R32) -/
  id      : CanId
  /-- `FR_SEQ` (R33) -/
  seq     : BitVec 3
  /-- `FR_FIDX`, 1..33 in FAST mode (R34) -/
  fidx    : BitVec 6
  /-- `FR_TOTAL` (R35) -/
  total   : Byte
  /-- `FR_WRITTEN` (R35) -/
  written : Byte
deriving DecidableEq, Repr

/-- The six counters (R37). -/
structure Counters where
  tx        : Count
  txFail    : Count
  rx        : Count
  drop      : Count
  frameErr  : Count
  packetErr : Count
deriving DecidableEq, Repr

/-- One entry `(id, n, bytes, result)` of `TX_LOG` (R43); `n` is the length of `data`, and `ok` is the
transport's answer. -/
structure TxEntry where
  id   : CanId
  data : List Byte
  ok   : Bool
deriving DecidableEq, Repr

/-- The fields of a decoded identifier (R91), the `header` handed to a callback (R166, R180). -/
structure Header where
  pgn  : Pgn
  prio : Prio
  src  : Addr
  dst  : Addr
deriving DecidableEq, Repr

/-- The result fields of R64. `value` is a rational or `NA_VALUE`, which is a rational too (R98). -/
inductive Result where
  | none
  | pgn (pgn : Pgn)
  | header (h : Header)
  | ident (id : CanId) (encFail : Bool)
  | raw (bytes : List Byte)
  | value (q : Rat)
  | claimed (b : Bool)
  | counters (c : Counters)
  | opened (ok : Bool)
deriving DecidableEq, Repr

/-- An application callback that runs as a host step (R166, R180), with what the engine does when it
returns. `pumpLeft` is how many polls the PUMP that made the call has left, or none where the host
issued ISO_RX_REQUEST itself. -/
inductive Callback where
  | isoHandler (req : Pgn24) (h : Header) (payload : List Byte) (pumpLeft : Option Nat)
  | messageHandler (h : Header) (payload : List Byte) (pumpLeft : Nat)
deriving DecidableEq, Repr

/-- What the host does next (R13, R69, R166, R180, R202): it issues a command, optionally with `@t`
fixing its clock sample; it returns from the running callback, with the ISO handler's answer; or it
powers the engine up with a configuration. -/
inductive HostItem where
  | command (time : Option Millis) (bytes : List Byte)
  | callbackReturn (handled : Bool)
  | powerUp (c : Config)
deriving DecidableEq, Repr

/-- The agents outside the engine (R13), as plain data. The lists fix draws in advance; a draw whose
list is empty is a free value of Config, numbered by `draws` (log entries 6 and 7). -/
structure World where
  /-- the host's items still to come -/
  port    : List HostItem
  /-- milliseconds, without wrapping; `now` is the low 32 bits (R44) -/
  clock   : Nat
  clockIn : List Millis
  sendIn  : List Bool
  recvIn  : List (Option Frame)
  openIn  : List Bool
  draws   : Nat
deriving DecidableEq, Repr

/-- The whole state: the engine's elements of R19, its configuration, the callbacks in progress, the
result port and the outside agents. -/
structure State where
  /-- `DEV_ADDR`, the device address (R20, R21) -/
  devAddr     : Addr
  /-- `NAME` (R22) -/
  name        : NameWord
  /-- `CLAIM_T`, the claim timer; 0 means no claim is pending (R27) -/
  claimT      : Millis
  /-- `CLAIMED_ONCE`, bookkeeping that no rule reads (R28) -/
  claimedOnce : Bool
  /-- the packet in progress (R29 to R36) -/
  fr          : Framer
  /-- the six counters (R37) -/
  cnt         : Counters
  /-- `TX_LOG`, every frame offered to the transport, in order (R43) -/
  txLog       : List TxEntry
  /-- `REFUSED`, the model mark of R42; see log entry 21 -/
  refused     : Bool
  /-- the static configuration (R39, R40) and the parameters (R8) -/
  cfg         : Config
  /-- the commands suspended in an application callback, innermost first (R12, R166, R180); log entry 5 -/
  calls       : List Callback
  /-- what the last command left on the result port (R63); log entry 20 -/
  result      : Result
  /-- the host, the clock and the transport (R13) -/
  world       : World
deriving DecidableEq, Repr

/-- The engine has no fault: nothing in it ends the process (R188, 93 part A). Nobody raises one;
safe. -/
inductive Fault where
deriving DecidableEq, Repr

/-- Why a step gives a command no meaning: the reasons of R190, and the model's own. -/
inductive Refusal where
  /-- raised by an arm of exec whose instruction has no meaning yet; none is left; safe -/
  | notModelled (mnemonic : String)
  /-- raised by step: a code that R64 does not list (R67); safe, D3 -/
  | illegalCommand (code : Byte)
  /-- raised by step: bytes on the port that give no operand field of R64's width (R68); safe, log entry 3 -/
  | malformedOperand
  /-- raised by ID_ENCODE, FR_START, FR_START_FAST: a `pgn` of 2^17 or more (R89); safe, D41 -/
  | pgnTooWide
  /-- raised by NUM_ENC_*, NUM_DEC_*, FR_OUT_NUM_*: a precision of 0 or below (R103); safe, D21 -/
  | badPrecision
  /-- raised by NUM_ENC_*, FR_OUT_NUM_*: a rounded value below the kind's lowest (R102); safe, D20 -/
  | belowRange
  /-- raised by the start commands and every send through them: a packet is in progress (R121); safe, D24 -/
  | packetInProgress
  /-- raised by FR_OUT_*, FR_FINISH, FR_FINISH_FAST: no packet is in progress (R121); safe, D24 -/
  | noPacket
  /-- raised by FR_START_FAST: a declared total above 223 (R126); safe, D27 -/
  | fastTooLong
  /-- raised by FR_OUT_* in FAST mode: an append past the declared total (R126); safe, D27 -/
  | fastOverrun
  /-- raised by FR_FINISH_FAST: fewer bytes than the declared total (R126); safe, D27 -/
  | fastUnderrun
  /-- raised by FR_OUT_VARSTR: a length byte above 255 (R136); safe, D36 -/
  | stringTooLong
  /-- raised by AC_RX_CLAIM: a yield from address 251 (R155); safe, D12 -/
  | addressExhausted
  /-- raised by ISO_RX_REQUEST: a list or configuration payload above 223 bytes (R162, R164); safe, D48 -/
  | listTooLong
  /-- raised by powerUp: `INIT_ADDR` above 251 (R21); safe, D53 -/
  | initAddrIllegal
  /-- raised by step: a command or a callback return while `REFUSED` is set (R42); safe -/
  | alreadyRefused
  /-- raised by step: a callback return with no callback running (R166, R180 give none); safe, log entry 34 -/
  | strayReturn
deriving DecidableEq, Repr

/-- The outcome of an operation on the state. -/
abbrev Out := Host.Outcome State Fault Refusal

/-- How a routed command leaves the loop that ran it: done, or suspended in a callback (R12). -/
inductive Flow where
  | done (s : State)
  | suspended (s : State)
deriving DecidableEq, Repr

/-! ### Field updates -/

/-- The state with `devAddr` replaced. -/
def State.setDevAddr (s : State) (x : Addr) : State := { s with devAddr := x }

/-- The state with `name` replaced. -/
def State.setName (s : State) (x : NameWord) : State := { s with name := x }

/-- The state with `claimT` replaced. -/
def State.setClaimT (s : State) (x : Millis) : State := { s with claimT := x }

/-- The state with `claimedOnce` replaced. -/
def State.setClaimedOnce (s : State) (x : Bool) : State := { s with claimedOnce := x }

/-- The state with `fr` replaced. -/
def State.setFr (s : State) (x : Framer) : State := { s with fr := x }

/-- The state with `cnt` replaced. -/
def State.setCnt (s : State) (x : Counters) : State := { s with cnt := x }

/-- The state with `txLog` replaced. -/
def State.setTxLog (s : State) (x : List TxEntry) : State := { s with txLog := x }

/-- The state with `calls` replaced. -/
def State.setCalls (s : State) (x : List Callback) : State := { s with calls := x }

/-- The state with `result` replaced. -/
def State.setResult (s : State) (x : Result) : State := { s with result := x }

/-- The state with `world` replaced. -/
def State.setWorld (s : State) (x : World) : State := { s with world := x }

/-! ### Reset -/

/-- The framer after reset (R203): IDLE with sequence 0. The fields R203 leaves unspecified hold 0.
DESIGN CHOICE, unsafe for statements about them (log entry 17). -/
def Framer.atReset : Framer where
  mode := .idle
  buf := Vector.replicate 8 0
  off := 0
  id := 0
  seq := 0
  fidx := 0
  total := 0
  written := 0

/-- The counters after reset (R203). -/
def Counters.zero : Counters := ⟨0, 0, 0, 0, 0, 0⟩

/-- The outside agents before anything is known of them: no item on the port, no draw fixed
(log entries 6, 7, 26). -/
def World.quiet : World := ⟨[], 0, [], [], [], [], 0⟩

/-- The state after reset with configuration `c` (R202, R203). -/
def State.ofConfig (c : Config) : State where
  devAddr := c.initAddr
  name := nameInit c
  claimT := 0
  claimedOnce := false
  fr := Framer.atReset
  cnt := Counters.zero
  txLog := []
  refused := false
  cfg := c
  calls := []
  result := .none
  world := World.quiet

/-- The machine right after reset, with the configuration of log entry 16. -/
def State.reset : State := State.ofConfig Config.standard

end Sys2Proof.Machine
end

