-- ==== Sys2Proof/Machine/Ops.lean ====
section
/-! DEFINITION. The shared operations: sequencing, the draws (spec/00_scope.md rule R11), the counters (R37), `BufWrite` and `Transmit` (spec/20_memory.md rules R53, R55), entering an application callback (R166, R180), and power-up (spec/70_reset_and_hazards.md rules R202, R206). -/

set_option Elab.async false

namespace Sys2Proof.Machine

/-! ### Sequencing -/

/-- Runs `f` on the result of an operation that did not stop; the first refusal ends a command (R191). -/
def andThen {σ τ : Type} (r : Host.Outcome σ Fault Refusal) (f : σ → Host.Outcome τ Fault Refusal) :
    Host.Outcome τ Fault Refusal :=
  match r with
  | .next s => f s
  | .fault e => .fault e
  | .refused e => .refused e

/-- Runs `f` on a computed value, or refuses for its reason. -/
def withValue {α σ : Type} (r : Except Refusal α) (f : α → Host.Outcome σ Fault Refusal) :
    Host.Outcome σ Fault Refusal :=
  match r with
  | .ok a => f a
  | .error e => .refused e

/-- `return v`: the command ends with `v` on the result port (R11). -/
def answer (v : Result) (s : State) : Out := .next (s.setResult v)

/-- A command with no result fields ends (R64). -/
def done (r : Out) : Out := andThen r (answer .none)

/-! ### The clock (R44) -/

/-- `now`, the clock sample of the running command (R44). -/
def now (s : State) : Millis := BitVec.ofNat 32 s.world.clock

/-- The least time at or after `clock` whose sample is `t`. -/
def advanceTo (clock : Nat) (t : Millis) : Nat := clock + (t - BitVec.ofNat 32 clock).toNat

/-- A fresh clock sample: `t` where the program fixes it (`@t`, R69), else the next one fixed in advance,
else a draw. The clock never goes back; its samples wrap (R44). -/
def sampleClock (t : Option Millis) (s : State) : State :=
  match t, s.world.clockIn with
  | some t, _ => s.setWorld { s.world with clock := advanceTo s.world.clock t }
  | none, t :: ts =>
    s.setWorld { s.world with clock := advanceTo s.world.clock t, clockIn := ts }
  | none, [] =>
    s.setWorld { s.world with
      clock := s.world.clock + Config.freeElapsed s.world.draws, draws := s.world.draws + 1 }

/-- The engine waits `ms` milliseconds (R184). -/
def wait (ms : Nat) (s : State) : State :=
  s.setWorld { s.world with clock := s.world.clock + ms }

/-! ### The transport's answers (R55, R175, R184) and free bytes -/

/-- The draw of `trySend`'s answer (R55). -/
def drawSend (s : State) : Bool × State :=
  match s.world.sendIn with
  | r :: rs => (r, s.setWorld { s.world with sendIn := rs })
  | [] => (Config.freeSend s.world.draws, s.setWorld { s.world with draws := s.world.draws + 1 })

/-- The draw of `open`'s answer (R184). -/
def drawOpen (s : State) : Bool × State :=
  match s.world.openIn with
  | r :: rs => (r, s.setWorld { s.world with openIn := rs })
  | [] => (Config.freeOpen s.world.draws, s.setWorld { s.world with draws := s.world.draws + 1 })

/-- A frame holds at most 8 data bytes (R82, R175). -/
def clipFrame (f : Frame) : Frame := { f with data := f.data.take 8 }

/-- `PollReceive()` (R175): none, or one inbound frame. -/
def pollReceive (s : State) : Option Frame × State :=
  match s.world.recvIn with
  | a :: rest => (a.map clipFrame, s.setWorld { s.world with recvIn := rest })
  | [] =>
    ((Config.freePoll s.world.draws).map clipFrame,
      s.setWorld { s.world with draws := s.world.draws + 1 })

/-- `n` draws of a byte (R153). -/
def drawBytes : Nat → State → List Byte × State
  | 0, s => ([], s)
  | n + 1, s =>
    let r := drawBytes n (s.setWorld { s.world with draws := s.world.draws + 1 })
    (Config.freeByte s.world.draws :: r.1, r.2)

/-! ### Counters (R11 `count`, R37) -/

/-- `count(CNT_TX)` or `count(CNT_TX_FAIL)`, by the transport's answer (R55). -/
def countSend (ok : Bool) (c : Counters) : Counters :=
  { c with tx := if ok then c.tx + 1 else c.tx, txFail := if ok then c.txFail else c.txFail + 1 }

/-- `count(CNT_RX)` (R178). -/
def countRx (s : State) : State := s.setCnt { s.cnt with rx := s.cnt.rx + 1 }

/-- `count(CNT_DROP)` (R177). -/
def countDrop (s : State) : State := s.setCnt { s.cnt with drop := s.cnt.drop + 1 }

/-- `count(CNT_FRAME_ERR)` (R125). -/
def countFrameErr (s : State) : State := s.setCnt { s.cnt with frameErr := s.cnt.frameErr + 1 }

/-- `count(CNT_PACKET_ERR)` (R130). -/
def countPacketErr (s : State) : State := s.setCnt { s.cnt with packetErr := s.cnt.packetErr + 1 }

/-! ### The frame buffer (R53) -/

/-- `BufWrite(i, b)` (R53); no rule calls it with i above 7. -/
def bufWrite (i : Nat) (b : Byte) (buf : Vector Byte 8) : Vector Byte 8 := buf.setIfInBounds i b

/-- `FR_BUF[0..n-1]`. -/
def bufFront (n : Nat) (buf : Vector Byte 8) : List Byte := buf.toList.take n

/-! ### Transmission (R55) -/

/-- `Transmit(id, n, bytes)` (R55): identifier 0 is "do not send"; otherwise the transport answers, the
frame enters `TX_LOG`, and one send counter rises. A failed send is not retried. -/
def transmit (id : CanId) (bytes : List Byte) (s : State) : State :=
  if id = 0 then s
  else
    let r := drawSend s
    (r.2.setTxLog (s.txLog ++ [{ id := id, data := bytes, ok := r.1 }])).setCnt
      (countSend r.1 s.cnt)

/-! ### Application callbacks (R12, R166, R180) -/

/-- `host step`: the command is suspended and the application callback runs, taking its commands from
the port, until it returns. -/
def callHost (c : Callback) (s : State) : Flow := .suspended (s.setCalls (c :: s.calls))

/-! ### Power-up (R202, R206) -/

/-- Reset with configuration `c`: refused when `INIT_ADDR` is above 251 (R21); otherwise every element
takes its reset value, but for the mark `REFUSED` (R206). The outside agents are not reset. -/
def powerUp (c : Config) (s : State) : Out :=
  if c.initAddr.toNat ≤ 251 then
    .next { State.ofConfig c with refused := s.refused, world := s.world }
  else .refused .initAddrIllegal

end Sys2Proof.Machine
end

