-- ==== Sys2Proof/Machine/Flags.lean ====
section
/-! DEFINITION. The engine has no status flags (spec/10_state.md rule R17). This file holds what stands nearest to them: the conditions that a result bit, a filter or a wait is computed from. -/

set_option Elab.async false

namespace Sys2Proof.Machine

/-! ### Identifier fields (R70, R71) -/

/-- The data page, bit 24 (R70). -/
def idDp (id : CanId) : BitVec 1 := id.extractLsb' 24 1

/-- The PDU format, bits 23:16 (R70). -/
def idPf (id : CanId) : Byte := id.extractLsb' 16 8

/-- The PDU specific byte, bits 15:8 (R70). -/
def idPs (id : CanId) : Byte := id.extractLsb' 8 8

/-- `pgn[15:8]`, the PDU format of a PGN (R92). -/
def pgnPf (pgn : Pgn24) : Byte := pgn.extractLsb' 8 8

/-- The PDU1 family: a PDU format below 240 (R71). -/
def isPdu1 (pf : Byte) : Bool := decide (pf.toNat < 240)

/-- The `encFail` bit (R92, R93): a PDU1 PGN with a non-zero low byte. -/
def encFails (pgn : Pgn24) : Bool := isPdu1 (pgnPf pgn) && decide (pgn.extractLsb' 0 8 ≠ 0)

/-! ### The claim window (R151, R158) -/

/-- `CLAIM_WINDOW_MS` (R8, R223). -/
def claimWindowMs : Nat := 250

/-- Whether a claim sent at `claimT` has been pending longer than the window at time `t`; elapsed time
is modulo 2^32 (R151, R222). -/
def windowPassed (t claimT : Millis) : Bool := decide (claimWindowMs < (t - claimT).toNat)

/-! ### The receive filter (R177) -/

/-- Membership of whole PGN values (R40, R177). -/
def inList (pgn : Pgn) (list : List Pgn24) : Bool := list.contains (pgn.setWidth 24)

end Sys2Proof.Machine
end

