-- ==== Sys2Proof/Machine/IdCodec.lean ====
section
/-! DEFINITION. The Identifier Codec: spec/41_identifier_codec.md rules R89 to R93. -/

set_option Elab.async false

namespace Sys2Proof.Machine

/-- `PgnOf` (R90): `{DP, PF, 0x00}` in PDU1, `{DP, PF, PS}` in PDU2. -/
def pgnOf (id : CanId) : Pgn :=
  idDp id ++ (idPf id ++ (if isPdu1 (idPf id) then (0 : Byte) else idPs id))

/-- `Decode` (R91): all four fields of an identifier. Bit 25 is read by none. -/
def decodeId (id : CanId) : Header where
  pgn := pgnOf id
  prio := id.extractLsb' 26 3
  src := id.extractLsb' 0 8
  dst := if isPdu1 (idPf id) then idPs id else 0xFF

/-- The identifier of R92 for fields that encode: `dst` fills PS in PDU1 and is not used in PDU2. -/
def packId (pgn : Pgn24) (prio : Prio) (src dst : Addr) : CanId :=
  let base := prio.setWidth 29 <<< 26 ||| pgn.setWidth 29 <<< 8
  if isPdu1 (pgnPf pgn) then base ||| dst.setWidth 29 <<< 8 ||| src.setWidth 29
  else base ||| src.setWidth 29

/-- `Encode` (R92): the identifier and `encFail`, or the refusal PgnTooWide (R89). -/
def encodeId (pgn : Pgn24) (prio : Prio) (src dst : Addr) : Except Refusal (CanId × Bool) :=
  if 2 ^ 17 ≤ pgn.toNat then .error .pgnTooWide
  else if encFails pgn then .ok (0, true)
  else .ok (packId pgn prio src dst, false)

/-- `ID_PGNOF` (R90). -/
def execIdPgnof (id : CanId) (s : State) : Out := answer (.pgn (pgnOf id)) s

/-- `ID_DECODE` (R91). -/
def execIdDecode (id : CanId) (s : State) : Out := answer (.header (decodeId id)) s

/-- `ID_ENCODE` (R92). -/
def execIdEncode (pgn : Pgn24) (prio : Prio) (src dst : Addr) (s : State) : Out :=
  withValue (encodeId pgn prio src dst) fun r => answer (.ident r.1 r.2) s

end Sys2Proof.Machine
end

