-- ==== Sys2Proof/Machine/Operands.lean ====
section
/-! DEFINITION. The operand and payload forms: `num` operands (spec/42_numeric_codec.md rule R98), raw and string fields (spec/30_encoding.md rules R79 to R81), the NAME on the wire (R73), and the parameter `ACK_TAIL` (R88). -/

set_option Elab.async false

namespace Sys2Proof.Machine

/-! ### Numbers (R97 to R99) -/

/-- The number a `num` operand stands for: `NA_VALUE` is a rational too (R98). -/
def numValue (c : Config) : NumOperand → Rat
  | .na => c.naValue
  | .rat q => q

/-- W, the width of a kind in bytes (R66). -/
def kindWidth : NumKind → Nat
  | .u16 => 2
  | .s16 => 2
  | .u24 => 3
  | .s24 => 3
  | .u32 => 4
  | .s32 => 4

/-- Whether a kind is signed (R66). -/
def kindSigned : NumKind → Bool
  | .u16 => false
  | .s16 => true
  | .u24 => false
  | .s24 => true
  | .u32 => false
  | .s32 => true

/-- `LO` (R97). -/
def kindLo (k : NumKind) : Int := if kindSigned k then -(2 ^ (8 * kindWidth k - 1)) else 0

/-- `NA_RAW`, the largest value of the width (R97). -/
def kindNaRaw (k : NumKind) : Int :=
  if kindSigned k then 2 ^ (8 * kindWidth k - 1) - 1 else 2 ^ (8 * kindWidth k) - 1

/-- `LEbytes_W(raw mod 2^(8W))`: two's complement for a negative raw (R100). -/
def rawBytes (k : NumKind) (raw : Int) : List Byte :=
  leBytes (kindWidth k) (raw % 2 ^ (8 * kindWidth k)).toNat

/-- `ROUND` (R99): the integer nearest to x; at a tie one of the two neighbours, by a free value. -/
def roundRat (x : Rat) : Int :=
  if x - x.floor < 1 / 2 then x.floor
  else if 1 / 2 < x - x.floor then x.floor + 1
  else if Config.roundTieUp x then x.floor + 1
  else x.floor

/-! ### Strings (R80, R81) -/

/-- The bytes before the first terminator 0x00 (R80, R81). -/
def beforeTerminator (str : List Byte) : List Byte := str.takeWhile (· ≠ 0)

/-- A fixed-length string of `maxLen` bytes with pad byte `pad` (R80). -/
def fixedString (str : List Byte) (maxLen : Nat) (pad : Byte) : List Byte :=
  let copied := (beforeTerminator str).take maxLen
  copied ++ List.replicate (maxLen - copied.length) pad

/-- A variable-length string with its two-byte head (R81). -/
def varString (str : List Byte) : List Byte :=
  BitVec.ofNat 8 ((beforeTerminator str).length + 2) :: 0x01 :: beforeTerminator str

/-! ### NAMEs and PGNs in payloads (R73, R83, R85) -/

/-- The eight payload bytes of the NAME (R73). -/
def nameBytes (n : NameWord) : List Byte := leBytes 8 n.toNat

/-- The NAME that eight payload bytes hold (R73). -/
def nameOfBytes (bs : List Byte) : NameWord := BitVec.ofNat 64 (leNat bs)

/-- The eight NAME bytes of a received claim; each byte that the frame lacks is a draw (R152, R153). -/
def remoteNameBytes (f : Frame) (s : State) : List Byte × State :=
  let r := drawBytes (8 - f.len) s
  (f.data.take 8 ++ r.1, r.2)

/-- The requested PGN: the first three payload bytes (R83). -/
def requestedPgn (f : Frame) : Pgn24 := BitVec.ofNat 24 (leNat (f.data.take 3))

/-- The payload of a PGN list (R85): the list type, then three bytes for each entry. -/
def pgnListPayload (listType : Byte) (list : List Pgn24) : List Byte :=
  listType :: list.flatMap fun p => leBytes 3 p.toNat

/-- The default `ACK_TAIL` of R88. PRESUMED (G4, log entry 12). -/
def defaultAckTail (req : Pgn24) : List Byte := 0xFF :: 0xFF :: 0xFF :: leBytes 3 req.toNat

/-- `ACK_TAIL(req)`, NAK bytes 2..7 (R88, D63): the configuration's, else the default. -/
def ackTail (c : Config) (req : Pgn24) : List Byte :=
  match c.ackTail.lookup req with
  | some t => t.toList
  | none => defaultAckTail req

end Sys2Proof.Machine
end

