-- ==== Sys2Proof/Machine/NumCodec.lean ====
section
/-! DEFINITION. The Scaled Numeric Codec: spec/42_numeric_codec.md rules R97 to R119. -/

set_option Elab.async false

namespace Sys2Proof.Machine

/-- `EncodeNum(k, value, prec)` (R100 to R103): NA_RAW for `NA_VALUE`; else the rounded quotient, clamped
from above to NA_RAW - 1 and refused below LO. -/
def encodeNum (k : NumKind) (value prec : NumOperand) (c : Config) : Except Refusal (List Byte) :=
  if numValue c value = c.naValue then .ok (rawBytes k (kindNaRaw k))
  else if numValue c prec ≤ 0 then .error .badPrecision
  else
    let raw := roundRat (numValue c value / numValue c prec)
    if kindNaRaw k ≤ raw then .ok (rawBytes k (kindNaRaw k - 1))
    else if raw < kindLo k then .error .belowRange
    else .ok (rawBytes k raw)

/-- The signed or unsigned number that a field's bytes hold (R104). -/
def fieldValue (k : NumKind) (bytes : List Byte) : Int :=
  if kindSigned k && decide (2 ^ (8 * kindWidth k - 1) ≤ leNat bytes) then
    (leNat bytes : Int) - 2 ^ (8 * kindWidth k)
  else leNat bytes

/-- `DecodeNum(k, bytes, prec)` (R104): `NA_VALUE` for the reserved pattern, else raw times prec. -/
def decodeNum (k : NumKind) (bytes : List Byte) (prec : NumOperand) (c : Config) : Except Refusal Rat :=
  if (leNat bytes : Int) = kindNaRaw k then .ok c.naValue
  else if numValue c prec ≤ 0 then .error .badPrecision
  else .ok (fieldValue k bytes * numValue c prec)

/-- What the six encode commands do (R105 to R110). -/
def encodeCommand (k : NumKind) (value prec : NumOperand) (s : State) : Out :=
  withValue (encodeNum k value prec s.cfg) fun bytes => answer (.raw bytes) s

/-- What the six decode commands do (R111 to R116). -/
def decodeCommand (k : NumKind) (bytes : List Byte) (prec : NumOperand) (s : State) : Out :=
  withValue (decodeNum k bytes prec s.cfg) fun q => answer (.value q) s

/-- `NUM_ENC_U16` (R105). -/
def execNumEncU16 (value prec : NumOperand) (s : State) : Out := encodeCommand .u16 value prec s

/-- `NUM_ENC_S16` (R106). -/
def execNumEncS16 (value prec : NumOperand) (s : State) : Out := encodeCommand .s16 value prec s

/-- `NUM_ENC_U24` (R107). -/
def execNumEncU24 (value prec : NumOperand) (s : State) : Out := encodeCommand .u24 value prec s

/-- `NUM_ENC_S24` (R108). -/
def execNumEncS24 (value prec : NumOperand) (s : State) : Out := encodeCommand .s24 value prec s

/-- `NUM_ENC_U32` (R109). -/
def execNumEncU32 (value prec : NumOperand) (s : State) : Out := encodeCommand .u32 value prec s

/-- `NUM_ENC_S32` (R110). -/
def execNumEncS32 (value prec : NumOperand) (s : State) : Out := encodeCommand .s32 value prec s

/-- `NUM_DEC_U16` (R111). -/
def execNumDecU16 (raw : Vector Byte 2) (prec : NumOperand) (s : State) : Out :=
  decodeCommand .u16 raw.toList prec s

/-- `NUM_DEC_S16` (R112). -/
def execNumDecS16 (raw : Vector Byte 2) (prec : NumOperand) (s : State) : Out :=
  decodeCommand .s16 raw.toList prec s

/-- `NUM_DEC_U24` (R113). -/
def execNumDecU24 (raw : Vector Byte 3) (prec : NumOperand) (s : State) : Out :=
  decodeCommand .u24 raw.toList prec s

/-- `NUM_DEC_S24` (R114). -/
def execNumDecS24 (raw : Vector Byte 3) (prec : NumOperand) (s : State) : Out :=
  decodeCommand .s24 raw.toList prec s

/-- `NUM_DEC_U32` (R115). -/
def execNumDecU32 (raw : Vector Byte 4) (prec : NumOperand) (s : State) : Out :=
  decodeCommand .u32 raw.toList prec s

/-- `NUM_DEC_S32` (R116). -/
def execNumDecS32 (raw : Vector Byte 4) (prec : NumOperand) (s : State) : Out :=
  decodeCommand .s32 raw.toList prec s

end Sys2Proof.Machine
end

