-- ==== Sys2Proof/Machine/Framer.lean ====
section
/-! DEFINITION. The Packet Framer: spec/43_packet_framer.md rules R120 to R148. -/

set_option Elab.async false

namespace Sys2Proof.Machine

/-- `FP_MAX_LEN` (R8, R126). -/
def fastMaxLen : Nat := 223

/-! ### Appending (R123 to R127) -/

/-- `BufWrite(FR_OFF, b); FR_OFF <- FR_OFF + 1` (R123). -/
def putByte (b : Byte) (f : Framer) : Framer :=
  { f with buf := bufWrite f.off.toNat b f.buf, off := f.off + 1 }

/-- The header byte of a fast-packet frame: `((FR_SEQ << 5) | index)[7:0]` (R75, R76, R124). -/
def fastHeader (seq : BitVec 3) (index : BitVec 6) : Byte :=
  seq.setWidth 8 <<< 5 ||| index.setWidth 8

/-- The framer after a flush: a continuation header begins the next frame (R124). -/
def nextFrame (f : Framer) : Framer :=
  { f with buf := bufWrite 0 (fastHeader f.seq f.fidx) f.buf, off := 1, fidx := f.fidx + 1 }

/-- `Flush()` (R124): the full buffer is offered and the next frame begun. -/
def flush (s : State) : State :=
  (transmit s.fr.id (bufFront 8 s.fr.buf) s).setFr (nextFrame s.fr)

/-- `AppendByte(b)` (R123, R125, R126). Its callers have a packet in progress (R121). -/
def appendByte (b : Byte) (s : State) : Out :=
  match s.fr.mode with
  | .idle => .refused .noPacket
  | .single =>
    if s.fr.off = 8 then .next (countFrameErr s) else .next (s.setFr (putByte b s.fr))
  | .fast =>
    if s.fr.written = s.fr.total then .refused .fastOverrun
    else
      let s' := s.setFr { putByte b s.fr with written := s.fr.written + 1 }
      if s'.fr.off = 8 then .next (flush s') else .next s'

/-- The appends of a multi-byte output, in order (R52). -/
def appendAll : List Byte → State → Out
  | [], s => .next s
  | b :: bs, s => andThen (appendByte b s) (appendAll bs)

/-- What an output command does with its bytes: refused with no packet in progress (R121). -/
def outBytes (bs : List Byte) (s : State) : Out :=
  if s.fr.mode = .idle then .refused .noPacket else appendAll bs s

/-- What the six scaled outputs do (R137 to R142): the encode runs before any byte is appended. -/
def outNum (k : NumKind) (value prec : NumOperand) (s : State) : Out :=
  if s.fr.mode = .idle then .refused .noPacket
  else withValue (encodeNum k value prec s.cfg) fun bytes => appendAll bytes s

/-- FR_OUT_VARSTR's appends (R136): the length byte must fit. -/
def outVarString (str : List Byte) (s : State) : Out :=
  if s.fr.mode = .idle then .refused .noPacket
  else if 255 < (beforeTerminator str).length + 2 then .refused .stringTooLong
  else appendAll (varString str) s

/-! ### Starting (R122, R128, R129) -/

/-- FR_START's effect (R128). -/
def startSingle (pgn : Pgn24) (prio : Prio) (src dst : Addr) (s : State) : Out :=
  if s.fr.mode ≠ .idle then .refused .packetInProgress
  else withValue (encodeId pgn prio src dst) fun r =>
    .next (s.setFr { s.fr with id := r.1, off := 0, mode := .single })

/-- The framer at the start of a fast packet (R129): the sequence number advances first, and frame 0's
two header bytes are written. -/
def fastStarted (id : CanId) (total : Byte) (f : Framer) : Framer :=
  { f with
    mode := .fast, id := id, seq := f.seq + 1
    buf := bufWrite 1 total (bufWrite 0 (fastHeader (f.seq + 1) 0) f.buf)
    off := 2, fidx := 1, total := total, written := 0 }

/-- FR_START_FAST's effect (R129). -/
def startFast (pgn : Pgn24) (prio : Prio) (src dst : Addr) (total : Byte) (s : State) : Out :=
  if s.fr.mode ≠ .idle then .refused .packetInProgress
  else if fastMaxLen < total.toNat then .refused .fastTooLong
  else withValue (encodeId pgn prio src dst) fun r => .next (s.setFr (fastStarted r.1 total s.fr))

/-! ### Finishing (R130, R143, R144) -/

/-- `FR_MODE <- IDLE`. -/
def goIdle (s : State) : State := s.setFr { s.fr with mode := .idle }

/-- FR_FINISH's effect (R143). -/
def finishSingle (s : State) : Out :=
  match s.fr.mode with
  | .idle => .refused .noPacket
  | .fast => .next (countPacketErr s)
  | .single =>
    if 0 < s.fr.off.toNat then
      .next (goIdle (transmit s.fr.id (bufFront s.fr.off.toNat s.fr.buf) s))
    else .next (goIdle s)

/-- The residual frame of a fast packet, padded where `FP_PAD` says so (R144). -/
def residualFrame (pad : FpPad) (f : Framer) : List Byte :=
  match pad with
  | .unpadded => bufFront f.off.toNat f.buf
  | .padFF => bufFront f.off.toNat f.buf ++ List.replicate (8 - f.off.toNat) 0xFF

/-- FR_FINISH_FAST's effect (R144). -/
def finishFast (s : State) : Out :=
  match s.fr.mode with
  | .idle => .refused .noPacket
  | .single => .next (countPacketErr s)
  | .fast =>
    if s.fr.written.toNat < s.fr.total.toNat then .refused .fastUnderrun
    else if 1 < s.fr.off.toNat then
      .next (goIdle (transmit s.fr.id (residualFrame s.cfg.fpPad s.fr) s))
    else .next (goIdle s)

/-! ### Whole packets, as the arbitrator and the dispatcher send them -/

/-- A single packet of `bytes` (R149, R165). -/
def sendSingle (pgn : Pgn24) (prio : Prio) (src dst : Addr) (bytes : List Byte) (s : State) : Out :=
  andThen (startSingle pgn prio src dst s) fun s1 =>
  andThen (outBytes bytes s1) finishSingle

/-- A fast packet that declares `total` bytes and writes `bytes` (R162 to R164). -/
def sendFast (pgn : Pgn24) (prio : Prio) (src dst : Addr) (total : Byte) (bytes : List Byte)
    (s : State) : Out :=
  andThen (startFast pgn prio src dst total s) fun s1 =>
  andThen (outBytes bytes s1) finishFast

/-! ### The commands -/

/-- `FR_START` (R128). -/
def execFrStart (pgn : Pgn24) (prio : Prio) (src dst : Addr) (s : State) : Out :=
  done (startSingle pgn prio src dst s)

/-- `FR_START_FAST` (R129). -/
def execFrStartFast (pgn : Pgn24) (prio : Prio) (src dst : Addr) (total : Byte) (s : State) : Out :=
  done (startFast pgn prio src dst total s)

/-- `FR_OUT_BYTE` (R131). -/
def execFrOutByte (b : Byte) (s : State) : Out := done (outBytes [b] s)

/-- `FR_OUT_RAW16` (R132). -/
def execFrOutRaw16 (v : BitVec 16) (s : State) : Out := done (outBytes (leBytes 2 v.toNat) s)

/-- `FR_OUT_RAW24` (R133). -/
def execFrOutRaw24 (v : BitVec 24) (s : State) : Out := done (outBytes (leBytes 3 v.toNat) s)

/-- `FR_OUT_RAW32` (R134). -/
def execFrOutRaw32 (v : BitVec 32) (s : State) : Out := done (outBytes (leBytes 4 v.toNat) s)

/-- `FR_OUT_FIXSTR` (R135). -/
def execFrOutFixstr (str : List Byte) (maxLen pad : Byte) (s : State) : Out :=
  done (outBytes (fixedString str maxLen.toNat pad) s)

/-- `FR_OUT_VARSTR` (R136). -/
def execFrOutVarstr (str : List Byte) (s : State) : Out := done (outVarString str s)

/-- `FR_OUT_NUM_U16` (R137). -/
def execFrOutNumU16 (value prec : NumOperand) (s : State) : Out := done (outNum .u16 value prec s)

/-- `FR_OUT_NUM_S16` (R138). -/
def execFrOutNumS16 (value prec : NumOperand) (s : State) : Out := done (outNum .s16 value prec s)

/-- `FR_OUT_NUM_U24` (R139). -/
def execFrOutNumU24 (value prec : NumOperand) (s : State) : Out := done (outNum .u24 value prec s)

/-- `FR_OUT_NUM_S24` (R140). -/
def execFrOutNumS24 (value prec : NumOperand) (s : State) : Out := done (outNum .s24 value prec s)

/-- `FR_OUT_NUM_U32` (R141). -/
def execFrOutNumU32 (value prec : NumOperand) (s : State) : Out := done (outNum .u32 value prec s)

/-- `FR_OUT_NUM_S32` (R142). -/
def execFrOutNumS32 (value prec : NumOperand) (s : State) : Out := done (outNum .s32 value prec s)

/-- `FR_FINISH` (R143). -/
def execFrFinish (s : State) : Out := done (finishSingle s)

/-- `FR_FINISH_FAST` (R144). -/
def execFrFinishFast (s : State) : Out := done (finishFast s)

end Sys2Proof.Machine
end

