-- ==== Sys2Proof/Machine/AddressClaim.lean ====
section
/-! DEFINITION. The Address Claim Arbitrator: spec/44_address_claim.md rules R149 to R160. -/

set_option Elab.async false

namespace Sys2Proof.Machine

/-- `SendClaim()` (R149): PGN 60928 from `DEV_ADDR` to 0xFF, carrying the NAME. -/
def sendClaim (s : State) : Out :=
  sendSingle 60928 s.cfg.claimPrio s.devAddr 0xFF (nameBytes s.name) s

/-- AC_CLAIM's effect (R150): the timer is set whether the transport took the frame or not. -/
def claimAddress (s : State) : Out :=
  andThen (sendClaim s) fun s1 => .next ((s1.setClaimT (now s)).setClaimedOnce true)

/-- The state change of `AcPoll()` (R151): an expired claim is cleared. -/
def expireClaim (s : State) : State :=
  s.setClaimT (if windowPassed (now s) s.claimT then 0 else s.claimT)

/-- The answer of `AcPoll()` (R151): true when no claim is pending, in the state it leaves. -/
def notPending (s : State) : Bool := decide (s.claimT = 0)

/-- `NAME[39:32] <- now[7:0] & 0x7F` (R154); no other bit of the NAME is written (R25). -/
def withDeviceInstance (n : NameWord) (t : Millis) : NameWord :=
  (n &&& ~~~(0xFF00000000 : NameWord)) ||| (t.setWidth 64 &&& 0x7F) <<< 32

/-- The three branches of the arbitration (R154 to R157), each ending in a claim. -/
def arbitrate (remote : NameWord) (s : State) : Out :=
  if remote = s.name then claimAddress (s.setName (withDeviceInstance s.name (now s)))
  else if remote.toNat < s.name.toNat then
    if s.devAddr = 251 then .refused .addressExhausted
    else claimAddress (s.setDevAddr (s.devAddr + 1))
  else claimAddress s

/-- AC_RX_CLAIM's effect (R152, R153): only a claim from this device's own address is arbitrated. -/
def receiveClaim (f : Frame) (s : State) : Out :=
  if (decodeId f.id).src = 254 then .next s
  else if (decodeId f.id).src ≠ s.devAddr then .next s
  else
    let r := remoteNameBytes f s
    arbitrate (nameOfBytes r.1) r.2

/-- `AC_CLAIM` (R150). -/
def execAcClaim (s : State) : Out := done (claimAddress s)

/-- `AC_POLL` (R151). -/
def execAcPoll (s : State) : Out := answer (.claimed (notPending (expireClaim s))) (expireClaim s)

/-- `AC_RX_CLAIM` (R152). -/
def execAcRxClaim (f : Frame) (s : State) : Out := done (receiveClaim f s)

end Sys2Proof.Machine
end

