-- ==== Sys2Proof/Machine/IsoDispatch.lean ====
section
/-! DEFINITION. The ISO Service Dispatcher: spec/45_iso_dispatcher.md rules R161 to R174. -/

set_option Elab.async false

namespace Sys2Proof.Machine

/-! ### Responders (R161 to R165) -/

/-- `SendPgnList(type, list, to)` (R162). -/
def sendPgnList (listType : Byte) (list : List Pgn24) (dst : Addr) (s : State) : Out :=
  if fastMaxLen < 1 + 3 * list.length then .refused .listTooLong
  else sendFast 126464 s.cfg.respPrio s.devAddr dst (BitVec.ofNat 8 (1 + 3 * list.length))
    (pgnListPayload listType list) s

/-- The 134-byte payload of the Product Information (R86, R163). -/
def productPayload (p : ProductInfo) : List Byte :=
  leBytes 2 p.version.toNat ++ leBytes 2 p.productCode.toNat
    ++ fixedString p.modelId 32 0xFF ++ fixedString p.softwareVersion 32 0xFF
    ++ fixedString p.modelVersion 32 0xFF ++ fixedString p.serialNumber 32 0xFF
    ++ [p.certificationLevel, p.loadEquivalency]

/-- `SendProductInfo(to)` (R163). -/
def sendProductInfo (dst : Addr) (s : State) : Out :=
  sendFast 126996 s.cfg.respPrio s.devAddr dst 134 (productPayload s.cfg.productInfo) s

/-- The payload of the Configuration Information (R87, R164). -/
def configPayload (c : ConfigInfo) : List Byte :=
  varString c.manufacturerInfo ++ varString c.installDescription1
    ++ varString c.installDescription2

/-- `SendConfigInfo(to)` (R164). -/
def sendConfigInfo (dst : Addr) (s : State) : Out :=
  if fastMaxLen < (configPayload s.cfg.configInfo).length then .refused .listTooLong
  else sendFast 126998 s.cfg.respPrio s.devAddr dst
    (BitVec.ofNat 8 (configPayload s.cfg.configInfo).length) (configPayload s.cfg.configInfo) s

/-- `SendNak(req, to)` (R165). -/
def sendNak (req : Pgn24) (dst : Addr) (s : State) : Out :=
  sendSingle 59392 s.cfg.respPrio s.devAddr dst (0x01 :: 0xFF :: ackTail s.cfg req) s

/-! ### Requests (R166 to R169) -/

/-- The request passes check 1 (length) and check 2 (destination) (R167, R168). -/
def requestForUs (f : Frame) (s : State) : Bool :=
  decide (3 ≤ f.len) && decide (f.len ≤ 8) &&
    (decide ((decodeId f.id).dst = 0xFF) || decide ((decodeId f.id).dst = s.devAddr))

/-- An operation that ends without a callback. -/
def toFlow (r : Out) : Host.Outcome Flow Fault Refusal := andThen r fun s => .next (.done s)

/-- The answer to a request that passed the three checks (R167). An unknown PGN goes to the
application's handler where there is one (R166), else it gets a NAK (R174). -/
def respond (f : Frame) (pumpLeft : Option Nat) (s : State) : Host.Outcome Flow Fault Refusal :=
  let header := decodeId f.id
  let req := requestedPgn f
  if req = 60928 then toFlow (claimAddress s)
  else if req = 126464 then
    toFlow (andThen (sendPgnList 0 s.cfg.rxList header.src s) fun s1 =>
      sendPgnList 1 s1.cfg.txList header.src s1)
  else if req = 126996 then toFlow (sendProductInfo header.src s)
  else if req = 126998 then toFlow (sendConfigInfo header.src s)
  else if s.cfg.hasIsoHandler then .next (callHost (.isoHandler req header f.data pumpLeft) s)
  else toFlow (sendNak req header.src s)

/-- ISO_RX_REQUEST's effect (R167, R168): length, destination, then the claim poll, which alone has a
side effect. -/
def receiveRequest (f : Frame) (pumpLeft : Option Nat) (s : State) :
    Host.Outcome Flow Fault Refusal :=
  if requestForUs f s then
    if notPending (expireClaim s) then respond f pumpLeft (expireClaim s)
    else .next (.done (expireClaim s))
  else .next (.done s)

/-- The state in which a command leaves the engine, done or suspended. -/
def flowState : Flow → State
  | .done s => s
  | .suspended s => s

/-- `ISO_RX_REQUEST` (R167). -/
def execIsoRxRequest (f : Frame) (s : State) : Out :=
  done (andThen (receiveRequest f none s) fun r => .next (flowState r))

/-- ISO_RX_ACK's effect: no action (R171). -/
def receiveAck (_f : Frame) (s : State) : Out := .next s

/-- `ISO_RX_ACK` (R171). -/
def execIsoRxAck (f : Frame) (s : State) : Out := done (receiveAck f s)

end Sys2Proof.Machine
end

