-- ==== Sys2Proof/Machine/Pump.lean ====
section
/-! DEFINITION. The Message Pump, the return of an application callback, STATUS and ENG_OPEN: spec/46_message_pump.md rules R175 to R187. -/

set_option Elab.async false

namespace Sys2Proof.Machine

/-- `PUMP_CAP` (R8, R181). -/
def pumpCap : Nat := 20

/-- The routing of a kept frame by its PGN (R179). -/
def route (f : Frame) (pumpLeft : Nat) (s : State) : Host.Outcome Flow Fault Refusal :=
  if pgnOf f.id = 59904 then receiveRequest f (some pumpLeft) s
  else if pgnOf f.id = 60928 then toFlow (receiveClaim f s)
  else if pgnOf f.id = 59392 then toFlow (receiveAck f s)
  else .next (callHost (.messageHandler (decodeId f.id) f.data pumpLeft) s)

/-- One frame of a PUMP with `pumpLeft` further polls (R176 to R180): dropped and counted, or counted and
routed. -/
def handleFrame (f : Frame) (pumpLeft : Nat) (s : State) : Host.Outcome Flow Fault Refusal :=
  if inList (pgnOf f.id) s.cfg.rxList then route f pumpLeft (countRx s)
  else .next (.done (countDrop s))

/-- The loop of PUMP with `k` polls left (R176, R181, R182). Each frame's clock sample is fresh; the first
frame's is the one taken at the command's start (log entry 6). A callback suspends the loop. -/
def pumpLoop : Nat → Bool → State → Out
  | 0, _, s => .next s
  | k + 1, fresh, s =>
    let s0 := if fresh then sampleClock none s else s
    match pollReceive s0 with
    | (none, s1) => .next s1
    | (some f, s1) =>
      andThen (handleFrame f k s1) fun r =>
        match r with
        | .done s2 => pumpLoop k true s2
        | .suspended s2 => .next s2

/-- What a suspended ISO_RX_REQUEST or PUMP does when the callback returns with `handled` (R166, R180):
a NAK where the ISO handler answers false (R174), then the PUMP's further polls. -/
def afterCallback (c : Callback) (handled : Bool) (s : State) : Out :=
  match c with
  | .messageHandler _ _ left => pumpLoop left true s
  | .isoHandler req h _ left =>
    andThen (if handled then .next s else sendNak req h.src s) fun s1 =>
      match left with
      | none => .next s1
      | some k => pumpLoop k true s1

/-- The host returns from the innermost callback (R12, R187). -/
def resume (handled : Bool) (s : State) : Out :=
  match s.calls with
  | [] => .refused .strayReturn
  | c :: rest => done (afterCallback c handled (s.setCalls rest))

/-- `PUMP` (R176). -/
def execPump (s : State) : Out := done (pumpLoop pumpCap false s)

/-- `STATUS` (R183). -/
def execStatus (s : State) : Out := answer (.counters s.cnt) s

/-- `ENG_OPEN` (R184): the transport answers; after a successful open the engine waits. Neither operand
is read. -/
def execEngOpen (_bitrate _clockConfig : Nat) (s : State) : Out :=
  let r := drawOpen s
  answer (.opened r.1) (wait (if r.1 then s.cfg.startupDelayMs else 0) r.2)

end Sys2Proof.Machine
end

