-- ==== Sys2Proof/Machine/Dispatch.lean ====
section
/-! DEFINITION. One arm per command (spec/30_encoding.md rule R64), each a call of its meaning. -/

namespace Sys2Proof.Machine

def exec (i : Instr) (s : State) : Host.Outcome State Fault Refusal :=
  match i with
  | .idPgnof id => Sys2Proof.Machine.execIdPgnof id s
  | .idDecode id => Sys2Proof.Machine.execIdDecode id s
  | .idEncode pgn prio src dst => Sys2Proof.Machine.execIdEncode pgn prio src dst s
  | .numEncU16 value prec => Sys2Proof.Machine.execNumEncU16 value prec s
  | .numEncS16 value prec => Sys2Proof.Machine.execNumEncS16 value prec s
  | .numEncU24 value prec => Sys2Proof.Machine.execNumEncU24 value prec s
  | .numEncS24 value prec => Sys2Proof.Machine.execNumEncS24 value prec s
  | .numEncU32 value prec => Sys2Proof.Machine.execNumEncU32 value prec s
  | .numEncS32 value prec => Sys2Proof.Machine.execNumEncS32 value prec s
  | .numDecU16 raw prec => Sys2Proof.Machine.execNumDecU16 raw prec s
  | .numDecS16 raw prec => Sys2Proof.Machine.execNumDecS16 raw prec s
  | .numDecU24 raw prec => Sys2Proof.Machine.execNumDecU24 raw prec s
  | .numDecS24 raw prec => Sys2Proof.Machine.execNumDecS24 raw prec s
  | .numDecU32 raw prec => Sys2Proof.Machine.execNumDecU32 raw prec s
  | .numDecS32 raw prec => Sys2Proof.Machine.execNumDecS32 raw prec s
  | .frStart pgn prio src dst => Sys2Proof.Machine.execFrStart pgn prio src dst s
  | .frStartFast pgn prio src dst total => Sys2Proof.Machine.execFrStartFast pgn prio src dst total s
  | .frOutByte b => Sys2Proof.Machine.execFrOutByte b s
  | .frOutRaw16 v => Sys2Proof.Machine.execFrOutRaw16 v s
  | .frOutRaw24 v => Sys2Proof.Machine.execFrOutRaw24 v s
  | .frOutRaw32 v => Sys2Proof.Machine.execFrOutRaw32 v s
  | .frOutFixstr str maxLen pad => Sys2Proof.Machine.execFrOutFixstr str maxLen pad s
  | .frOutVarstr str => Sys2Proof.Machine.execFrOutVarstr str s
  | .frOutNumU16 value prec => Sys2Proof.Machine.execFrOutNumU16 value prec s
  | .frOutNumS16 value prec => Sys2Proof.Machine.execFrOutNumS16 value prec s
  | .frOutNumU24 value prec => Sys2Proof.Machine.execFrOutNumU24 value prec s
  | .frOutNumS24 value prec => Sys2Proof.Machine.execFrOutNumS24 value prec s
  | .frOutNumU32 value prec => Sys2Proof.Machine.execFrOutNumU32 value prec s
  | .frOutNumS32 value prec => Sys2Proof.Machine.execFrOutNumS32 value prec s
  | .frFinish => Sys2Proof.Machine.execFrFinish s
  | .frFinishFast => Sys2Proof.Machine.execFrFinishFast s
  | .acClaim => Sys2Proof.Machine.execAcClaim s
  | .acPoll => Sys2Proof.Machine.execAcPoll s
  | .acRxClaim frame => Sys2Proof.Machine.execAcRxClaim frame s
  | .isoRxRequest frame => Sys2Proof.Machine.execIsoRxRequest frame s
  | .isoRxAck frame => Sys2Proof.Machine.execIsoRxAck frame s
  | .pump => Sys2Proof.Machine.execPump s
  | .status => Sys2Proof.Machine.execStatus s
  | .engOpen bitrate clockConfig => Sys2Proof.Machine.execEngOpen bitrate clockConfig s

end Sys2Proof.Machine
end

