-- ==== Sys2Proof/Machine/Port.lean ====
section
/-! DEFINITION. The command port and the host's items: taking the next item, reading its bytes, and carrying it out (spec/00_scope.md rules R11 to R13, spec/30_encoding.md rules R63, R67, R69). -/

set_option Elab.async false

namespace Sys2Proof.Machine

/-- The state once the head of the port has been taken. -/
def takeItem (s : State) : State := s.setWorld { s.world with port := s.world.port.tail }

/-- The refusal for bytes that are no command (R67, R68). -/
def refusalOf : DecodeError → Refusal
  | .noCommand => .malformedOperand
  | .illegalCommand code => .illegalCommand code
  | .truncated => .malformedOperand
  | .operandTooWide => .malformedOperand
  | .frameTooLong => .malformedOperand
  | .badNumTag => .malformedOperand

/-- A command item: refused once `REFUSED` is set (R42); otherwise decoded and, with `now` sampled at its
start (R44), carried out. -/
def runCommand (time : Option Millis) (bytes : List Byte) (s : State) : Out :=
  if s.refused then .refused .alreadyRefused
  else match decode bytes with
    | .ok i => exec i (sampleClock time s)
    | .error e => .refused (refusalOf e)

/-- A return from the running callback: refused once `REFUSED` is set (R42). -/
def runReturn (handled : Bool) (s : State) : Out :=
  if s.refused then .refused .alreadyRefused else resume handled s

/-- The host's next item. With none on the port the engine holds its state (R201, R205). -/
def runItem (s : State) : Out :=
  match s.world.port with
  | [] => .next s
  | .command time bytes :: _ => runCommand time bytes (takeItem s)
  | .callbackReturn handled :: _ => runReturn handled (takeItem s)
  | .powerUp c :: _ => powerUp c (takeItem s)

/-- `s` with `bytes` as the host's next command. -/
def placeCommand (bytes : List Byte) (s : State) : State :=
  s.setWorld { s.world with port := .command none bytes :: s.world.port }

end Sys2Proof.Machine
end

