-- ==== Sys2Proof/Machine/Step.lean ====
section
/-! DEFINITION. One step of the machine, and the placing of a word of spec/opcode_table.json where the step takes its next command. -/

set_option Elab.async false

namespace Sys2Proof.Machine

/-- One step: the host's next item is taken from the port and carried out. -/
def step (s : State) : Host.Outcome State Fault Refusal := runItem s

/-- `s` with a word of spec/opcode_table.json as the host's next command, its operand bits above `nbits`
zero (log entry 26). -/
def State.withFetchWord (s : State) (nbits w : Nat) : State := placeCommand (tableBytes nbits w) s

end Sys2Proof.Machine
end

