-- ==== Sys2Proof/Safety.lean ====
section
/-! DEFINITION. What counts as a safe state and a safe run, and the terms that statements use: the invariants of spec/10_state.md rules R21 and R36, the sticky mark REFUSED (R42), programs as lists of commands (R69), a PUMP from one frame to the next and the return of an application callback (R166, R176 to R182), and the frames of spec/30_encoding.md rules R74 to R77. -/

set_option Elab.async false

namespace Sys2Proof.Machine

/-! ### Invariants -/

/-- The invariants of the packet in progress (R36; the byte count is the equation of R36 with both sides
raised by 9). -/
abbrev Framer.Inv (f : Framer) : Prop :=
  (f.mode = .single → f.off.toNat ≤ 8) ∧
  (f.mode = .fast →
    1 ≤ f.off.toNat ∧ f.off.toNat ≤ 7 ∧ 1 ≤ f.fidx.toNat ∧ f.fidx.toNat ≤ 33 ∧
    f.written.toNat ≤ f.total.toNat ∧ f.total.toNat ≤ 223 ∧
    f.written.toNat + 9 = 7 * f.fidx.toNat + f.off.toNat)

/-- An entry of `TX_LOG` is a CAN frame: never identifier 0 (R55), at most 8 bytes (R8). -/
abbrev TxEntry.Inv (e : TxEntry) : Prop := e.id ≠ 0 ∧ e.data.length ≤ 8

/-- The three ISO-service PGNs (R72, R179). -/
abbrev isServicePgn (p : Pgn) : Bool := p = 59904 || p = 60928 || p = 59392

/-- A callback in progress was rightly called: the ISO handler exists and was asked for an unknown PGN
(R166, R174); the message handler got a kept frame of no service PGN (R186). Neither payload has more
than 8 bytes (R82), and at most 19 polls are left (R181). -/
def Callback.inv (c : Config) : Callback → Bool
  | .isoHandler req _ payload left =>
    c.hasIsoHandler && !([60928, 126464, 126996, 126998].contains req) &&
      decide (payload.length ≤ 8) && decide (left.getD 0 ≤ 19)
  | .messageHandler h payload left =>
    inList h.pgn c.rxList && !isServicePgn h.pgn && decide (payload.length ≤ 8) &&
      decide (left ≤ 19)

/-- The invariant of the engine: `DEV_ADDR` is claimable (R21), the packet in progress is as R36 says, the
log holds CAN frames, and every callback in progress was rightly called. -/
abbrev State.Inv (s : State) : Prop :=
  s.devAddr.toNat ≤ 251 ∧ s.fr.Inv ∧ (∀ e ∈ s.txLog, e.Inv) ∧ (∀ c ∈ s.calls, c.inv s.cfg = true)

/-! ### Runs -/

/-- A step with the mark of R42: a refusal leaves the state as it was, with `REFUSED` set for good. -/
def stepMarked (s : State) : State :=
  match step s with
  | .next t => t
  | .fault _ => { s with refused := true }
  | .refused _ => { s with refused := true }

/-- Commands carried out one after another at one clock sample, as a program's commands are (R69). -/
def execAll : List Instr → State → Out
  | [], s => .next s
  | i :: is, s => andThen (exec i s) (execAll is)

/-! ### Frames of a step -/

/-- `t` is `s` but for the answers that the transport has given to sends. -/
def World.afterSends (w : World) (t : State) : World :=
  { w with sendIn := t.world.sendIn, draws := t.world.draws }

/-- `t` differs from `s` at most in the packet in progress, the counters, `TX_LOG` and the transport's
answers to sends: what a command that only sends may change. -/
def SendsOnly (s t : State) : Prop :=
  t = (((s.setFr t.fr).setCnt t.cnt).setTxLog t.txLog).setWorld (s.world.afterSends t)

/-- The counters once the frames of `es` have been offered: one send counter for each, by the transport's
answer (R55). -/
def Counters.afterSends (c : Counters) (es : List TxEntry) : Counters :=
  { c with
    tx := c.tx + BitVec.ofNat 32 (es.countP fun e => e.ok)
    txFail := c.txFail + BitVec.ofNat 32 (es.countP fun e => !e.ok) }

/-! ### A PUMP from one frame to the next (R176 to R182) -/

/-- The command that a kept frame is routed to by its PGN (R179); none for the application's own frames. -/
def routedCommand (f : Frame) : Option Instr :=
  if pgnOf f.id = 59904 then some (.isoRxRequest f)
  else if pgnOf f.id = 60928 then some (.acRxClaim f)
  else if pgnOf f.id = 59392 then some (.isoRxAck f)
  else none

/-- An ISO handler's call as a PUMP with `k` further polls makes it (R182). -/
def Callback.inPump (k : Nat) : Callback → Callback
  | .isoHandler req h payload _ => .isoHandler req h payload (some k)
  | .messageHandler h payload left => .messageHandler h payload left

/-- A PUMP whose outcome is `out` has received `f`, which leaves `s`, and has `k` further polls. It drops and
counts an unlisted frame (R177). A kept one it counts first (R178), then routes by its PGN (R179): it does
what the routed command does, or calls the message handler (R180). A refusal or a call ends the step, and
otherwise PUMP goes on, as `goesOn` says. The result port waits for its end (log entry 20). -/
def PumpHandles (out : Out) (k : Nat) (f : Frame) (s : State) (goesOn : State → Prop) : Prop :=
  let counted := s.setCnt { s.cnt with rx := s.cnt.rx + 1 }
  if inList (pgnOf f.id) s.cfg.rxList then
    match routedCommand f with
    | some cmd =>
      (∀ r : Refusal, exec cmd counted = .refused r → out = .refused r) ∧
      (∀ u : State, exec cmd counted = .next u →
        (u.calls = s.calls → goesOn (u.setResult s.result)) ∧
        (∀ c : Callback, u.calls = c :: s.calls → out = .next (u.setCalls (c.inPump k :: s.calls))))
    | none => out = .next ((counted.setCalls
        (.messageHandler (decodeId f.id) f.data k :: s.calls)).setResult .none)
  else goesOn (s.setCnt { s.cnt with drop := s.cnt.drop + 1 })

/-- A PUMP whose outcome is `out` goes on from a state with so many polls left: before each poll it takes a
fresh clock sample (R44, R176); a poll that finds no frame ends it, and so does the end of its polls
(R181); a frame is handled before the next poll (R182). -/
def PumpGoesOn (out : Out) : Nat → State → Prop
  | 0, s => out = .next (s.setResult .none)
  | k + 1, s =>
    match pollReceive (sampleClock none s) with
    | (none, t) => out = .next (t.setResult .none)
    | (some f, t) => PumpHandles out k f t (PumpGoesOn out k)

/-! ### The return of a callback (R166, R174, R180 to R182) -/

/-- The NAK that a callback's return is due: the PGN that the ISO handler was asked for and the requester,
where it answers false (R166, R174); a message handler answers nothing (R180). -/
def Callback.nakDue : Callback → Bool → Option (Pgn24 × Addr)
  | .isoHandler req h _ _, handled => if handled then none else some (req, h.src)
  | .messageHandler _ _ _, _ => none

/-- The polls that the suspended command goes on with: the rest of its PUMP (R181, R182), none for an
ISO_RX_REQUEST of the host's own. -/
def Callback.pollsLeft : Callback → Nat
  | .isoHandler _ _ _ left => left.getD 0
  | .messageHandler _ _ left => left

/-- The step of `s` goes on from `m` with `left` further polls of a suspended PUMP, each frame at a clock
sample of its own (R176, R181, R182, R187), and then ends. -/
structure ResumesPump (s : State) (left : Nat) (m : State) : Prop where
  /-- it goes on as a PUMP does (R182) -/
  goesOn : PumpGoesOn (step s) left m
  /-- with no poll left the step ends (R181) -/
  ends : left = 0 → step s = .next (m.setResult .none)
  /-- a poll that finds no frame ends it too (R176) -/
  stops : left ≠ 0 → ∀ rest : List (Option Frame), m.world.recvIn = none :: rest →
    ∃ t : State, step s = .next t ∧ t = (m.setResult .none).setWorld t.world ∧
      t.world.recvIn = rest ∧ t.world.port = m.world.port ∧ m.world.clock ≤ t.world.clock
  /-- frames fewer than the polls left are handled as a PUMP handles them (R177 to R179) -/
  handles : ∀ (frames : List Frame) (rest : List (Option Frame)) (t : State),
    frames.length < left → left ≤ 20 → m.world.recvIn = frames.map some ++ none :: rest →
    exec .pump (sampleClock none m) = .next t → t.calls = m.calls → step s = .next t
  /-- a kept frame of no service PGN suspends it again, with one poll less (R180) -/
  callsMessageHandler : ∀ (k : Nat) (f : Frame) (rest : List (Option Frame)), left = k + 1 →
    m.world.recvIn = some f :: rest → f.len ≤ 8 → inList (pgnOf f.id) m.cfg.rxList = true →
    isServicePgn (pgnOf f.id) = false →
    ∃ t : State, step s = .next t ∧ t.world.recvIn = rest ∧
      t = (((m.setCnt { m.cnt with rx := m.cnt.rx + 1 }).setCalls
        (.messageHandler (decodeId f.id) f.data k :: m.calls)).setResult .none).setWorld t.world
  /-- a request for an unknown PGN does so where an ISO handler is installed (R166, R167) -/
  callsIsoHandler : ∀ (k : Nat) (f : Frame) (rest : List (Option Frame)), left = k + 1 →
    m.world.recvIn = some f :: rest → pgnOf f.id = 59904 →
    inList (pgnOf f.id) m.cfg.rxList = true → m.cfg.hasIsoHandler = true →
    3 ≤ f.len → f.len ≤ 8 → ((decodeId f.id).dst = 0xFF ∨ (decodeId f.id).dst = m.devAddr) →
    m.claimT = 0 → leNat (f.data.take 3) ∉ [60928, 126464, 126996, 126998] →
    ∃ t : State, step s = .next t ∧ t.world.recvIn = rest ∧
      t = (((m.setCnt { m.cnt with rx := m.cnt.rx + 1 }).setCalls
        (.isoHandler (BitVec.ofNat 24 (leNat (f.data.take 3))) (decodeId f.id) f.data (some k) ::
          m.calls)).setResult .none).setWorld t.world
  /-- it never polls more often than is left (R181) -/
  pollsBounded : ∀ t : State, step s = .next t →
    ∃ j : Nat, j ≤ left ∧ t.world.recvIn = m.world.recvIn.drop j

/-! ### Command families -/

/-- The encode command of a kind (R105 to R110). -/
def numEncInstr : NumKind → NumOperand → NumOperand → Instr
  | .u16 => .numEncU16
  | .s16 => .numEncS16
  | .u24 => .numEncU24
  | .s24 => .numEncS24
  | .u32 => .numEncU32
  | .s32 => .numEncS32

/-- The decode command of a kind (R111 to R116). -/
def numDecInstr : (k : NumKind) → Vector Byte (kindWidth k) → NumOperand → Instr
  | .u16 => .numDecU16
  | .s16 => .numDecS16
  | .u24 => .numDecU24
  | .s24 => .numDecS24
  | .u32 => .numDecU32
  | .s32 => .numDecS32

/-- The scaled output command of a kind (R137 to R142). -/
def outNumInstr : NumKind → NumOperand → NumOperand → Instr
  | .u16 => .frOutNumU16
  | .s16 => .frOutNumS16
  | .u24 => .frOutNumU24
  | .s24 => .frOutNumS24
  | .u32 => .frOutNumU32
  | .s32 => .frOutNumS32

/-- The row of a kind in the table of R78: its width W in bytes, the lowest value of its raw range, and
`NA_RAW`. -/
def fieldRow : NumKind → Nat × Int × Int
  | .u16 => (2, 0, 65535)
  | .s16 => (2, -32768, 32767)
  | .u24 => (3, 0, 16777215)
  | .s24 => (3, -8388608, 8388607)
  | .u32 => (4, 0, 4294967295)
  | .s32 => (4, -2147483648, 2147483647)

/-- The bytes of `NA_RAW` in the table of R78. -/
def naPattern : NumKind → List Byte
  | .u16 => [0xFF, 0xFF]
  | .s16 => [0xFF, 0x7F]
  | .u24 => [0xFF, 0xFF, 0xFF]
  | .s24 => [0xFF, 0xFF, 0x7F]
  | .u32 => [0xFF, 0xFF, 0xFF, 0xFF]
  | .s32 => [0xFF, 0xFF, 0xFF, 0x7F]

/-- The bytes that EncodeNum gives, where it refuses nothing (R137). -/
def encodedBytes (k : NumKind) (value prec : NumOperand) (c : Config) : Option (List Byte) :=
  match encodeNum k value prec c with
  | .ok bytes => some bytes
  | .error _ => none

/-- The number of bytes of a string before its first 0x00 (R80, R81). -/
def textLength (str : List Byte) : Nat := (str.takeWhile (· ≠ 0)).length

/-- A fixed-length text field of `n` bytes: byte i is `str[i]` before the terminator, else the pad (R80). -/
def textField (str : List Byte) (n : Nat) (pad : Byte) : List Byte :=
  (List.range n).map fun i => if i < textLength str then str.getD i 0 else pad

/-- A variable-length text field (R81). -/
def varTextField (str : List Byte) : List Byte :=
  BitVec.ofNat 8 (textLength str + 2) :: 0x01 :: str.take (textLength str)

/-- The bytes an output command appends (R131 to R142), byte by byte as its rule lists them; none for a
command that is no output or that its rule refuses whatever the framer holds. -/
def outputBytes (c : Config) : Instr → Option (List Byte)
  | .frOutByte b => some [b]
  | .frOutRaw16 v => some [v.extractLsb' 0 8, v.extractLsb' 8 8]
  | .frOutRaw24 v => some [v.extractLsb' 0 8, v.extractLsb' 8 8, v.extractLsb' 16 8]
  | .frOutRaw32 v =>
    some [v.extractLsb' 0 8, v.extractLsb' 8 8, v.extractLsb' 16 8, v.extractLsb' 24 8]
  | .frOutFixstr str maxLen pad => some (textField str maxLen.toNat pad)
  | .frOutVarstr str =>
    if textLength str + 2 ≤ 255 then some (varTextField str) else none
  | .frOutNumU16 value prec => encodedBytes .u16 value prec c
  | .frOutNumS16 value prec => encodedBytes .s16 value prec c
  | .frOutNumU24 value prec => encodedBytes .u24 value prec c
  | .frOutNumS24 value prec => encodedBytes .s24 value prec c
  | .frOutNumU32 value prec => encodedBytes .u32 value prec c
  | .frOutNumS32 value prec => encodedBytes .s32 value prec c
  | .idPgnof _ => none
  | .idDecode _ => none
  | .idEncode _ _ _ _ => none
  | .numEncU16 _ _ => none
  | .numEncS16 _ _ => none
  | .numEncU24 _ _ => none
  | .numEncS24 _ _ => none
  | .numEncU32 _ _ => none
  | .numEncS32 _ _ => none
  | .numDecU16 _ _ => none
  | .numDecS16 _ _ => none
  | .numDecU24 _ _ => none
  | .numDecS24 _ _ => none
  | .numDecU32 _ _ => none
  | .numDecS32 _ _ => none
  | .frStart _ _ _ _ => none
  | .frStartFast _ _ _ _ _ => none
  | .frFinish => none
  | .frFinishFast => none
  | .acClaim => none
  | .acPoll => none
  | .acRxClaim _ => none
  | .isoRxRequest _ => none
  | .isoRxAck _ => none
  | .pump => none
  | .status => none
  | .engOpen _ _ => none

/-! ### Fast-packet frames (R75 to R77, R145, R146) -/

/-- The data of frame `f` of the fast packet of `payload` with sequence number `seq`: byte 0 is
`(seq << 5) | f`, then in frame 0 the length and payload bytes 0..5, in a later frame payload bytes
`6 + 7(f-1)` to `12 + 7(f-1)` (R75, R76). -/
def fastFrameData (seq : BitVec 3) (payload : List Byte) (f : Nat) : List Byte :=
  BitVec.ofNat 8 (seq.toNat * 32 + f) ::
    (if f = 0 then BitVec.ofNat 8 payload.length :: payload.take 6
     else (payload.drop (6 + 7 * (f - 1))).take 7)

/-- A frame padded to 8 bytes with 0xFF where `FP_PAD` says so (R77). -/
def padFrame (pad : FpPad) (data : List Byte) : List Byte :=
  match pad with
  | .unpadded => data
  | .padFF => data ++ List.replicate (8 - data.length) 0xFF

/-- `N(L) = ceil((L + 1) / 7)` (R145, C1). -/
def fastFrameCount (len : Nat) : Nat := (len + 7) / 7

/-- The data of all frames of a fast packet, in order (R145, R146). -/
def fastFrames (pad : FpPad) (seq : BitVec 3) (payload : List Byte) : List (List Byte) :=
  (List.range (fastFrameCount payload.length)).map fun f => padFrame pad (fastFrameData seq payload f)

/-- `es` is the log of one frame for each of `frames`, all under identifier `id`. -/
def LogOf (id : CanId) (frames : List (List Byte)) (es : List TxEntry) : Prop :=
  es.map (fun e => (e.id, e.data)) = frames.map fun d => (id, d)

end Sys2Proof.Machine
end

