-- ==== Sys2Proof/Certificates/Slice0/Obligations.lean ====
section
/-! DEFINITION. The statements for the provers: what the commands and the machine do, from the numbered rules of spec/. They prove nothing. -/

set_option Elab.async false

open Sys2Proof Sys2Proof.Machine

/-- ID_PGNOF returns the PGN of every identifier and changes nothing else. Formalises R90. -/
def Obligations.IdPgnofGivesThePgn : Prop :=
  ∀ (id : CanId) (s : State), ∃ p : Pgn,
    exec (.idPgnof id) s = .next (s.setResult (.pgn p)) ∧
    p.toNat = id.toNat / 2 ^ 24 % 2 * 2 ^ 16 + id.toNat / 2 ^ 16 % 256 * 2 ^ 8 +
      (if id.toNat / 2 ^ 16 % 256 < 240 then 0 else id.toNat / 2 ^ 8 % 256)

/-- ID_DECODE returns all four fields of every identifier and changes nothing else. Formalises R91. -/
def Obligations.IdDecodeGivesTheFields : Prop :=
  ∀ (id : CanId) (s : State), ∃ h : Header,
    exec (.idDecode id) s = .next (s.setResult (.header h)) ∧
    h.pgn.toNat = id.toNat / 2 ^ 24 % 2 * 2 ^ 16 + id.toNat / 2 ^ 16 % 256 * 2 ^ 8 +
      (if id.toNat / 2 ^ 16 % 256 < 240 then 0 else id.toNat / 2 ^ 8 % 256) ∧
    h.prio.toNat = id.toNat / 2 ^ 26 ∧
    h.src.toNat = id.toNat % 256 ∧
    h.dst.toNat = (if id.toNat / 2 ^ 16 % 256 < 240 then id.toNat / 2 ^ 8 % 256 else 255)

/-- ID_ENCODE builds the identifier, reports failure, and refuses a PGN of 2^17 or more. Formalises
R92, R89. -/
def Obligations.IdEncodeBuildsTheIdentifier : Prop :=
  ∀ (pgn : Pgn24) (prio : Prio) (src dst : Addr) (s : State),
    (2 ^ 17 ≤ pgn.toNat → exec (.idEncode pgn prio src dst) s = .refused .pgnTooWide) ∧
    (pgn.toNat < 2 ^ 17 → ∃ (id : CanId) (encFail : Bool),
      exec (.idEncode pgn prio src dst) s = .next (s.setResult (.ident id encFail)) ∧
      (if pgn.toNat / 2 ^ 8 % 256 < 240 ∧ pgn.toNat % 256 ≠ 0 then id = 0 ∧ encFail = true
       else encFail = false ∧
        id.toNat = prio.toNat * 2 ^ 26 + pgn.toNat * 2 ^ 8 +
          (if pgn.toNat / 2 ^ 8 % 256 < 240 then dst.toNat * 2 ^ 8 else 0) + src.toNat))

/-- Decoding an encoded identifier gives back its fields (PDU2: destination 0xFF). Formalises R94. -/
def Obligations.FieldsSurviveTheIdentifier : Prop :=
  ∀ (pgn : Pgn24) (prio : Prio) (src dst : Addr) (s : State) (id : CanId),
    exec (.idEncode pgn prio src dst) s = .next (s.setResult (.ident id false)) →
    ∃ h : Header, exec (.idDecode id) s = .next (s.setResult (.header h)) ∧
      h.pgn.toNat = pgn.toNat ∧ h.prio = prio ∧ h.src = src ∧
      h.dst = (if pgn.toNat / 2 ^ 8 % 256 < 240 then dst else 0xFF)

/-- Encoding the fields of a decoded identifier gives it back with bit 25 cleared. Formalises R95. -/
def Obligations.IdentifiersSurviveTheirFields : Prop :=
  ∀ (id : CanId) (s : State), ∃ h : Header,
    exec (.idDecode id) s = .next (s.setResult (.header h)) ∧
    exec (.idEncode (h.pgn.setWidth 24) h.prio h.src h.dst) s =
      .next (s.setResult (.ident (id &&& ~~~((1 : CanId) <<< 25)) false)) ∧
    (id &&& ~~~((1 : CanId) <<< 25) = id ↔ id.getLsbD 25 = false)

/-- ROUND is within one half of its argument and exact on integers. Formalises R99. -/
def Obligations.RoundIsWithinHalf : Prop :=
  (∀ x : Rat, |(roundRat x : Rat) - x| ≤ 1 / 2) ∧ (∀ n : Int, roundRat (n : Rat) = n)

/-- The six NUM_ENC commands round, clamp from above, refuse below the range, and emit NA_RAW for
NA_VALUE. Formalises R100, R101, R102, R105, R106, R107, R108, R109, R110. -/
def Obligations.NumEncodeCommands : Prop :=
  ∀ (k : NumKind) (value prec : NumOperand) (s : State),
    let v := numValue s.cfg value
    let p := numValue s.cfg prec
    let raw := roundRat (v / p)
    (v = s.cfg.naValue → exec (numEncInstr k value prec) s = .next (s.setResult (.raw (naPattern k)))) ∧
    (v ≠ s.cfg.naValue → p ≤ 0 → exec (numEncInstr k value prec) s = .refused .badPrecision) ∧
    (v ≠ s.cfg.naValue → 0 < p → raw < (fieldRow k).2.1 →
      exec (numEncInstr k value prec) s = .refused .belowRange) ∧
    (v ≠ s.cfg.naValue → 0 < p → (fieldRow k).2.1 ≤ raw → ∃ bytes : List Byte,
      exec (numEncInstr k value prec) s = .next (s.setResult (.raw bytes)) ∧
      bytes.length = (fieldRow k).1 ∧
      (leNat bytes : Int) = (if (fieldRow k).2.2 ≤ raw then (fieldRow k).2.2 - 1 else raw)
        % 2 ^ (8 * (fieldRow k).1))

/-- The six NUM_DEC commands return NA_VALUE for NA_RAW and else the signed or unsigned raw times
the precision. Formalises R104, R111, R112, R113, R114, R115, R116. -/
def Obligations.NumDecodeCommands : Prop :=
  ∀ (k : NumKind) (raw : Vector Byte (kindWidth k)) (prec : NumOperand) (s : State),
    let u : Int := leNat raw.toList
    let p := numValue s.cfg prec
    (u = (fieldRow k).2.2 →
      exec (numDecInstr k raw prec) s = .next (s.setResult (.value s.cfg.naValue))) ∧
    (u ≠ (fieldRow k).2.2 → p ≤ 0 → exec (numDecInstr k raw prec) s = .refused .badPrecision) ∧
    (u ≠ (fieldRow k).2.2 → 0 < p → exec (numDecInstr k raw prec) s = .next (s.setResult (.value
      ((if (fieldRow k).2.1 < 0 ∧ -(fieldRow k).2.1 ≤ u then u - 2 ^ (8 * (fieldRow k).1) else u : Int)
        * p))))

/-- Decoding an encoded value gives ROUND(value/prec)*prec, within half a precision; a clamped one
gives MAXV*prec. Formalises R117. -/
def Obligations.NumericRoundTrip : Prop :=
  ∀ (k : NumKind) (v p : Rat) (c : Config), 0 < p → v ≠ c.naValue →
    ((fieldRow k).2.1 ≤ roundRat (v / p) → roundRat (v / p) ≤ (fieldRow k).2.2 - 1 →
      ∃ bytes : List Byte, encodeNum k (.rat v) (.rat p) c = .ok bytes ∧
        decodeNum k bytes (.rat p) c = .ok (roundRat (v / p) * p) ∧
        |(roundRat (v / p) : Rat) * p - v| ≤ p / 2) ∧
    ((fieldRow k).2.2 - 1 < roundRat (v / p) →
      ∃ bytes : List Byte, encodeNum k (.rat v) (.rat p) c = .ok bytes ∧
        decodeNum k bytes (.rat p) c = .ok ((((fieldRow k).2.2 - 1 : Int) : Rat) * p))

/-- Transmit sends nothing for identifier 0; otherwise one log entry and one counter, by the
transport's answer. Rests on 20_memory.md rule R55, log entry 7. That the answer r is the next
one of the list sendIn is the model's choice (log entry 7); R55 only draws it. -/
def Obligations.TransmitOffersOneFrame : Prop :=
  ∀ (id : CanId) (bytes : List Byte) (s : State),
    (id = 0 → transmit id bytes s = s) ∧
    (id ≠ 0 → ∃ r : Bool,
      (transmit id bytes s).txLog = s.txLog ++ [{ id := id, data := bytes, ok := r }] ∧
      (transmit id bytes s).cnt =
        (if r then { s.cnt with tx := s.cnt.tx + 1 } else { s.cnt with txFail := s.cnt.txFail + 1 }) ∧
      SendsOnly s (transmit id bytes s) ∧ (transmit id bytes s).fr = s.fr ∧
      (∀ (a : Bool) (rest : List Bool), s.world.sendIn = a :: rest →
        r = a ∧ (transmit id bytes s).world.sendIn = rest))

/-- A start while a packet is in progress, and an output or finish while there is none, are refused.
Formalises R121. -/
def Obligations.MisuseIsRefused : Prop :=
  ∀ s : State,
    (s.fr.mode ≠ .idle → ∀ (pgn : Pgn24) (prio : Prio) (src dst : Addr) (total : Byte),
      exec (.frStart pgn prio src dst) s = .refused .packetInProgress ∧
      exec (.frStartFast pgn prio src dst total) s = .refused .packetInProgress) ∧
    (s.fr.mode = .idle →
      (∀ b : Byte, exec (.frOutByte b) s = .refused .noPacket) ∧
      (∀ v : BitVec 16, exec (.frOutRaw16 v) s = .refused .noPacket) ∧
      (∀ v : BitVec 24, exec (.frOutRaw24 v) s = .refused .noPacket) ∧
      (∀ v : BitVec 32, exec (.frOutRaw32 v) s = .refused .noPacket) ∧
      (∀ (str : List Byte) (maxLen pad : Byte),
        exec (.frOutFixstr str maxLen pad) s = .refused .noPacket) ∧
      (∀ str : List Byte, exec (.frOutVarstr str) s = .refused .noPacket) ∧
      (∀ (k : NumKind) (value prec : NumOperand),
        exec (outNumInstr k value prec) s = .refused .noPacket) ∧
      exec .frFinish s = .refused .noPacket ∧ exec .frFinishFast s = .refused .noPacket)

/-- FR_START computes the identifier as ID_ENCODE does, clears the offset and enters SINGLE; nothing
else changes. Formalises R128, R122. -/
def Obligations.FrStartBeginsASinglePacket : Prop :=
  ∀ (pgn : Pgn24) (prio : Prio) (src dst : Addr) (s : State),
    (s.fr.mode ≠ .idle → exec (.frStart pgn prio src dst) s = .refused .packetInProgress) ∧
    (s.fr.mode = .idle → 2 ^ 17 ≤ pgn.toNat →
      exec (.frStart pgn prio src dst) s = .refused .pgnTooWide) ∧
    (s.fr.mode = .idle → pgn.toNat < 2 ^ 17 → ∃ (id : CanId) (encFail : Bool),
      exec (.idEncode pgn prio src dst) s = .next (s.setResult (.ident id encFail)) ∧
      (encFail = true → id = 0 ∧ ∀ (bytes : List Byte) (t : State), transmit id bytes t = t) ∧
      exec (.frStart pgn prio src dst) s =
        .next ((s.setFr { s.fr with id := id, off := 0, mode := .single }).setResult .none))

/-- FR_START_FAST advances the sequence number, writes frame 0's header and enters FAST; nothing
else changes. Formalises R129. -/
def Obligations.FrStartFastBeginsAFastPacket : Prop :=
  ∀ (pgn : Pgn24) (prio : Prio) (src dst : Addr) (total : Byte) (s : State),
    (s.fr.mode ≠ .idle → exec (.frStartFast pgn prio src dst total) s = .refused .packetInProgress) ∧
    (s.fr.mode = .idle → 223 < total.toNat →
      exec (.frStartFast pgn prio src dst total) s = .refused .fastTooLong) ∧
    (s.fr.mode = .idle → total.toNat ≤ 223 → 2 ^ 17 ≤ pgn.toNat →
      exec (.frStartFast pgn prio src dst total) s = .refused .pgnTooWide) ∧
    (s.fr.mode = .idle → total.toNat ≤ 223 → pgn.toNat < 2 ^ 17 →
      ∃ (id : CanId) (encFail : Bool) (seq : BitVec 3),
      exec (.idEncode pgn prio src dst) s = .next (s.setResult (.ident id encFail)) ∧
      seq.toNat = (s.fr.seq.toNat + 1) % 8 ∧
      exec (.frStartFast pgn prio src dst total) s =
        .next ((s.setFr
          { mode := .fast, id := id, seq := seq
            buf := (s.fr.buf.set 0 (BitVec.ofNat 8 (seq.toNat * 32))).set 1 total
            off := 2, fidx := 1, total := total, written := 0 }).setResult .none))

/-- FR_OUT_BYTE appends, drops and counts, or flushes exactly as AppendByte and Flush say.
Formalises R131, R123, R124. -/
def Obligations.FrOutByteAppends : Prop :=
  ∀ (b : Byte) (s : State),
    (s.fr.mode = .idle → exec (.frOutByte b) s = .refused .noPacket) ∧
    (s.fr.mode = .single → s.fr.off = 8 → exec (.frOutByte b) s =
      .next ((s.setCnt { s.cnt with frameErr := s.cnt.frameErr + 1 }).setResult .none)) ∧
    (s.fr.mode = .single → ∀ h : s.fr.off.toNat < 8, exec (.frOutByte b) s =
      .next ((s.setFr { s.fr with buf := s.fr.buf.set s.fr.off.toNat b h, off := s.fr.off + 1 }).setResult
        .none)) ∧
    (s.fr.mode = .fast → s.fr.written = s.fr.total →
      exec (.frOutByte b) s = .refused .fastOverrun) ∧
    (s.fr.mode = .fast → s.fr.written ≠ s.fr.total → ∀ h : s.fr.off.toNat < 7,
      exec (.frOutByte b) s = .next ((s.setFr
        { s.fr with
          buf := s.fr.buf.set s.fr.off.toNat b, off := s.fr.off + 1
          written := s.fr.written + 1 }).setResult .none)) ∧
    (s.fr.mode = .fast → s.fr.written ≠ s.fr.total → s.fr.off = 7 →
      exec (.frOutByte b) s = .next (((transmit s.fr.id (s.fr.buf.set 7 b).toList s).setFr
        { s.fr with
          buf := (s.fr.buf.set 7 b).set 0 (s.fr.seq.setWidth 8 <<< 5 ||| s.fr.fidx.setWidth 8)
          off := 1, fidx := s.fr.fidx + 1, written := s.fr.written + 1 }).setResult .none))

/-- Every output command is the FR_OUT_BYTE appends of its bytes, in order, with its own refusals
first. Formalises R132, R133, R134, R135, R136, R137, R138, R139, R140, R141, R142. -/
def Obligations.OutputCommandsAreByteAppends : Prop :=
  ∀ s : State,
    (∀ (i : Instr) (bytes : List Byte), outputBytes s.cfg i = some bytes →
      exec i s = if s.fr.mode = .idle then .refused .noPacket
        else execAll (bytes.map .frOutByte) (s.setResult .none)) ∧
    (∀ str : List Byte, 255 < textLength str + 2 →
      exec (.frOutVarstr str) s =
        if s.fr.mode = .idle then .refused .noPacket else .refused .stringTooLong) ∧
    (∀ (k : NumKind) (value prec : NumOperand) (e : Refusal), encodeNum k value prec s.cfg = .error e →
      exec (outNumInstr k value prec) s =
        if s.fr.mode = .idle then .refused .noPacket else .refused e)

/-- In SINGLE mode every output command completes: the first bytes that fit are kept, the rest
dropped and counted. Formalises R125. -/
def Obligations.OutputsCompleteInSingleMode : Prop :=
  ∀ (i : Instr) (bytes : List Byte) (s : State), outputBytes s.cfg i = some bytes →
    s.fr.mode = .single → s.fr.off.toNat ≤ 8 → ∃ t : State, exec i s = .next t ∧
      bufFront t.fr.off.toNat t.fr.buf = (bufFront s.fr.off.toNat s.fr.buf ++ bytes).take 8 ∧
      t.fr.off.toNat = min 8 (s.fr.off.toNat + bytes.length) ∧
      t.cnt = { s.cnt with
        frameErr := s.cnt.frameErr + BitVec.ofNat 32 (s.fr.off.toNat + bytes.length - 8) } ∧
      t = ((s.setFr { s.fr with buf := t.fr.buf, off := t.fr.off }).setCnt t.cnt).setResult .none

/-- In FAST mode every output command whose bytes fit the declared total completes and flushes each
full frame. Rests on 43_packet_framer.md rules R123, R124, R126, R131 to R142, 10_state.md rule
R36. -/
def Obligations.OutputsCompleteInFastMode : Prop :=
  ∀ (i : Instr) (bytes : List Byte) (s : State), outputBytes s.cfg i = some bytes →
    s.fr.mode = .fast → s.fr.Inv → s.fr.written.toNat + bytes.length ≤ s.fr.total.toNat →
    ∃ (t : State) (es : List TxEntry), exec i s = .next t ∧ t.fr.Inv ∧
      t.fr.mode = .fast ∧ t.fr.id = s.fr.id ∧ t.fr.seq = s.fr.seq ∧ t.fr.total = s.fr.total ∧
      t.fr.written.toNat = s.fr.written.toNat + bytes.length ∧
      t.txLog = s.txLog ++ es ∧
      es.length = (if s.fr.id = 0 then 0 else t.fr.fidx.toNat - s.fr.fidx.toNat) ∧
      (∀ e ∈ es, e.id = s.fr.id ∧ e.data.length = 8) ∧ t.cnt = s.cnt.afterSends es ∧
      SendsOnly (s.setResult .none) t

/-- FR_FINISH offers the buffer of a non-empty single packet and returns to IDLE; in FAST it only
counts. Formalises R143. -/
def Obligations.FrFinishEndsASinglePacket : Prop :=
  ∀ s : State,
    (s.fr.mode = .idle → exec .frFinish s = .refused .noPacket) ∧
    (s.fr.mode = .fast → exec .frFinish s =
      .next ((s.setCnt { s.cnt with packetErr := s.cnt.packetErr + 1 }).setResult .none)) ∧
    (s.fr.mode = .single → ∃ f : Framer, f.mode = .idle ∧ f.seq = s.fr.seq ∧
      (s.fr.off = 0 → exec .frFinish s = .next ((s.setFr f).setResult .none)) ∧
      (s.fr.off ≠ 0 → exec .frFinish s =
        .next (((transmit s.fr.id (s.fr.buf.toList.take s.fr.off.toNat) s).setFr f).setResult .none)))

/-- FR_FINISH_FAST offers the residual frame of a complete fast packet and returns to IDLE; in
SINGLE it only counts. Formalises R144. -/
def Obligations.FrFinishFastEndsAFastPacket : Prop :=
  ∀ s : State,
    (s.fr.mode = .idle → exec .frFinishFast s = .refused .noPacket) ∧
    (s.fr.mode = .single → exec .frFinishFast s =
      .next ((s.setCnt { s.cnt with packetErr := s.cnt.packetErr + 1 }).setResult .none)) ∧
    (s.fr.mode = .fast → s.fr.written.toNat < s.fr.total.toNat →
      exec .frFinishFast s = .refused .fastUnderrun) ∧
    (s.fr.mode = .fast → s.fr.total.toNat ≤ s.fr.written.toNat →
      ∃ f : Framer, f.mode = .idle ∧ f.seq = s.fr.seq ∧
      (s.fr.off.toNat ≤ 1 → exec .frFinishFast s = .next ((s.setFr f).setResult .none)) ∧
      (1 < s.fr.off.toNat → exec .frFinishFast s = .next (((transmit s.fr.id
        (match s.cfg.fpPad with
          | .unpadded => s.fr.buf.toList.take s.fr.off.toNat
          | .padFF => s.fr.buf.toList.take s.fr.off.toNat ++
              List.replicate (8 - s.fr.off.toNat) 0xFF) s).setFr f).setResult .none)))

/-- A fast packet of L bytes offers exactly ceil((L+1)/7) frames, with every header and payload byte
in its place. Formalises R145, R146. -/
def Obligations.FastPacketFrames : Prop :=
  ∀ (pgn : Pgn24) (prio : Prio) (src dst : Addr) (payload : List Byte) (s : State) (id : CanId)
    (encFail : Bool), s.fr.mode = .idle → payload.length ≤ 223 →
    exec (.idEncode pgn prio src dst) s = .next (s.setResult (.ident id encFail)) →
    ∃ (t : State) (es : List TxEntry),
      execAll (.frStartFast pgn prio src dst (BitVec.ofNat 8 payload.length) ::
        (payload.map .frOutByte ++ [.frFinishFast])) s = .next t ∧
      t.fr.mode = .idle ∧ t.fr.seq = s.fr.seq + 1 ∧ t.txLog = s.txLog ++ es ∧
      es.length = (if id = 0 then 0 else fastFrameCount payload.length) ∧
      LogOf id (if id = 0 then [] else fastFrames s.cfg.fpPad (s.fr.seq + 1) payload) es ∧
      t.cnt = s.cnt.afterSends es ∧ SendsOnly (s.setResult .none) t

/-- A single packet of m bytes offers one frame of its first 8 bytes, or none when m = 0, and counts
the overflow. Formalises R148. -/
def Obligations.SinglePacketFrame : Prop :=
  ∀ (pgn : Pgn24) (prio : Prio) (src dst : Addr) (bytes : List Byte) (s : State) (id : CanId)
    (encFail : Bool), s.fr.mode = .idle →
    exec (.idEncode pgn prio src dst) s = .next (s.setResult (.ident id encFail)) →
    ∃ (t : State) (es : List TxEntry),
      execAll (.frStart pgn prio src dst :: (bytes.map .frOutByte ++ [.frFinish])) s = .next t ∧
      t.fr.mode = .idle ∧ t.txLog = s.txLog ++ es ∧
      LogOf id (if id = 0 ∨ bytes = [] then [] else [bytes.take 8]) es ∧
      t.fr.seq = s.fr.seq ∧
      t.cnt = { s.cnt.afterSends es with
        frameErr := s.cnt.frameErr + BitVec.ofNat 32 (bytes.length - 8) } ∧
      SendsOnly (s.setResult .none) t

/-- FR_SEQ changes only in FR_START_FAST, where it advances by one modulo 8. Rests on 10_state.md
rule R33, 43_packet_framer.md rule R147. -/
def Obligations.SequenceNumberPersists : Prop :=
  ∀ (i : Instr) (s t : State), exec i s = .next t →
    match i with
    | .frStartFast _ _ _ _ _ => t.fr.seq.toNat = (s.fr.seq.toNat + 1) % 8
    | .isoRxRequest _ => True
    | .pump => True
    | _ => t.fr.seq = s.fr.seq

/-- AC_CLAIM from IDLE offers one claim frame with the NAME and starts the claim timer. Formalises
R149, R150. -/
def Obligations.AcClaimSendsTheClaim : Prop :=
  ∀ s : State,
    (s.fr.mode ≠ .idle → exec .acClaim s = .refused .packetInProgress) ∧
    (s.fr.mode = .idle → ∃ (t : State) (id : CanId) (r : Bool), exec .acClaim s = .next t ∧
      id.toNat = s.cfg.claimPrio.toNat * 2 ^ 26 + 0x00EEFF00 + s.devAddr.toNat ∧
      t.txLog = s.txLog ++
        [{ id := id, ok := r
           data := (List.range 8).map fun j => s.name.extractLsb' (8 * j) 8 }] ∧
      t.cnt =
        (if r then { s.cnt with tx := s.cnt.tx + 1 } else { s.cnt with txFail := s.cnt.txFail + 1 }) ∧
      t.claimT = now s ∧ t.claimedOnce = true ∧
      t.fr.mode = .idle ∧ t.fr.seq = s.fr.seq ∧
      SendsOnly (((s.setClaimT (now s)).setClaimedOnce true).setResult .none) t)

/-- AC_POLL clears a claim older than 250 ms and answers whether none is pending; nothing else
changes. Formalises R151. -/
def Obligations.AcPollExpiresTheWindow : Prop :=
  ∀ s : State,
    let left : Millis :=
      if s.claimT ≠ 0 ∧ 250 < ((now s).toNat + (2 ^ 32 - s.claimT.toNat)) % 2 ^ 32 then 0 else s.claimT
    exec .acPoll s = .next ((s.setClaimT left).setResult (.claimed (decide (left = 0))))

/-- After AC_CLAIM at t0, AC_POLL answers false up to 250 ms later and true from then on until the
next AC_CLAIM; between claims only the poll writes CLAIM_T. Rests on 44_address_claim.md rules
R150, R151, R152, R158, 45_iso_dispatcher.md rule R168, 10_state.md rules R27, R28,
70_reset_and_hazards.md rule R220, log entry 6. The unwrapped clock is the model's (log entry
6). -/
def Obligations.ClaimWindowLaw : Prop :=
  (∀ (s t : State), exec .acClaim s = .next t → now s ≠ 0 → ∀ w : State,
    (w.claimT = t.claimT →
      (∀ time : Millis, (time - now s).toNat ≤ 250 →
        ∃ u : State, exec .acPoll (sampleClock (some time) w) = .next u ∧
          u.result = .claimed false ∧ u.claimT = t.claimT) ∧
      (∀ time : Millis, 250 < (time - now s).toNat →
        ∃ u : State, exec .acPoll (sampleClock (some time) w) = .next u ∧
          u.result = .claimed true ∧ u.claimT = 0)) ∧
    (w.claimT = 0 → ∃ u : State, exec .acPoll w = .next u ∧
      u.result = .claimed true ∧ u.claimT = 0)) ∧
  (∀ (i : Instr) (s t : State), exec i s = .next t →
    let kept := t.claimT = s.claimT ∧ t.claimedOnce = s.claimedOnce
    let expired := t.claimT = 0 ∧ t.claimedOnce = s.claimedOnce ∧ 250 < (now s - s.claimT).toNat
    let claimed := t.claimT = now s ∧ t.claimedOnce = true
    match i with
    | .acClaim => claimed
    | .acPoll => kept ∨ expired
    | .acRxClaim _ => kept ∨ claimed
    | .isoRxRequest _ => kept ∨ expired ∨ claimed
    | .pump => True
    | _ => kept) ∧
  (∀ (s t : State), s.Inv → (∀ (c : Config) (items : List HostItem),
      s.world.port ≠ .powerUp c :: items) → step s = .next t →
    ∃ es : List TxEntry, t.txLog = s.txLog ++ es ∧
      ((t.claimedOnce = s.claimedOnce ∧ (t.claimT = s.claimT ∨ t.claimT = 0 ∧ ∃ time : Nat,
          s.world.clock ≤ time ∧ time ≤ t.world.clock ∧
          250 < (BitVec.ofNat 32 time - s.claimT).toNat)) ∨
        (t.claimedOnce = true ∧ (∃ e ∈ es, pgnOf e.id = 60928) ∧
          (t.claimT = 0 ∨ ∃ time : Nat, s.world.clock ≤ time ∧ time ≤ t.world.clock ∧
            t.claimT = BitVec.ofNat 32 time))))

/-- A claim from 254 or another address causes no action; each missing NAME byte of a short claim is
a free draw. Rests on 44_address_claim.md rules R152, R153, 93_implementation_defined.md U19,
log entry 7. The draws counter is the model's choice (log entry 7); a statement about a free
value holds for every value it may have. -/
def Obligations.AcRxClaimFilters : Prop :=
  ∀ (f : Frame) (s : State),
    let src := (decodeId f.id).src
    let missing := (List.range (8 - f.len)).map fun j => Config.freeByte (s.world.draws + j)
    (src = 254 ∨ src ≠ s.devAddr → exec (.acRxClaim f) s = .next (s.setResult .none)) ∧
    (src = s.devAddr → src ≠ 254 → f.len < 8 →
      exec (.acRxClaim f) s = exec (.acRxClaim { f with data := f.data ++ missing })
        (s.setWorld { s.world with draws := s.world.draws + (8 - f.len) }) ∧
      (s.fr.mode = .idle → s.devAddr ≠ 251 → ∃ t : State, exec (.acRxClaim f) s = .next t ∧
        t.claimT = now s))

/-- The three branches of the arbitration: tie-break, yield, stand; each re-claims, and a yield from
251 is refused. Formalises R154, R155, R156, R157. -/
def Obligations.AcRxClaimArbitrates : Prop :=
  ∀ (f : Frame) (s : State), f.len = 8 → (decodeId f.id).src = s.devAddr → s.devAddr ≠ 254 →
    (leNat f.data = s.name.toNat → ∃ n : NameWord,
      n.extractLsb' 32 8 = (now s).extractLsb' 0 8 &&& 0x7F ∧
      n.extractLsb' 0 32 = s.name.extractLsb' 0 32 ∧ n.extractLsb' 40 24 = s.name.extractLsb' 40 24 ∧
      exec (.acRxClaim f) s = exec .acClaim (s.setName n)) ∧
    (leNat f.data < s.name.toNat → s.devAddr = 251 →
      exec (.acRxClaim f) s = .refused .addressExhausted) ∧
    (leNat f.data < s.name.toNat → s.devAddr ≠ 251 →
      exec (.acRxClaim f) s = exec .acClaim (s.setDevAddr (s.devAddr + 1))) ∧
    (s.name.toNat < leNat f.data → exec (.acRxClaim f) s = exec .acClaim s) ∧
    (s.name.toNat ≤ leNat f.data ∨ s.devAddr ≠ 251 →
      (s.fr.mode = .idle → ∃ t : State, exec (.acRxClaim f) s = .next t ∧ t.claimT = now s) ∧
      (s.fr.mode ≠ .idle → exec (.acRxClaim f) s = .refused .packetInProgress))

/-- An ISO Request of a wrong length or for another device changes nothing, the claim timer
included. Rests on 45_iso_dispatcher.md rules R167, R168, 60_exceptions.md rule R189 E6, E7. -/
def Obligations.IsoRequestFailsItsChecks : Prop :=
  ∀ (f : Frame) (s : State),
    (f.len < 3 ∨ 8 < f.len ∨
      ((decodeId f.id).dst ≠ 0xFF ∧ (decodeId f.id).dst ≠ s.devAddr)) →
    exec (.isoRxRequest f) s = .next (s.setResult .none)

/-- While a claim is pending ISO_RX_REQUEST sends nothing and changes no state. Formalises R173. -/
def Obligations.SilenceWhilePending : Prop :=
  ∀ (f : Frame) (s : State), s.claimT ≠ 0 → (now s - s.claimT).toNat ≤ 250 →
    exec (.isoRxRequest f) s = .next (s.setResult .none)

/-- A request for 60928 that passes the checks is answered by AC_CLAIM. Rests on
45_iso_dispatcher.md rules R167, R169, R170, 43_packet_framer.md rule R121, 92_eei_decisions.md
D57. -/
def Obligations.IsoRequestForTheClaim : Prop :=
  ∀ (f : Frame) (s : State), 3 ≤ f.len → f.len ≤ 8 →
    ((decodeId f.id).dst = 0xFF ∨ (decodeId f.id).dst = s.devAddr) →
    (s.claimT = 0 ∨ 250 < (now s - s.claimT).toNat) → leNat (f.data.take 3) = 60928 →
    exec (.isoRxRequest f) s = exec .acClaim (s.setClaimT 0) ∧
    (s.fr.mode = .idle → ∃ t : State, exec (.isoRxRequest f) s = .next t ∧ t.claimT = now s) ∧
    (s.fr.mode ≠ .idle → exec (.isoRxRequest f) s = .refused .packetInProgress)

/-- A request for an unknown PGN with no handler installed gets one NAK to the requester. Rests on
45_iso_dispatcher.md rules R165, R167, R170, R174, 43_packet_framer.md rule R121, 30_encoding.md
rule R88, 92_eei_decisions.md D63, log entry 12. The default tail, for a PGN that the
configuration does not list, is FF FF FF and the requested PGN, least significant byte first:
presumed (log entry 12). -/
def Obligations.UnknownRequestGetsANak : Prop :=
  ∀ (f : Frame) (s : State), s.cfg.hasIsoHandler = false → 3 ≤ f.len → f.len ≤ 8 →
    ((decodeId f.id).dst = 0xFF ∨ (decodeId f.id).dst = s.devAddr) →
    (s.claimT = 0 ∨ 250 < (now s - s.claimT).toNat) →
    leNat (f.data.take 3) ∉ [60928, 126464, 126996, 126998] →
    let tail := match s.cfg.ackTail.lookup (BitVec.ofNat 24 (leNat (f.data.take 3))) with
      | some six => six.toList
      | none => 0xFF :: 0xFF :: 0xFF :: f.data.take 3
    (s.fr.mode ≠ .idle → exec (.isoRxRequest f) s = .refused .packetInProgress) ∧
    (s.fr.mode = .idle → ∃ (t : State) (id : CanId) (r : Bool), exec (.isoRxRequest f) s = .next t ∧
      id.toNat = s.cfg.respPrio.toNat * 2 ^ 26 + 0x00E80000 +
        (decodeId f.id).src.toNat * 256 + s.devAddr.toNat ∧
      tail = ackTail s.cfg (BitVec.ofNat 24 (leNat (f.data.take 3))) ∧ tail.length = 6 ∧
      t.txLog = s.txLog ++ [{ id := id, data := 0x01 :: 0xFF :: tail, ok := r }] ∧
      t.fr.mode = .idle ∧ t.fr.seq = s.fr.seq ∧
      t.cnt = s.cnt.afterSends [{ id := id, data := 0x01 :: 0xFF :: tail, ok := r }] ∧
      SendsOnly ((s.setClaimT 0).setResult .none) t)

/-- A request for an unknown PGN with a handler installed suspends the command, ISO_RX_REQUEST or
PUMP, in the handler's host step. Rests on 45_iso_dispatcher.md rules R166, R167,
46_message_pump.md rules R178, R179, 92_eei_decisions.md D44, log entries 5, 6 and 7. How the
suspended command stands in State (log entry 5), that a PUMP's first frame uses the sample taken
at its start (log entry 6), and the list of polls (log entry 7) are the model's choice. -/
def Obligations.UnknownRequestGoesToTheHandler : Prop :=
  ∀ (f : Frame) (s : State), s.cfg.hasIsoHandler = true → 3 ≤ f.len → f.len ≤ 8 →
    ((decodeId f.id).dst = 0xFF ∨ (decodeId f.id).dst = s.devAddr) →
    (s.claimT = 0 ∨ 250 < (now s - s.claimT).toNat) →
    leNat (f.data.take 3) ∉ [60928, 126464, 126996, 126998] →
    let call := fun pumpLeft : Option Nat =>
      Callback.isoHandler (BitVec.ofNat 24 (leNat (f.data.take 3))) (decodeId f.id) f.data pumpLeft
    exec (.isoRxRequest f) s =
      .next (((s.setClaimT 0).setCalls (call none :: s.calls)).setResult .none) ∧
    (∀ rest : List (Option Frame), s.world.recvIn = some f :: rest → pgnOf f.id = 59904 →
      inList (pgnOf f.id) s.cfg.rxList = true →
      exec .pump s = .next (((((s.setWorld { s.world with recvIn := rest }).setCnt
        { s.cnt with rx := s.cnt.rx + 1 }).setClaimT 0).setCalls
          (call (some 19) :: s.calls)).setResult .none))

/-- A request for 126464 sends the receive list and then the transmit list as two fast packets, or
is refused when one is too long. Rests on 45_iso_dispatcher.md rules R161, R162, R167, R169,
R170, 43_packet_framer.md rule R121, 30_encoding.md rule R85. -/
def Obligations.PgnListRequestSendsBothLists : Prop :=
  ∀ (f : Frame) (s : State), 3 ≤ f.len → f.len ≤ 8 →
    ((decodeId f.id).dst = 0xFF ∨ (decodeId f.id).dst = s.devAddr) →
    (s.claimT = 0 ∨ 250 < (now s - s.claimT).toNat) → leNat (f.data.take 3) = 126464 →
    let entries := fun list : List Pgn24 => list.flatMap fun p =>
      [p.extractLsb' 0 8, p.extractLsb' 8 8, p.extractLsb' 16 8]
    (s.fr.mode = .idle → s.cfg.rxList.length ≤ 74 → s.cfg.txList.length ≤ 74 →
      ∃ (t : State) (id : CanId) (es0 es1 : List TxEntry), exec (.isoRxRequest f) s = .next t ∧
        id.toNat = s.cfg.respPrio.toNat * 2 ^ 26 + 0x01EE0000 +
          (decodeId f.id).src.toNat * 256 + s.devAddr.toNat ∧
        t.txLog = s.txLog ++ es0 ++ es1 ∧
        LogOf id (fastFrames s.cfg.fpPad (s.fr.seq + 1) (0 :: entries s.cfg.rxList)) es0 ∧
        LogOf id (fastFrames s.cfg.fpPad (s.fr.seq + 2) (1 :: entries s.cfg.txList)) es1 ∧
        t.fr.mode = .idle ∧ t.fr.seq = s.fr.seq + 2 ∧ t.cnt = s.cnt.afterSends (es0 ++ es1) ∧
        SendsOnly ((s.setClaimT 0).setResult .none) t) ∧
    (75 ≤ s.cfg.rxList.length ∨ s.fr.mode = .idle ∧ 75 ≤ s.cfg.txList.length →
      exec (.isoRxRequest f) s = .refused .listTooLong) ∧
    (s.fr.mode ≠ .idle → s.cfg.rxList.length ≤ 74 →
      exec (.isoRxRequest f) s = .refused .packetInProgress)

/-- A request for 126996 sends the 134-byte Product Information as twenty frames. Rests on
45_iso_dispatcher.md rules R161, R163, R167, R170, 43_packet_framer.md rule R121, 30_encoding.md
rule R86. -/
def Obligations.ProductInfoRequestSendsTwentyFrames : Prop :=
  ∀ (f : Frame) (s : State), 3 ≤ f.len → f.len ≤ 8 →
    ((decodeId f.id).dst = 0xFF ∨ (decodeId f.id).dst = s.devAddr) →
    (s.claimT = 0 ∨ 250 < (now s - s.claimT).toNat) → leNat (f.data.take 3) = 126996 →
    let p := s.cfg.productInfo
    (s.fr.mode ≠ .idle → exec (.isoRxRequest f) s = .refused .packetInProgress) ∧
    (s.fr.mode = .idle →
      ∃ (t : State) (id : CanId) (es : List TxEntry), exec (.isoRxRequest f) s = .next t ∧
        id.toNat = s.cfg.respPrio.toNat * 2 ^ 26 + 0x01F01400 + s.devAddr.toNat ∧
        t.txLog = s.txLog ++ es ∧ es.length = 20 ∧
        LogOf id (fastFrames s.cfg.fpPad (s.fr.seq + 1)
          ([p.version.extractLsb' 0 8, p.version.extractLsb' 8 8,
            p.productCode.extractLsb' 0 8, p.productCode.extractLsb' 8 8] ++
            textField p.modelId 32 0xFF ++ textField p.softwareVersion 32 0xFF ++
            textField p.modelVersion 32 0xFF ++ textField p.serialNumber 32 0xFF ++
            [p.certificationLevel, p.loadEquivalency])) es ∧
        t.fr.mode = .idle ∧ t.fr.seq = s.fr.seq + 1 ∧ t.cnt = s.cnt.afterSends es ∧
        SendsOnly ((s.setClaimT 0).setResult .none) t)

/-- A request for 126998 sends the three configuration texts as one fast packet, or is refused when
they are too long. Rests on 45_iso_dispatcher.md rules R161, R164, R167, R170,
43_packet_framer.md rule R121, 30_encoding.md rules R81, R87. -/
def Obligations.ConfigInfoRequestSendsThreeTexts : Prop :=
  ∀ (f : Frame) (s : State), 3 ≤ f.len → f.len ≤ 8 →
    ((decodeId f.id).dst = 0xFF ∨ (decodeId f.id).dst = s.devAddr) →
    (s.claimT = 0 ∨ 250 < (now s - s.claimT).toNat) → leNat (f.data.take 3) = 126998 →
    let c := s.cfg.configInfo
    let total := textLength c.manufacturerInfo + 2 + (textLength c.installDescription1 + 2) +
      (textLength c.installDescription2 + 2)
    (s.fr.mode = .idle → total ≤ 223 →
      ∃ (t : State) (id : CanId) (es : List TxEntry), exec (.isoRxRequest f) s = .next t ∧
        id.toNat = s.cfg.respPrio.toNat * 2 ^ 26 + 0x01F01600 + s.devAddr.toNat ∧
        t.txLog = s.txLog ++ es ∧
        LogOf id (fastFrames s.cfg.fpPad (s.fr.seq + 1) (varTextField c.manufacturerInfo ++
          varTextField c.installDescription1 ++ varTextField c.installDescription2)) es ∧
        t.fr.mode = .idle ∧ t.fr.seq = s.fr.seq + 1 ∧ t.cnt = s.cnt.afterSends es ∧
        SendsOnly ((s.setClaimT 0).setResult .none) t) ∧
    (223 < total → exec (.isoRxRequest f) s = .refused .listTooLong) ∧
    (s.fr.mode ≠ .idle → total ≤ 223 → exec (.isoRxRequest f) s = .refused .packetInProgress)

/-- ISO_RX_ACK completes and changes nothing but the result port. Formalises R171. -/
def Obligations.IsoRxAckDoesNothing : Prop :=
  ∀ (f : Frame) (s : State), exec (.isoRxAck f) s = .next (s.setResult .none)

/-- The return of an application callback ends its command or goes on with its PUMP, after a NAK
where an ISO handler answers false. Rests on 45_iso_dispatcher.md rules R166, R170, R174,
46_message_pump.md rules R176 to R182, R187, 43_packet_framer.md rule R121, 10_state.md rule
R44, log entries 5, 6, 7, 8, 20 and 34. How calls stand in State (log entry 5), the form of a
clock sample (log entry 6), the list of polls (log entry 7), the answer that comes with the
return (log entry 8), the result port that waits for the end (log entry 20) and the refusal of a
stray return (log entry 34) are the model's choice. -/
def Obligations.CallbackReturnResumes : Prop :=
  (∀ (c : Callback) (rest : List Callback) (s : State) (items : List HostItem) (handled : Bool),
    s.refused = false → s.calls = c :: rest → s.world.port = .callbackReturn handled :: items →
    let u := (s.setWorld { s.world with port := items }).setCalls rest
    (c.nakDue handled = none → ResumesPump s c.pollsLeft u) ∧
    (∀ (req : Pgn24) (dst : Addr), c.nakDue handled = some (req, dst) →
      (s.fr.mode ≠ .idle → step s = .refused .packetInProgress) ∧
      (s.fr.mode = .idle → ∃ (m : State) (id : CanId) (r : Bool),
        id.toNat = s.cfg.respPrio.toNat * 2 ^ 26 + 0x00E80000 + dst.toNat * 256 + s.devAddr.toNat ∧
        m.txLog = s.txLog ++
          [{ id := id, data := 0x01 :: 0xFF :: ackTail s.cfg req, ok := r }] ∧
        m.fr.mode = .idle ∧ m.fr.seq = s.fr.seq ∧ m.cnt = s.cnt.afterSends
          [{ id := id, data := 0x01 :: 0xFF :: ackTail s.cfg req, ok := r }] ∧
        SendsOnly u m ∧ ResumesPump s c.pollsLeft m))) ∧
  (∀ (w : State) (items : List HostItem) (handled : Bool), w.refused = false → w.calls = [] →
    w.world.port = .callbackReturn handled :: items → step w = .refused .strayReturn)

/-- PUMP with an empty first poll completes and changes nothing else. Rests on 46_message_pump.md
rules R176, R181, 10_state.md rule R44, log entries 6 and 7. R176 samples the clock for each
frame; that the first frame uses the sample taken at the command's start, so that the clock
stays, is the model's reading (log entry 6), and the list of polls its choice (log entry 7). -/
def Obligations.PumpStopsAtAnEmptyPoll : Prop :=
  ∀ (s : State) (rest : List (Option Frame)), s.world.recvIn = none :: rest →
    exec .pump s = .next ((s.setWorld { s.world with recvIn := rest }).setResult .none)

/-- PUMP counts a frame whose PGN is not in RX_LIST as dropped, does nothing else with it, and goes
on with its nineteen further polls. Rests on 46_message_pump.md rules R176, R177, R181, R182,
10_state.md rule R44, log entries 5, 6, 7 and 20. The form of a clock sample, that the first
frame uses the sample taken at PUMP's start (log entry 6), the lists of answers (log entry 7),
how calls stand in State (log entry 5) and the result port that waits for PUMP's end (log entry
20) are the model's choice. -/
def Obligations.PumpDropsAnUnlistedFrame : Prop :=
  ∀ (s : State) (f : Frame) (rest : List (Option Frame)),
    s.world.recvIn = some f :: rest → inList (pgnOf f.id) s.cfg.rxList = false →
    PumpGoesOn (exec .pump s) 19 ((s.setWorld { s.world with recvIn := rest }).setCnt
      { s.cnt with drop := s.cnt.drop + 1 }) ∧
    (∀ later : List (Option Frame), rest = none :: later → ∃ t : State, exec .pump s = .next t ∧
      t = ((s.setCnt { s.cnt with drop := s.cnt.drop + 1 }).setResult .none).setWorld t.world ∧
      t.world = { s.world with
        recvIn := later, clock := t.world.clock, clockIn := t.world.clockIn, draws := t.world.draws })

/-- PUMP counts a kept service frame, does with it what the routed command does, and goes on with
its nineteen further polls. Rests on 46_message_pump.md rules R176, R178, R179, R181, R182,
10_state.md rule R44, 60_exceptions.md rule R191, log entries 5, 6, 7 and 20. That the routed
command runs at the sample taken at PUMP's start is the model's reading (log entry 6), and the
form of a clock sample (log entry 6), the lists of answers (log entry 7), how calls stand in
State (log entry 5) and the result port that waits for PUMP's end (log entry 20) are its choice. -/
def Obligations.PumpRoutesByPgn : Prop :=
  ∀ (s : State) (f : Frame) (rest : List (Option Frame)) (cmd : Instr),
    s.world.recvIn = some f :: rest → f.len ≤ 8 → inList (pgnOf f.id) s.cfg.rxList = true →
    (pgnOf f.id = 59904 ∧ cmd = .isoRxRequest f ∨ pgnOf f.id = 60928 ∧ cmd = .acRxClaim f ∨
      pgnOf f.id = 59392 ∧ cmd = .isoRxAck f) →
    let counted := (s.setWorld { s.world with recvIn := rest }).setCnt
      { s.cnt with rx := s.cnt.rx + 1 }
    (∀ u : State, exec cmd counted = .next u → u.calls = s.calls →
      PumpGoesOn (exec .pump s) 19 (u.setResult s.result)) ∧
    (∀ (u : State) (c : Callback), exec cmd counted = .next u → u.calls = c :: s.calls →
      exec .pump s = .next (u.setCalls (c.inPump 19 :: s.calls))) ∧
    (∀ (u : State) (later : List (Option Frame)), rest = none :: later →
      exec cmd counted = .next u → u.calls = s.calls →
      ∃ t : State, exec .pump s = .next t ∧ t = u.setWorld t.world ∧ t.world.recvIn = later ∧
        t.world.port = s.world.port) ∧
    (∀ r : Refusal, exec cmd counted = .refused r → exec .pump s = .refused r)

/-- PUMP hands a kept frame of no service PGN to the application's message handler. Rests on
46_message_pump.md rules R178, R179, R180, log entries 5, 6 and 7. How the suspended PUMP stands
in State (log entry 5), that no new clock sample is taken for the first frame (log entry 6) and
the list of polls (log entry 7) are the model's choice. -/
def Obligations.PumpCallsTheMessageHandler : Prop :=
  ∀ (s : State) (f : Frame) (rest : List (Option Frame)),
    s.world.recvIn = some f :: rest → f.len ≤ 8 → inList (pgnOf f.id) s.cfg.rxList = true →
    pgnOf f.id ≠ 59904 → pgnOf f.id ≠ 60928 → pgnOf f.id ≠ 59392 →
    exec .pump s = .next ((((s.setWorld { s.world with recvIn := rest }).setCnt
      { s.cnt with rx := s.cnt.rx + 1 }).setCalls
        (.messageHandler (decodeId f.id) f.data 19 :: s.calls)).setResult .none)

/-- A PUMP that receives n frames raises CNT_RX + CNT_DROP by n. Rests on 46_message_pump.md rules
R181, R185, log entry 7. The list of polls is the model's choice (log entry 7). -/
def Obligations.PumpCountsEveryFrame : Prop :=
  ∀ (s t : State) (frames : List Frame) (rest : List (Option Frame)), frames.length ≤ 20 →
    s.world.recvIn = frames.map some ++ (if frames.length < 20 then none :: rest else rest) →
    exec .pump s = .next t → t.calls = s.calls →
    t.world.recvIn = rest ∧
    t.cnt.rx + t.cnt.drop = s.cnt.rx + s.cnt.drop + BitVec.ofNat 32 frames.length

/-- One PUMP step consumes at most twenty answers of the transport's receive side. Rests on
46_message_pump.md rule R181, log entry 7. The list of polls is the model's choice (log entry
7). -/
def Obligations.PumpPollsAtMostTwentyTimes : Prop :=
  ∀ (s t : State), exec .pump s = .next t →
    ∃ k : Nat, k ≤ 20 ∧ t.world.recvIn = s.world.recvIn.drop k

/-- The message handler is called only for a kept frame whose PGN is not 59904, 60928 or 59392.
Rests on 46_message_pump.md rules R177, R179, R180, R186, log entry 5. That the calls after a
step are new ones on top of some of the old ones is how the model keeps suspended commands (log
entry 5). -/
def Obligations.MessageHandlerOnlyForKeptApplicationFrames : Prop :=
  ∀ (s t : State), s.Inv → step s = .next t →
    ∃ (kept : Nat) (new : List Callback), t.calls = new ++ s.calls.drop kept ∧
      ∀ (h : Header) (payload : List Byte) (left : Nat), .messageHandler h payload left ∈ new →
        inList h.pgn s.cfg.rxList = true ∧ h.pgn ≠ 59904 ∧ h.pgn ≠ 60928 ∧ h.pgn ≠ 59392

/-- STATUS returns the six counters and changes nothing but the result port. Formalises R183. -/
def Obligations.StatusReadsTheCounters : Prop :=
  ∀ s : State, exec .status s = .next (s.setResult (.counters
    { tx := s.cnt.tx, txFail := s.cnt.txFail, rx := s.cnt.rx, drop := s.cnt.drop
      frameErr := s.cnt.frameErr, packetErr := s.cnt.packetErr }))

/-- ENG_OPEN reports the transport's answer, changes no engine state, and after a success the clock
is at least the startup delay later. Rests on 46_message_pump.md rule R184,
70_reset_and_hazards.md rule R214, log entries 6 and 7. That ok is the next answer of the list
openIn, and the unwrapped clock, are the model's choice (log entries 7 and 6). -/
def Obligations.EngOpenReportsAndWaits : Prop :=
  ∀ (bitrate clockConfig : Nat) (s : State), ∃ (t : State) (ok : Bool),
    exec (.engOpen bitrate clockConfig) s = .next t ∧
    t = (s.setResult (.opened ok)).setWorld t.world ∧ t.world.port = s.world.port ∧
    (∀ (a : Bool) (rest : List Bool), s.world.openIn = a :: rest →
      ok = a ∧ t.world.openIn = rest) ∧
    (ok = true → ∀ time : Option Millis,
      s.world.clock + s.cfg.startupDelayMs ≤ (sampleClock time t).world.clock)

/-- When the bytes on the port decode to a command, the step is that command at a fresh clock
sample. Rests on 30_encoding.md rules R63, R69, 10_state.md rule R44, 60_exceptions.md rule
R201, 70_reset_and_hazards.md rule R205, log entries 4 and 6. The queue of host items and that a
step with none leaves the state are the model's choice (log entry 4, beside R201 and R205), and
so is the form of a clock sample (log entry 6). -/
def Obligations.StepRunsTheDecodedCommand : Prop :=
  ∀ (s : State) (time : Option Millis) (bytes : List Byte) (items : List HostItem) (i : Instr),
    (s.refused = false → s.world.port = .command time bytes :: items → decode bytes = .ok i →
      step s = exec i (sampleClock time (s.setWorld { s.world with port := items })) ∧
      (∀ t : Millis, time = some t →
        now (sampleClock time (s.setWorld { s.world with port := items })) = t)) ∧
    (s.world.port = [] → step s = .next s)

/-- Every command code that R64 does not list is refused IllegalCommand. Formalises R67. -/
def Obligations.IllegalCodesAreRefused : Prop :=
  ∀ (s : State) (time : Option Millis) (code : Byte) (bytes : List Byte) (items : List HostItem),
    s.refused = false → s.world.port = .command time (code :: bytes) :: items →
    code.toNat ∉ [0x01, 0x02, 0x03, 0x10, 0x11, 0x12, 0x13, 0x14, 0x15, 0x18, 0x19, 0x1A, 0x1B, 0x1C,
      0x1D, 0x20, 0x21, 0x22, 0x23, 0x24, 0x25, 0x26, 0x27, 0x28, 0x29, 0x2A, 0x2B, 0x2C, 0x2D, 0x2E,
      0x2F, 0x30, 0x31, 0x32, 0x40, 0x41, 0x50, 0x51, 0x52] →
    step s = .refused (.illegalCommand code)

/-- Once REFUSED is set no command has a step, and the mark is never cleared, even by reset. Rests
on 10_state.md rule R42, 00_scope.md rule R11, 70_reset_and_hazards.md rule R206, log entry 21.
The refusal alreadyRefused, that it meets a callback's return too, and stepMarked are how the
model keeps the mark of R42: its choice (log entry 21). -/
def Obligations.RefusedMachineHasNoCommand : Prop :=
  (∀ s : State, s.refused = true →
    (∀ (time : Option Millis) (bytes : List Byte) (items : List HostItem),
      s.world.port = .command time bytes :: items → step s = .refused .alreadyRefused) ∧
    (∀ (handled : Bool) (items : List HostItem),
      s.world.port = .callbackReturn handled :: items → step s = .refused .alreadyRefused) ∧
    (stepMarked s).refused = true) ∧
  (∀ (s : State) (r : Refusal), step s = .refused r → (stepMarked s).refused = true)

/-- Reset with a configuration leaves every element at its reset value; INIT_ADDR above 251 is
refused. Rests on 70_reset_and_hazards.md rules R202, R203, R206, 10_state.md rule R21, log
entries 16 and 22. That a power-up drops the callbacks running is the model's (log entry 22),
and so is State.reset's own configuration (log entry 16). -/
def Obligations.ResetValues : Prop :=
  (∀ (c : Config) (s : State) (items : List HostItem), s.world.port = .powerUp c :: items →
    (251 < c.initAddr.toNat → step s = .refused .initAddrIllegal) ∧
    (c.initAddr.toNat ≤ 251 → ∃ t : State, step s = .next t ∧
      t.devAddr = c.initAddr ∧ t.name = nameInit c ∧ t.claimT = 0 ∧ t.claimedOnce = false ∧
      t.fr.mode = .idle ∧ t.fr.seq = 0 ∧ t.cnt = ⟨0, 0, 0, 0, 0, 0⟩ ∧ t.txLog = [] ∧
      t.calls = [] ∧ t.cfg = c ∧ t.refused = s.refused)) ∧
  (State.reset.devAddr = State.reset.cfg.initAddr ∧ State.reset.name = nameInit State.reset.cfg ∧
    State.reset.claimT = 0 ∧ State.reset.claimedOnce = false ∧ State.reset.fr.mode = .idle ∧
    State.reset.fr.seq = 0 ∧ State.reset.cnt = ⟨0, 0, 0, 0, 0, 0⟩ ∧ State.reset.txLog = [] ∧
    State.reset.refused = false)

/-- NAME_INIT holds every DeviceIdentity field at the bits of R23 and of R24's two layouts. Rests on
10_state.md rules R22, R23, R24, 92_eei_decisions.md D16, log entry 35. R23 marks the places of
bits 47:0 as its own inference, and the nine fields are the model's (log entry 35). -/
def Obligations.NameIsAssembledFromItsFields : Prop :=
  ∀ c : Config,
    (nameInit c).extractLsb' 0 21 = c.identity.uniqueNumber ∧
    (nameInit c).extractLsb' 21 11 = c.identity.manufacturerCode ∧
    (nameInit c).extractLsb' 32 8 = c.identity.deviceInstance ∧
    (nameInit c).extractLsb' 40 8 = c.identity.deviceFunction ∧
    (nameInit c).extractLsb' 63 1 = c.identity.arbitraryAddress ∧
    (c.nameLayout = .j1939 →
      (nameInit c).extractLsb' 48 1 = c.identity.reservedBit ∧
      (nameInit c).extractLsb' 49 7 = c.identity.deviceClass ∧
      (nameInit c).extractLsb' 56 4 = c.identity.systemInstance ∧
      (nameInit c).extractLsb' 60 3 = c.identity.industryGroup) ∧
    (c.nameLayout = .listed →
      (nameInit c).extractLsb' 48 7 = c.identity.deviceClass ∧
      (nameInit c).extractLsb' 55 1 = c.identity.reservedBit ∧
      (nameInit c).extractLsb' 56 3 = c.identity.industryGroup ∧
      (nameInit c).extractLsb' 59 4 = c.identity.systemInstance)

/-- The state after reset meets the invariant of the engine. Rests on 10_state.md rules R21, R36,
70_reset_and_hazards.md rule R203, log entries 16 and 17. -/
def Obligations.ResetMeetsTheInvariant : Prop :=
  State.reset.Inv

/-- Every step that completes keeps DEV_ADDR claimable, the packet in progress as R36 says, the log
a list of CAN frames, and every callback rightly called. Rests on 10_state.md rules R21, R36,
20_memory.md rule R55, 43_packet_framer.md rule R127, 46_message_pump.md rules R181, R186, log
entry 5. How callbacks in progress stand in State is the model's choice (log entry 5). -/
def Obligations.EveryStepKeepsTheInvariant : Prop :=
  ∀ (s t : State), s.Inv → step s = .next t → t.Inv

/-- DEV_ADDR never decreases between resets. Formalises R160. -/
def Obligations.AddressNeverDecreases : Prop :=
  (∀ (s t : State), s.Inv → (∀ (c : Config) (items : List HostItem),
      s.world.port ≠ .powerUp c :: items) → step s = .next t →
    s.devAddr.toNat ≤ t.devAddr.toNat) ∧
  (∀ (i : Instr) (s t : State), s.Inv → exec i s = .next t →
    match i with
    | .pump => True
    | .acRxClaim _ => t.devAddr = s.devAddr ∨ t.devAddr.toNat = s.devAddr.toNat + 1
    | _ => t.devAddr = s.devAddr)

/-- NAME bits 63:40 and 31:0 never change, and a changed device instance is at most 0x7F. Formalises
R25, R159. -/
def Obligations.OnlyTheDeviceInstanceOfTheNameChanges : Prop :=
  (∀ (s t : State), s.Inv → (∀ (c : Config) (items : List HostItem),
      s.world.port ≠ .powerUp c :: items) → step s = .next t →
    t.name.extractLsb' 40 24 = s.name.extractLsb' 40 24 ∧
    t.name.extractLsb' 0 32 = s.name.extractLsb' 0 32 ∧
    (t.name = s.name ∨ (t.name.extractLsb' 32 8).toNat ≤ 0x7F)) ∧
  (∀ (i : Instr) (s t : State), exec i s = .next t →
    match i with
    | .pump => True
    | .acRxClaim f => t.name = s.name ∨
        ((decodeId f.id).src = s.devAddr ∧
          (8 ≤ f.len → leNat (f.data.take 8) = s.name.toNat) ∧
          (t.name.extractLsb' 32 8).toNat ≤ 0x7F)
    | _ => t.name = s.name) ∧
  (∀ (f : Frame) (s t : State), (decodeId f.id).src = s.devAddr → s.devAddr ≠ 254 → f.len = 8 →
    leNat f.data = s.name.toNat → exec (.acRxClaim f) s = .next t →
    (t.name.extractLsb' 32 8).toNat ≤ 0x7F)

/-- A step only appends to TX_LOG, and CNT_TX and CNT_TX_FAIL rise by the new entries that the
transport took and refused. Rests on 20_memory.md rules R55, R57, 10_state.md rules R37, R43. -/
def Obligations.TxLogGrowsAndTheSendCountersMatchIt : Prop :=
  ∀ (s t : State), s.Inv → (∀ (c : Config) (items : List HostItem),
      s.world.port ≠ .powerUp c :: items) → step s = .next t →
    ∃ es : List TxEntry, t.txLog = s.txLog ++ es ∧ (∀ e ∈ es, e.id ≠ 0) ∧
      t.cnt.tx = s.cnt.tx + BitVec.ofNat 32 (es.countP fun e => e.ok) ∧
      t.cnt.txFail = s.cnt.txFail + BitVec.ofNat 32 (es.countP fun e => !e.ok)

/-- No step but a power-up changes the configuration or REFUSED, and the clock never goes back.
Rests on 10_state.md rules R39, R44, 70_reset_and_hazards.md rule R202, log entries 6 and 22.
The unwrapped clock (log entry 6) and the power-up as a host item (log entry 22) are the model's
choice. -/
def Obligations.ConfigurationAndClockAcrossSteps : Prop :=
  ∀ (s t : State), s.Inv → step s = .next t →
    s.world.clock ≤ t.world.clock ∧
    ((∀ (c : Config) (items : List HostItem), s.world.port ≠ .powerUp c :: items) →
      t.cfg = s.cfg ∧ t.refused = s.refused)

/-- Decoding the encoding of every well-formed command gives it back, with every operand. Rests on
30_encoding.md rules R63, R64, R66, R68, R82, log entries 1 and 30. The byte form of operand
fields (log entry 1) and that bytes after a command's own fields are ignored (log entry 30) are
the model's choice. -/
def Obligations.DecodeOfEncode : Prop :=
  ∀ (i : Instr) (rest : List Byte), i.wellFormed = true → decode (encode i ++ rest) = .ok i

/-- Whatever the decoder accepts meets the operand limits. Rests on 30_encoding.md rules R68, R82. -/
def Obligations.DecodedCommandsAreWellFormed : Prop :=
  ∀ (bytes : List Byte) (i : Instr), decode bytes = .ok i → i.wellFormed = true

/-- Words written out from the command map decode to the commands they stand for. Rests on
30_encoding.md rules R64, R66, log entry 1. -/
def Obligations.TableCodesDecode : Prop :=
  decode [0x02, 0x05, 0x19, 0xEA, 0x18] = .ok (.idDecode 0x18EA1905) ∧
  decode [0x10, 0x03, 0x00, 0x00, 0x00] = .ok (.numEncU16 .na (.rat 1)) ∧
  decode [0x19, 0xF1, 0xFF, 0x00, 0x00, 0x09] = .ok (.numDecS16 #v[0xF1, 0xFF] (.rat (1 / 10))) ∧
  decode [0x20, 0x00, 0xEE, 0x00, 0x06, 0x19, 0xFF] = .ok (.frStart 60928 6 25 255) ∧
  decode [0x23, 0x34, 0x08] = .ok (.frOutRaw16 0x0834) ∧
  decode [0x2F] = .ok .frFinishFast ∧
  decode [0x32, 0x18, 0xFF, 0xEE, 0x18, 0x01, 0x32] =
    .ok (.acRxClaim { id := 0x18EEFF18, data := [0x32] }) ∧
  decode [0x40, 0x05, 0x19, 0xEA, 0x18, 0x03, 0x00, 0xEE, 0x01] =
    .ok (.isoRxRequest { id := 0x18EA1905, data := [0x00, 0xEE, 0x01] }) ∧
  decode [0x51] = .ok .status
end

