-- ==== Sys2Proof/Laws/Bytes.lean ====
section
/-! SUPPORT. Byte order and operand fields: each field's reader reads back what its writer wrote. -/

set_option Elab.async false

namespace Sys2Proof

@[simp] theorem leBytes_length (n v : Nat) : (leBytes n v).length = n := by
  induction n generalizing v with
  | zero => rfl
  | succ n ih => simp [leBytes, ih]

theorem leNat_leBytes (n v : Nat) : leNat (leBytes n v) = v % 256 ^ n := by
  induction n generalizing v with
  | zero => simp [leBytes, leNat, Nat.mod_one]
  | succ n ih =>
    have h8 : (2 : Nat) ^ 8 = 256 := rfl
    rw [leBytes, leNat, ih, BitVec.toNat_ofNat, h8, pow_succ', Nat.mod_mul]

theorem leNat_lt (bs : List Byte) : leNat bs < 256 ^ bs.length := by
  induction bs with
  | nil => simp [leNat]
  | cons b bs ih =>
    have hb := b.isLt
    simp only [leNat, List.length_cons, pow_succ]
    omega

theorem leBytes_leNat (bs : List Byte) : leBytes bs.length (leNat bs) = bs := by
  induction bs with
  | nil => rfl
  | cons b bs ih =>
    have hb := b.isLt
    have h1 : (b.toNat + 256 * leNat bs) / 256 = leNat bs := by omega
    simp only [leNat, List.length_cons, leBytes, h1, ih, List.cons.injEq, and_true]
    apply BitVec.eq_of_toNat_eq
    simp
    omega

theorem leNat_leBytes_of_lt {n v : Nat} (h : v < 256 ^ n) : leNat (leBytes n v) = v := by
  rw [leNat_leBytes, Nat.mod_eq_of_lt h]

section Fields

variable {α : Type}

/-- A fixed-width field that fits its bytes is read back. -/
theorem withBits_leBytes {w k : Nat} (hk : 2 ^ w ≤ 256 ^ k) (v : BitVec w) (rest : List Byte)
    (f : BitVec w → List Byte → Decoded α) :
    withBits w k (leBytes k v.toNat ++ rest) f = f v rest := by
  have hv := v.isLt
  have h : leNat (leBytes k v.toNat) = v.toNat := leNat_leBytes_of_lt (by omega)
  have hlen : ¬ (leBytes k v.toNat ++ rest).length < k := by simp
  have ht : (leBytes k v.toNat ++ rest).take k = leBytes k v.toNat := by
    rw [List.take_append_of_le_length (by simp), List.take_of_length_le (by simp)]
  have hd : (leBytes k v.toNat ++ rest).drop k = rest := by
    rw [List.drop_append_of_le_length (by simp), List.drop_of_length_le (by simp)]; rfl
  rw [withBits, if_neg hlen, ht, hd, h, if_pos hv]
  simp

theorem withVector_toList {n : Nat} (v : Vector Byte n) (rest : List Byte)
    (f : Vector Byte n → List Byte → Decoded α) :
    withVector n (v.toList ++ rest) f = f v rest := by
  have ht : (v.toList ++ rest).take n = v.toList := by
    rw [List.take_append_of_le_length (by simp), List.take_of_length_le (by simp)]
  have hd : (v.toList ++ rest).drop n = rest := by
    rw [List.drop_append_of_le_length (by simp), List.drop_of_length_le (by simp)]; rfl
  have hs : ((v.toList ++ rest).take n).toArray.size = n := by rw [ht]; simp
  rw [withVector, dif_pos hs, hd]
  congr 1
  apply Vector.toArray_inj.mp
  simp only [ht]
  rfl

theorem readNat_natDigits (fuel n : Nat) (rest : List Byte) (h : n < 128 ^ (fuel + 1)) :
    readNat (natDigits fuel n ++ rest) = some (n, rest) := by
  induction fuel generalizing n with
  | zero =>
    have h' : n < 128 := by simpa using h
    have : n % 256 = n := Nat.mod_eq_of_lt (by omega)
    simp [natDigits, readNat, this, h']
  | succ fuel ih =>
    rw [natDigits]
    split
    · next h' =>
      have : n % 256 = n := Nat.mod_eq_of_lt (by omega)
      simp [readNat, this, h']
    · next h' =>
      have hq : n / 128 < 128 ^ (fuel + 1) := by
        rw [Nat.div_lt_iff_lt_mul (by norm_num)]
        rw [pow_succ] at h
        exact h
      have hm : (128 + n % 128) % 256 = 128 + n % 128 := Nat.mod_eq_of_lt (by omega)
      simp only [List.cons_append, readNat, BitVec.toNat_ofNat, hm, ih _ hq,
        show ¬ (128 + n % 128 < 128) by omega, if_false, Nat.reducePow]
      congr 2
      omega

/-- A natural-number field is read back. -/
theorem withNat_natBytes (n : Nat) (rest : List Byte) (f : Nat → List Byte → Decoded α) :
    withNat (natBytes n ++ rest) f = f n rest := by
  have h : n < 128 ^ (Nat.log2 n + 1) :=
    lt_of_lt_of_le Nat.lt_log2_self (Nat.pow_le_pow_left (by norm_num) _)
  rw [withNat, natBytes, readNat_natDigits _ _ _ h]

/-- A `num` field is read back. -/
theorem withNum_numBytes (v : NumOperand) (rest : List Byte) (f : NumOperand → List Byte → Decoded α) :
    withNum (numBytes v ++ rest) f = f v rest := by
  cases v with
  | na => rfl
  | rat q =>
    have hden : q.den - 1 + 1 = q.den := Nat.sub_add_cancel q.den_pos
    by_cases h0 : q.num = 0
    · have hq : q = 0 := Rat.num_eq_zero.mp h0
      subst hq
      simp [numBytes, withNum]
    · by_cases hp : 0 < q.num
      · have hn : ((q.num.natAbs - 1 : Nat) : Int) + 1 = q.num := by omega
        simp only [numBytes, withNum, if_neg h0, if_pos hp, List.cons_append, List.append_assoc,
          withNat_natBytes, hden, hn, Rat.mkRat_self, if_true]
      · have hn : -(((q.num.natAbs - 1 : Nat) : Int) + 1) = q.num := by omega
        have h10 : ¬ ((1 : Byte) = 0) := by decide
        simp only [numBytes, withNum, if_neg h0, if_neg hp, List.cons_append, List.append_assoc,
          withNat_natBytes, hden, hn, Rat.mkRat_self, if_true, if_neg h10]

/-- A string field of at most 255 bytes is read back. -/
theorem withString_stringBytes {str : List Byte} (h : stringWellFormed str = true)
    (rest : List Byte) (f : List Byte → List Byte → Decoded α) :
    withString (stringBytes str ++ rest) f = f str rest := by
  have hl : str.length ≤ 255 := by simpa [stringWellFormed] using h
  have hm : str.length % 256 = str.length := Nat.mod_eq_of_lt (by omega)
  simp [stringBytes, withString, hm]

/-- A frame field of at most 8 data bytes is read back. -/
theorem withFrame_frameBytes {fr : Frame} (h : fr.wellFormed = true) (rest : List Byte)
    (f : Frame → List Byte → Decoded α) :
    withFrame (frameBytes fr ++ rest) f = f fr rest := by
  have hl : fr.data.length ≤ 8 := of_decide_eq_true h
  have hm : fr.data.length % 256 = fr.data.length := Nat.mod_eq_of_lt (by omega)
  rw [withFrame, frameBytes, List.append_assoc, withBits_leBytes (by norm_num)]
  have h8 : ¬ 8 < fr.data.length := by omega
  simp [Frame.len, hm, h8]

/-- The header fields are read back. -/
theorem withHeader_headerBytes (pgn : Pgn24) (prio : Prio) (src dst : Addr) (rest : List Byte)
    (f : Pgn24 → Prio → Addr → Addr → List Byte → Decoded α) :
    withHeader (headerBytes pgn prio src dst ++ rest) f = f pgn prio src dst rest := by
  rw [withHeader, headerBytes, List.append_assoc, List.append_assoc, List.append_assoc,
    withBits_leBytes (by norm_num), withBits_leBytes (by norm_num),
    withBits_leBytes (by norm_num), withBits_leBytes (by norm_num)]

end Fields

end Sys2Proof
end

