-- ==== Sys2Proof/Laws/State.lean ====
section
/-! SUPPORT. What each field update of Sys2Proof/Machine/State.lean does to each field, and what reset leaves in each. -/

set_option Elab.async false

namespace Sys2Proof.Machine

variable (s : State)

@[simp] theorem State.setDevAddr_devAddr (x : Addr) : (s.setDevAddr x).devAddr = x := rfl
@[simp] theorem State.setDevAddr_name (x : Addr) : (s.setDevAddr x).name = s.name := rfl
@[simp] theorem State.setDevAddr_claimT (x : Addr) : (s.setDevAddr x).claimT = s.claimT := rfl
@[simp] theorem State.setDevAddr_claimedOnce (x : Addr) : (s.setDevAddr x).claimedOnce = s.claimedOnce := rfl
@[simp] theorem State.setDevAddr_fr (x : Addr) : (s.setDevAddr x).fr = s.fr := rfl
@[simp] theorem State.setDevAddr_cnt (x : Addr) : (s.setDevAddr x).cnt = s.cnt := rfl
@[simp] theorem State.setDevAddr_txLog (x : Addr) : (s.setDevAddr x).txLog = s.txLog := rfl
@[simp] theorem State.setDevAddr_refused (x : Addr) : (s.setDevAddr x).refused = s.refused := rfl
@[simp] theorem State.setDevAddr_cfg (x : Addr) : (s.setDevAddr x).cfg = s.cfg := rfl
@[simp] theorem State.setDevAddr_calls (x : Addr) : (s.setDevAddr x).calls = s.calls := rfl
@[simp] theorem State.setDevAddr_result (x : Addr) : (s.setDevAddr x).result = s.result := rfl
@[simp] theorem State.setDevAddr_world (x : Addr) : (s.setDevAddr x).world = s.world := rfl

@[simp] theorem State.setName_devAddr (x : NameWord) : (s.setName x).devAddr = s.devAddr := rfl
@[simp] theorem State.setName_name (x : NameWord) : (s.setName x).name = x := rfl
@[simp] theorem State.setName_claimT (x : NameWord) : (s.setName x).claimT = s.claimT := rfl
@[simp] theorem State.setName_claimedOnce (x : NameWord) : (s.setName x).claimedOnce = s.claimedOnce := rfl
@[simp] theorem State.setName_fr (x : NameWord) : (s.setName x).fr = s.fr := rfl
@[simp] theorem State.setName_cnt (x : NameWord) : (s.setName x).cnt = s.cnt := rfl
@[simp] theorem State.setName_txLog (x : NameWord) : (s.setName x).txLog = s.txLog := rfl
@[simp] theorem State.setName_refused (x : NameWord) : (s.setName x).refused = s.refused := rfl
@[simp] theorem State.setName_cfg (x : NameWord) : (s.setName x).cfg = s.cfg := rfl
@[simp] theorem State.setName_calls (x : NameWord) : (s.setName x).calls = s.calls := rfl
@[simp] theorem State.setName_result (x : NameWord) : (s.setName x).result = s.result := rfl
@[simp] theorem State.setName_world (x : NameWord) : (s.setName x).world = s.world := rfl

@[simp] theorem State.setClaimT_devAddr (x : Millis) : (s.setClaimT x).devAddr = s.devAddr := rfl
@[simp] theorem State.setClaimT_name (x : Millis) : (s.setClaimT x).name = s.name := rfl
@[simp] theorem State.setClaimT_claimT (x : Millis) : (s.setClaimT x).claimT = x := rfl
@[simp] theorem State.setClaimT_claimedOnce (x : Millis) : (s.setClaimT x).claimedOnce = s.claimedOnce := rfl
@[simp] theorem State.setClaimT_fr (x : Millis) : (s.setClaimT x).fr = s.fr := rfl
@[simp] theorem State.setClaimT_cnt (x : Millis) : (s.setClaimT x).cnt = s.cnt := rfl
@[simp] theorem State.setClaimT_txLog (x : Millis) : (s.setClaimT x).txLog = s.txLog := rfl
@[simp] theorem State.setClaimT_refused (x : Millis) : (s.setClaimT x).refused = s.refused := rfl
@[simp] theorem State.setClaimT_cfg (x : Millis) : (s.setClaimT x).cfg = s.cfg := rfl
@[simp] theorem State.setClaimT_calls (x : Millis) : (s.setClaimT x).calls = s.calls := rfl
@[simp] theorem State.setClaimT_result (x : Millis) : (s.setClaimT x).result = s.result := rfl
@[simp] theorem State.setClaimT_world (x : Millis) : (s.setClaimT x).world = s.world := rfl

@[simp] theorem State.setClaimedOnce_devAddr (x : Bool) : (s.setClaimedOnce x).devAddr = s.devAddr := rfl
@[simp] theorem State.setClaimedOnce_name (x : Bool) : (s.setClaimedOnce x).name = s.name := rfl
@[simp] theorem State.setClaimedOnce_claimT (x : Bool) : (s.setClaimedOnce x).claimT = s.claimT := rfl
@[simp] theorem State.setClaimedOnce_claimedOnce (x : Bool) : (s.setClaimedOnce x).claimedOnce = x := rfl
@[simp] theorem State.setClaimedOnce_fr (x : Bool) : (s.setClaimedOnce x).fr = s.fr := rfl
@[simp] theorem State.setClaimedOnce_cnt (x : Bool) : (s.setClaimedOnce x).cnt = s.cnt := rfl
@[simp] theorem State.setClaimedOnce_txLog (x : Bool) : (s.setClaimedOnce x).txLog = s.txLog := rfl
@[simp] theorem State.setClaimedOnce_refused (x : Bool) : (s.setClaimedOnce x).refused = s.refused := rfl
@[simp] theorem State.setClaimedOnce_cfg (x : Bool) : (s.setClaimedOnce x).cfg = s.cfg := rfl
@[simp] theorem State.setClaimedOnce_calls (x : Bool) : (s.setClaimedOnce x).calls = s.calls := rfl
@[simp] theorem State.setClaimedOnce_result (x : Bool) : (s.setClaimedOnce x).result = s.result := rfl
@[simp] theorem State.setClaimedOnce_world (x : Bool) : (s.setClaimedOnce x).world = s.world := rfl

@[simp] theorem State.setFr_devAddr (x : Framer) : (s.setFr x).devAddr = s.devAddr := rfl
@[simp] theorem State.setFr_name (x : Framer) : (s.setFr x).name = s.name := rfl
@[simp] theorem State.setFr_claimT (x : Framer) : (s.setFr x).claimT = s.claimT := rfl
@[simp] theorem State.setFr_claimedOnce (x : Framer) : (s.setFr x).claimedOnce = s.claimedOnce := rfl
@[simp] theorem State.setFr_fr (x : Framer) : (s.setFr x).fr = x := rfl
@[simp] theorem State.setFr_cnt (x : Framer) : (s.setFr x).cnt = s.cnt := rfl
@[simp] theorem State.setFr_txLog (x : Framer) : (s.setFr x).txLog = s.txLog := rfl
@[simp] theorem State.setFr_refused (x : Framer) : (s.setFr x).refused = s.refused := rfl
@[simp] theorem State.setFr_cfg (x : Framer) : (s.setFr x).cfg = s.cfg := rfl
@[simp] theorem State.setFr_calls (x : Framer) : (s.setFr x).calls = s.calls := rfl
@[simp] theorem State.setFr_result (x : Framer) : (s.setFr x).result = s.result := rfl
@[simp] theorem State.setFr_world (x : Framer) : (s.setFr x).world = s.world := rfl

@[simp] theorem State.setCnt_devAddr (x : Counters) : (s.setCnt x).devAddr = s.devAddr := rfl
@[simp] theorem State.setCnt_name (x : Counters) : (s.setCnt x).name = s.name := rfl
@[simp] theorem State.setCnt_claimT (x : Counters) : (s.setCnt x).claimT = s.claimT := rfl
@[simp] theorem State.setCnt_claimedOnce (x : Counters) : (s.setCnt x).claimedOnce = s.claimedOnce := rfl
@[simp] theorem State.setCnt_fr (x : Counters) : (s.setCnt x).fr = s.fr := rfl
@[simp] theorem State.setCnt_cnt (x : Counters) : (s.setCnt x).cnt = x := rfl
@[simp] theorem State.setCnt_txLog (x : Counters) : (s.setCnt x).txLog = s.txLog := rfl
@[simp] theorem State.setCnt_refused (x : Counters) : (s.setCnt x).refused = s.refused := rfl
@[simp] theorem State.setCnt_cfg (x : Counters) : (s.setCnt x).cfg = s.cfg := rfl
@[simp] theorem State.setCnt_calls (x : Counters) : (s.setCnt x).calls = s.calls := rfl
@[simp] theorem State.setCnt_result (x : Counters) : (s.setCnt x).result = s.result := rfl
@[simp] theorem State.setCnt_world (x : Counters) : (s.setCnt x).world = s.world := rfl

@[simp] theorem State.setTxLog_devAddr (x : List TxEntry) : (s.setTxLog x).devAddr = s.devAddr := rfl
@[simp] theorem State.setTxLog_name (x : List TxEntry) : (s.setTxLog x).name = s.name := rfl
@[simp] theorem State.setTxLog_claimT (x : List TxEntry) : (s.setTxLog x).claimT = s.claimT := rfl
@[simp] theorem State.setTxLog_claimedOnce (x : List TxEntry) : (s.setTxLog x).claimedOnce = s.claimedOnce := rfl
@[simp] theorem State.setTxLog_fr (x : List TxEntry) : (s.setTxLog x).fr = s.fr := rfl
@[simp] theorem State.setTxLog_cnt (x : List TxEntry) : (s.setTxLog x).cnt = s.cnt := rfl
@[simp] theorem State.setTxLog_txLog (x : List TxEntry) : (s.setTxLog x).txLog = x := rfl
@[simp] theorem State.setTxLog_refused (x : List TxEntry) : (s.setTxLog x).refused = s.refused := rfl
@[simp] theorem State.setTxLog_cfg (x : List TxEntry) : (s.setTxLog x).cfg = s.cfg := rfl
@[simp] theorem State.setTxLog_calls (x : List TxEntry) : (s.setTxLog x).calls = s.calls := rfl
@[simp] theorem State.setTxLog_result (x : List TxEntry) : (s.setTxLog x).result = s.result := rfl
@[simp] theorem State.setTxLog_world (x : List TxEntry) : (s.setTxLog x).world = s.world := rfl

@[simp] theorem State.setCalls_devAddr (x : List Callback) : (s.setCalls x).devAddr = s.devAddr := rfl
@[simp] theorem State.setCalls_name (x : List Callback) : (s.setCalls x).name = s.name := rfl
@[simp] theorem State.setCalls_claimT (x : List Callback) : (s.setCalls x).claimT = s.claimT := rfl
@[simp] theorem State.setCalls_claimedOnce (x : List Callback) : (s.setCalls x).claimedOnce = s.claimedOnce := rfl
@[simp] theorem State.setCalls_fr (x : List Callback) : (s.setCalls x).fr = s.fr := rfl
@[simp] theorem State.setCalls_cnt (x : List Callback) : (s.setCalls x).cnt = s.cnt := rfl
@[simp] theorem State.setCalls_txLog (x : List Callback) : (s.setCalls x).txLog = s.txLog := rfl
@[simp] theorem State.setCalls_refused (x : List Callback) : (s.setCalls x).refused = s.refused := rfl
@[simp] theorem State.setCalls_cfg (x : List Callback) : (s.setCalls x).cfg = s.cfg := rfl
@[simp] theorem State.setCalls_calls (x : List Callback) : (s.setCalls x).calls = x := rfl
@[simp] theorem State.setCalls_result (x : List Callback) : (s.setCalls x).result = s.result := rfl
@[simp] theorem State.setCalls_world (x : List Callback) : (s.setCalls x).world = s.world := rfl

@[simp] theorem State.setResult_devAddr (x : Result) : (s.setResult x).devAddr = s.devAddr := rfl
@[simp] theorem State.setResult_name (x : Result) : (s.setResult x).name = s.name := rfl
@[simp] theorem State.setResult_claimT (x : Result) : (s.setResult x).claimT = s.claimT := rfl
@[simp] theorem State.setResult_claimedOnce (x : Result) : (s.setResult x).claimedOnce = s.claimedOnce := rfl
@[simp] theorem State.setResult_fr (x : Result) : (s.setResult x).fr = s.fr := rfl
@[simp] theorem State.setResult_cnt (x : Result) : (s.setResult x).cnt = s.cnt := rfl
@[simp] theorem State.setResult_txLog (x : Result) : (s.setResult x).txLog = s.txLog := rfl
@[simp] theorem State.setResult_refused (x : Result) : (s.setResult x).refused = s.refused := rfl
@[simp] theorem State.setResult_cfg (x : Result) : (s.setResult x).cfg = s.cfg := rfl
@[simp] theorem State.setResult_calls (x : Result) : (s.setResult x).calls = s.calls := rfl
@[simp] theorem State.setResult_result (x : Result) : (s.setResult x).result = x := rfl
@[simp] theorem State.setResult_world (x : Result) : (s.setResult x).world = s.world := rfl

@[simp] theorem State.setWorld_devAddr (x : World) : (s.setWorld x).devAddr = s.devAddr := rfl
@[simp] theorem State.setWorld_name (x : World) : (s.setWorld x).name = s.name := rfl
@[simp] theorem State.setWorld_claimT (x : World) : (s.setWorld x).claimT = s.claimT := rfl
@[simp] theorem State.setWorld_claimedOnce (x : World) : (s.setWorld x).claimedOnce = s.claimedOnce := rfl
@[simp] theorem State.setWorld_fr (x : World) : (s.setWorld x).fr = s.fr := rfl
@[simp] theorem State.setWorld_cnt (x : World) : (s.setWorld x).cnt = s.cnt := rfl
@[simp] theorem State.setWorld_txLog (x : World) : (s.setWorld x).txLog = s.txLog := rfl
@[simp] theorem State.setWorld_refused (x : World) : (s.setWorld x).refused = s.refused := rfl
@[simp] theorem State.setWorld_cfg (x : World) : (s.setWorld x).cfg = s.cfg := rfl
@[simp] theorem State.setWorld_calls (x : World) : (s.setWorld x).calls = s.calls := rfl
@[simp] theorem State.setWorld_result (x : World) : (s.setWorld x).result = s.result := rfl
@[simp] theorem State.setWorld_world (x : World) : (s.setWorld x).world = x := rfl

variable (c : Config)

@[simp] theorem State.ofConfig_devAddr : (State.ofConfig c).devAddr = c.initAddr := rfl
@[simp] theorem State.ofConfig_name : (State.ofConfig c).name = nameInit c := rfl
@[simp] theorem State.ofConfig_claimT : (State.ofConfig c).claimT = 0 := rfl
@[simp] theorem State.ofConfig_claimedOnce : (State.ofConfig c).claimedOnce = false := rfl
@[simp] theorem State.ofConfig_fr : (State.ofConfig c).fr = Framer.atReset := rfl
@[simp] theorem State.ofConfig_cnt : (State.ofConfig c).cnt = Counters.zero := rfl
@[simp] theorem State.ofConfig_txLog : (State.ofConfig c).txLog = [] := rfl
@[simp] theorem State.ofConfig_refused : (State.ofConfig c).refused = false := rfl
@[simp] theorem State.ofConfig_cfg : (State.ofConfig c).cfg = c := rfl
@[simp] theorem State.ofConfig_calls : (State.ofConfig c).calls = [] := rfl
@[simp] theorem State.ofConfig_result : (State.ofConfig c).result = .none := rfl
@[simp] theorem State.ofConfig_world : (State.ofConfig c).world = World.quiet := rfl

end Sys2Proof.Machine
end

