-- ==== Sys2Proof/Laws/Ops.lean ====
section
/-! SUPPORT. What each shared operation of Sys2Proof/Machine/Ops.lean can do, said once: the fields it leaves, and the result where it has one. -/

set_option Elab.async false

namespace Sys2Proof.Machine

/-! ### Sequencing -/

section Sequencing

variable {σ τ : Type}

@[simp] theorem andThen_next (s : σ) (f : σ → Host.Outcome τ Fault Refusal) :
    andThen (.next s) f = f s := rfl

@[simp] theorem andThen_refused (e : Refusal) (f : σ → Host.Outcome τ Fault Refusal) :
    andThen (.refused e) f = .refused e := rfl

/-- A sequence completes exactly when both parts do. -/
theorem andThen_eq_next {r : Host.Outcome σ Fault Refusal}
    {f : σ → Host.Outcome τ Fault Refusal} {t : τ} :
    andThen r f = .next t ↔ ∃ m, r = .next m ∧ f m = .next t := by
  cases r <;> simp [andThen]

/-- A sequence is refused exactly when its first part is, or its second after the first has completed. -/
theorem andThen_eq_refused {r : Host.Outcome σ Fault Refusal}
    {f : σ → Host.Outcome τ Fault Refusal} {e : Refusal} :
    andThen r f = .refused e ↔ r = .refused e ∨ ∃ m, r = .next m ∧ f m = .refused e := by
  cases r <;> simp [andThen]

theorem andThen_assoc {ρ : Type} (r : Host.Outcome σ Fault Refusal)
    (f : σ → Host.Outcome τ Fault Refusal) (g : τ → Host.Outcome ρ Fault Refusal) :
    andThen (andThen r f) g = andThen r fun s => andThen (f s) g := by
  cases r <;> rfl

@[simp] theorem withValue_ok {α : Type} (a : α) (f : α → Host.Outcome σ Fault Refusal) :
    withValue (.ok a) f = f a := rfl

@[simp] theorem withValue_error {α : Type} (e : Refusal) (f : α → Host.Outcome σ Fault Refusal) :
    withValue (.error e) f = .refused e := rfl

/-- A computed value lets the operation complete exactly when there is one and the rest completes. -/
theorem withValue_eq_next {α : Type} {r : Except Refusal α}
    {f : α → Host.Outcome σ Fault Refusal} {t : σ} :
    withValue r f = .next t ↔ ∃ a, r = .ok a ∧ f a = .next t := by
  cases r <;> simp [withValue]

end Sequencing

variable (s : State)

@[simp] theorem done_next : done (.next s) = .next (s.setResult .none) := rfl

@[simp] theorem done_refused (e : Refusal) : done (.refused e) = .refused e := rfl

/-- A command with no result completes exactly when its effect does; the result port then holds none. -/
theorem done_eq_next {r : Out} {t : State} :
    done r = .next t ↔ ∃ m, r = .next m ∧ t = m.setResult .none := by
  rw [done, andThen_eq_next]
  simp [answer, eq_comm]

/-- A command with no result is refused exactly when its effect is. -/
theorem done_eq_refused {r : Out} {e : Refusal} : done r = .refused e ↔ r = .refused e := by
  rw [done, andThen_eq_refused]
  simp [answer]

/-! ### Draws -/

/-- A send's answer changes only the answers that the transport has given. -/
theorem drawSend_state : (drawSend s).2 = s.setWorld (s.world.afterSends (drawSend s).2) := by
  unfold drawSend
  split <;> simp [State.setWorld, World.afterSends, *]

/-- An open's answer changes only the answers that the transport has given. -/
theorem drawOpen_state : (drawOpen s).2 = s.setWorld
    { s.world with openIn := (drawOpen s).2.world.openIn, draws := (drawOpen s).2.world.draws } := by
  unfold drawOpen
  split <;> simp [State.setWorld, *]

/-- A poll changes only the answers that the transport has given. -/
theorem pollReceive_state : (pollReceive s).2 = s.setWorld
    { s.world with recvIn := (pollReceive s).2.world.recvIn, draws := (pollReceive s).2.world.draws } := by
  unfold pollReceive
  split <;> simp [State.setWorld, *]

/-- Byte draws change only their number. -/
theorem drawBytes_state (n : Nat) : (drawBytes n s).2 =
    s.setWorld { s.world with draws := s.world.draws + n } := by
  induction n generalizing s with
  | zero => rfl
  | succ n ih =>
    simp only [drawBytes, ih, State.setWorld, Nat.add_assoc, Nat.add_comm 1 n]

@[simp] theorem drawBytes_length (n : Nat) : (drawBytes n s).1.length = n := by
  induction n generalizing s with
  | zero => rfl
  | succ n ih => simp [drawBytes, ih]

/-- The bytes drawn are the free bytes at the next draws (R153). -/
theorem drawBytes_bytes (n : Nat) :
    (drawBytes n s).1 = (List.range n).map fun j => Config.freeByte (s.world.draws + j) := by
  induction n generalizing s with
  | zero => rfl
  | succ n ih =>
    simp only [drawBytes, ih, List.range_succ_eq_map, List.map_cons, List.map_map, Nat.add_zero]
    congr 1
    refine List.map_congr_left fun j _ => ?_
    simp only [Function.comp, State.setWorld_world, Nat.succ_eq_add_one]
    rw [Nat.add_assoc, Nat.add_comm 1 j]

/-- A clock sample changes only the clock, the samples fixed in advance and the number of draws. -/
theorem sampleClock_state (t : Option Millis) : sampleClock t s = s.setWorld
    { s.world with
      clock := (sampleClock t s).world.clock, clockIn := (sampleClock t s).world.clockIn,
      draws := (sampleClock t s).world.draws } := by
  unfold sampleClock
  split <;> simp [State.setWorld, *]

/-- A scripted answer is the answer. -/
theorem drawSend_scripted {r : Bool} {rs : List Bool} (h : s.world.sendIn = r :: rs) :
    drawSend s = (r, s.setWorld { s.world with sendIn := rs }) := by
  simp [drawSend, h]

/-- A scripted poll gives the scripted frame. -/
theorem pollReceive_scripted {a : Option Frame} {rest : List (Option Frame)}
    (h : s.world.recvIn = a :: rest) :
    pollReceive s = (a.map clipFrame, s.setWorld { s.world with recvIn := rest }) := by
  simp [pollReceive, h]

/-- `@t` makes the sample t (R69). -/
theorem now_sampleClock_some (t : Millis) : now (sampleClock (some t) s) = t := by
  simp only [now, sampleClock, State.setWorld_world, advanceTo]
  apply BitVec.eq_of_toNat_eq
  simp only [BitVec.toNat_ofNat, BitVec.toNat_sub]
  have := t.isLt
  omega

/-- The clock never goes back (R44). -/
theorem clock_le_sampleClock (t : Option Millis) : s.world.clock ≤ (sampleClock t s).world.clock := by
  unfold sampleClock
  split <;> simp [advanceTo]

/-! ### The fields that a draw or a clock sample leaves -/

@[simp] theorem drawSend_devAddr : (drawSend s).2.devAddr = s.devAddr := by
  rw [drawSend_state s]; rfl
@[simp] theorem drawSend_name : (drawSend s).2.name = s.name := by
  rw [drawSend_state s]; rfl
@[simp] theorem drawSend_claimT : (drawSend s).2.claimT = s.claimT := by
  rw [drawSend_state s]; rfl
@[simp] theorem drawSend_claimedOnce : (drawSend s).2.claimedOnce = s.claimedOnce := by
  rw [drawSend_state s]; rfl
@[simp] theorem drawSend_fr : (drawSend s).2.fr = s.fr := by
  rw [drawSend_state s]; rfl
@[simp] theorem drawSend_cnt : (drawSend s).2.cnt = s.cnt := by
  rw [drawSend_state s]; rfl
@[simp] theorem drawSend_txLog : (drawSend s).2.txLog = s.txLog := by
  rw [drawSend_state s]; rfl
@[simp] theorem drawSend_refused : (drawSend s).2.refused = s.refused := by
  rw [drawSend_state s]; rfl
@[simp] theorem drawSend_cfg : (drawSend s).2.cfg = s.cfg := by
  rw [drawSend_state s]; rfl
@[simp] theorem drawSend_calls : (drawSend s).2.calls = s.calls := by
  rw [drawSend_state s]; rfl
@[simp] theorem drawSend_result : (drawSend s).2.result = s.result := by
  rw [drawSend_state s]; rfl

@[simp] theorem drawOpen_devAddr : (drawOpen s).2.devAddr = s.devAddr := by
  rw [drawOpen_state s]; rfl
@[simp] theorem drawOpen_name : (drawOpen s).2.name = s.name := by
  rw [drawOpen_state s]; rfl
@[simp] theorem drawOpen_claimT : (drawOpen s).2.claimT = s.claimT := by
  rw [drawOpen_state s]; rfl
@[simp] theorem drawOpen_claimedOnce : (drawOpen s).2.claimedOnce = s.claimedOnce := by
  rw [drawOpen_state s]; rfl
@[simp] theorem drawOpen_fr : (drawOpen s).2.fr = s.fr := by
  rw [drawOpen_state s]; rfl
@[simp] theorem drawOpen_cnt : (drawOpen s).2.cnt = s.cnt := by
  rw [drawOpen_state s]; rfl
@[simp] theorem drawOpen_txLog : (drawOpen s).2.txLog = s.txLog := by
  rw [drawOpen_state s]; rfl
@[simp] theorem drawOpen_refused : (drawOpen s).2.refused = s.refused := by
  rw [drawOpen_state s]; rfl
@[simp] theorem drawOpen_cfg : (drawOpen s).2.cfg = s.cfg := by
  rw [drawOpen_state s]; rfl
@[simp] theorem drawOpen_calls : (drawOpen s).2.calls = s.calls := by
  rw [drawOpen_state s]; rfl
@[simp] theorem drawOpen_result : (drawOpen s).2.result = s.result := by
  rw [drawOpen_state s]; rfl

@[simp] theorem pollReceive_devAddr : (pollReceive s).2.devAddr = s.devAddr := by
  rw [pollReceive_state s]; rfl
@[simp] theorem pollReceive_name : (pollReceive s).2.name = s.name := by
  rw [pollReceive_state s]; rfl
@[simp] theorem pollReceive_claimT : (pollReceive s).2.claimT = s.claimT := by
  rw [pollReceive_state s]; rfl
@[simp] theorem pollReceive_claimedOnce : (pollReceive s).2.claimedOnce = s.claimedOnce := by
  rw [pollReceive_state s]; rfl
@[simp] theorem pollReceive_fr : (pollReceive s).2.fr = s.fr := by
  rw [pollReceive_state s]; rfl
@[simp] theorem pollReceive_cnt : (pollReceive s).2.cnt = s.cnt := by
  rw [pollReceive_state s]; rfl
@[simp] theorem pollReceive_txLog : (pollReceive s).2.txLog = s.txLog := by
  rw [pollReceive_state s]; rfl
@[simp] theorem pollReceive_refused : (pollReceive s).2.refused = s.refused := by
  rw [pollReceive_state s]; rfl
@[simp] theorem pollReceive_cfg : (pollReceive s).2.cfg = s.cfg := by
  rw [pollReceive_state s]; rfl
@[simp] theorem pollReceive_calls : (pollReceive s).2.calls = s.calls := by
  rw [pollReceive_state s]; rfl
@[simp] theorem pollReceive_result : (pollReceive s).2.result = s.result := by
  rw [pollReceive_state s]; rfl

@[simp] theorem drawBytes_devAddr (n : Nat) : (drawBytes n s).2.devAddr = s.devAddr := by
  rw [drawBytes_state]; rfl
@[simp] theorem drawBytes_name (n : Nat) : (drawBytes n s).2.name = s.name := by
  rw [drawBytes_state]; rfl
@[simp] theorem drawBytes_claimT (n : Nat) : (drawBytes n s).2.claimT = s.claimT := by
  rw [drawBytes_state]; rfl
@[simp] theorem drawBytes_claimedOnce (n : Nat) : (drawBytes n s).2.claimedOnce = s.claimedOnce := by
  rw [drawBytes_state]; rfl
@[simp] theorem drawBytes_fr (n : Nat) : (drawBytes n s).2.fr = s.fr := by
  rw [drawBytes_state]; rfl
@[simp] theorem drawBytes_cnt (n : Nat) : (drawBytes n s).2.cnt = s.cnt := by
  rw [drawBytes_state]; rfl
@[simp] theorem drawBytes_txLog (n : Nat) : (drawBytes n s).2.txLog = s.txLog := by
  rw [drawBytes_state]; rfl
@[simp] theorem drawBytes_refused (n : Nat) : (drawBytes n s).2.refused = s.refused := by
  rw [drawBytes_state]; rfl
@[simp] theorem drawBytes_cfg (n : Nat) : (drawBytes n s).2.cfg = s.cfg := by
  rw [drawBytes_state]; rfl
@[simp] theorem drawBytes_calls (n : Nat) : (drawBytes n s).2.calls = s.calls := by
  rw [drawBytes_state]; rfl
@[simp] theorem drawBytes_result (n : Nat) : (drawBytes n s).2.result = s.result := by
  rw [drawBytes_state]; rfl

@[simp] theorem sampleClock_devAddr (t : Option Millis) : (sampleClock t s).devAddr = s.devAddr := by
  rw [sampleClock_state]; rfl
@[simp] theorem sampleClock_name (t : Option Millis) : (sampleClock t s).name = s.name := by
  rw [sampleClock_state]; rfl
@[simp] theorem sampleClock_claimT (t : Option Millis) : (sampleClock t s).claimT = s.claimT := by
  rw [sampleClock_state]; rfl
@[simp] theorem sampleClock_claimedOnce (t : Option Millis) : (sampleClock t s).claimedOnce = s.claimedOnce := by
  rw [sampleClock_state]; rfl
@[simp] theorem sampleClock_fr (t : Option Millis) : (sampleClock t s).fr = s.fr := by
  rw [sampleClock_state]; rfl
@[simp] theorem sampleClock_cnt (t : Option Millis) : (sampleClock t s).cnt = s.cnt := by
  rw [sampleClock_state]; rfl
@[simp] theorem sampleClock_txLog (t : Option Millis) : (sampleClock t s).txLog = s.txLog := by
  rw [sampleClock_state]; rfl
@[simp] theorem sampleClock_refused (t : Option Millis) : (sampleClock t s).refused = s.refused := by
  rw [sampleClock_state]; rfl
@[simp] theorem sampleClock_cfg (t : Option Millis) : (sampleClock t s).cfg = s.cfg := by
  rw [sampleClock_state]; rfl
@[simp] theorem sampleClock_calls (t : Option Millis) : (sampleClock t s).calls = s.calls := by
  rw [sampleClock_state]; rfl
@[simp] theorem sampleClock_result (t : Option Millis) : (sampleClock t s).result = s.result := by
  rw [sampleClock_state]; rfl

@[simp] theorem wait_devAddr (ms : Nat) : (wait ms s).devAddr = s.devAddr := rfl
@[simp] theorem wait_name (ms : Nat) : (wait ms s).name = s.name := rfl
@[simp] theorem wait_claimT (ms : Nat) : (wait ms s).claimT = s.claimT := rfl
@[simp] theorem wait_claimedOnce (ms : Nat) : (wait ms s).claimedOnce = s.claimedOnce := rfl
@[simp] theorem wait_fr (ms : Nat) : (wait ms s).fr = s.fr := rfl
@[simp] theorem wait_cnt (ms : Nat) : (wait ms s).cnt = s.cnt := rfl
@[simp] theorem wait_txLog (ms : Nat) : (wait ms s).txLog = s.txLog := rfl
@[simp] theorem wait_refused (ms : Nat) : (wait ms s).refused = s.refused := rfl
@[simp] theorem wait_cfg (ms : Nat) : (wait ms s).cfg = s.cfg := rfl
@[simp] theorem wait_calls (ms : Nat) : (wait ms s).calls = s.calls := rfl
@[simp] theorem wait_result (ms : Nat) : (wait ms s).result = s.result := rfl

/-! ### Counters -/

@[simp] theorem countRx_devAddr : (countRx s).devAddr = s.devAddr := rfl
@[simp] theorem countRx_name : (countRx s).name = s.name := rfl
@[simp] theorem countRx_claimT : (countRx s).claimT = s.claimT := rfl
@[simp] theorem countRx_claimedOnce : (countRx s).claimedOnce = s.claimedOnce := rfl
@[simp] theorem countRx_fr : (countRx s).fr = s.fr := rfl
@[simp] theorem countRx_txLog : (countRx s).txLog = s.txLog := rfl
@[simp] theorem countRx_refused : (countRx s).refused = s.refused := rfl
@[simp] theorem countRx_cfg : (countRx s).cfg = s.cfg := rfl
@[simp] theorem countRx_calls : (countRx s).calls = s.calls := rfl
@[simp] theorem countRx_result : (countRx s).result = s.result := rfl
@[simp] theorem countRx_world : (countRx s).world = s.world := rfl

@[simp] theorem countDrop_devAddr : (countDrop s).devAddr = s.devAddr := rfl
@[simp] theorem countDrop_name : (countDrop s).name = s.name := rfl
@[simp] theorem countDrop_claimT : (countDrop s).claimT = s.claimT := rfl
@[simp] theorem countDrop_claimedOnce : (countDrop s).claimedOnce = s.claimedOnce := rfl
@[simp] theorem countDrop_fr : (countDrop s).fr = s.fr := rfl
@[simp] theorem countDrop_txLog : (countDrop s).txLog = s.txLog := rfl
@[simp] theorem countDrop_refused : (countDrop s).refused = s.refused := rfl
@[simp] theorem countDrop_cfg : (countDrop s).cfg = s.cfg := rfl
@[simp] theorem countDrop_calls : (countDrop s).calls = s.calls := rfl
@[simp] theorem countDrop_result : (countDrop s).result = s.result := rfl
@[simp] theorem countDrop_world : (countDrop s).world = s.world := rfl

@[simp] theorem countFrameErr_devAddr : (countFrameErr s).devAddr = s.devAddr := rfl
@[simp] theorem countFrameErr_name : (countFrameErr s).name = s.name := rfl
@[simp] theorem countFrameErr_claimT : (countFrameErr s).claimT = s.claimT := rfl
@[simp] theorem countFrameErr_claimedOnce : (countFrameErr s).claimedOnce = s.claimedOnce := rfl
@[simp] theorem countFrameErr_fr : (countFrameErr s).fr = s.fr := rfl
@[simp] theorem countFrameErr_txLog : (countFrameErr s).txLog = s.txLog := rfl
@[simp] theorem countFrameErr_refused : (countFrameErr s).refused = s.refused := rfl
@[simp] theorem countFrameErr_cfg : (countFrameErr s).cfg = s.cfg := rfl
@[simp] theorem countFrameErr_calls : (countFrameErr s).calls = s.calls := rfl
@[simp] theorem countFrameErr_result : (countFrameErr s).result = s.result := rfl
@[simp] theorem countFrameErr_world : (countFrameErr s).world = s.world := rfl

@[simp] theorem countPacketErr_devAddr : (countPacketErr s).devAddr = s.devAddr := rfl
@[simp] theorem countPacketErr_name : (countPacketErr s).name = s.name := rfl
@[simp] theorem countPacketErr_claimT : (countPacketErr s).claimT = s.claimT := rfl
@[simp] theorem countPacketErr_claimedOnce : (countPacketErr s).claimedOnce = s.claimedOnce := rfl
@[simp] theorem countPacketErr_fr : (countPacketErr s).fr = s.fr := rfl
@[simp] theorem countPacketErr_txLog : (countPacketErr s).txLog = s.txLog := rfl
@[simp] theorem countPacketErr_refused : (countPacketErr s).refused = s.refused := rfl
@[simp] theorem countPacketErr_cfg : (countPacketErr s).cfg = s.cfg := rfl
@[simp] theorem countPacketErr_calls : (countPacketErr s).calls = s.calls := rfl
@[simp] theorem countPacketErr_result : (countPacketErr s).result = s.result := rfl
@[simp] theorem countPacketErr_world : (countPacketErr s).world = s.world := rfl

/-! ### The frame buffer (R53) -/

section Buffer

variable (i j : Nat) (b : Byte) (buf : Vector Byte 8)

/-- A byte written inside the buffer is read back. -/
theorem bufWrite_same (h : i < 8) : (bufWrite i b buf).toList[i]? = some b := by
  simp [bufWrite, h, Vector.toList]

/-- A write leaves every other index as it was (R53). -/
theorem bufWrite_other (h : i ≠ j) : (bufWrite i b buf).toList[j]? = buf.toList[j]? := by
  simp [bufWrite, Vector.toList, h]

theorem bufWrite_toList : (bufWrite i b buf).toList = buf.toList.set i b := by
  simp [bufWrite, Vector.toList]

theorem bufFront_length (h : i ≤ 8) : (bufFront i buf).length = i := by
  simp [bufFront, h]

theorem bufFront_length_le : (bufFront i buf).length ≤ 8 := by
  simp [bufFront]

/-- An append at the end of the front lengthens it by that byte. -/
theorem bufFront_bufWrite (h : i < 8) :
    bufFront (i + 1) (bufWrite i b buf) = bufFront i buf ++ [b] := by
  rw [bufFront, bufWrite_toList, bufFront, List.take_add_one]
  congr 1
  · exact List.take_set_of_le (Nat.le_refl i)
  · simp [h]

end Buffer

/-! ### Transmission (R55) -/

@[simp] theorem transmit_zero (bs : List Byte) : transmit 0#29 bs s = s := if_pos rfl

/-- What a transmission does when the identifier is not 0 (R55). -/
theorem transmit_of_ne_zero {id : CanId} (h : id ≠ 0) (bs : List Byte) : transmit id bs s =
    (((drawSend s).2.setTxLog (s.txLog ++ [{ id := id, data := bs, ok := (drawSend s).1 }])).setCnt
      (countSend (drawSend s).1 s.cnt)) := if_neg h

/-- A transmission changes only the log, the counters and the transport's answers. -/
theorem transmit_state (id : CanId) (bs : List Byte) : transmit id bs s =
    ((s.setCnt (transmit id bs s).cnt).setTxLog (transmit id bs s).txLog).setWorld
      (s.world.afterSends (transmit id bs s)) := by
  by_cases h : id = 0
  · subst h; rfl
  · rw [transmit_of_ne_zero s h, drawSend_state]
    rfl

@[simp] theorem transmit_devAddr (id : CanId) (bs : List Byte) : (transmit id bs s).devAddr = s.devAddr := by
  rw [transmit_state]; rfl
@[simp] theorem transmit_name (id : CanId) (bs : List Byte) : (transmit id bs s).name = s.name := by
  rw [transmit_state]; rfl
@[simp] theorem transmit_claimT (id : CanId) (bs : List Byte) : (transmit id bs s).claimT = s.claimT := by
  rw [transmit_state]; rfl
@[simp] theorem transmit_claimedOnce (id : CanId) (bs : List Byte) : (transmit id bs s).claimedOnce = s.claimedOnce := by
  rw [transmit_state]; rfl
@[simp] theorem transmit_fr (id : CanId) (bs : List Byte) : (transmit id bs s).fr = s.fr := by
  rw [transmit_state]; rfl
@[simp] theorem transmit_refused (id : CanId) (bs : List Byte) : (transmit id bs s).refused = s.refused := by
  rw [transmit_state]; rfl
@[simp] theorem transmit_cfg (id : CanId) (bs : List Byte) : (transmit id bs s).cfg = s.cfg := by
  rw [transmit_state]; rfl
@[simp] theorem transmit_calls (id : CanId) (bs : List Byte) : (transmit id bs s).calls = s.calls := by
  rw [transmit_state]; rfl
@[simp] theorem transmit_result (id : CanId) (bs : List Byte) : (transmit id bs s).result = s.result := by
  rw [transmit_state]; rfl

theorem transmit_txLog (id : CanId) (bs : List Byte) : (transmit id bs s).txLog =
    s.txLog ++ (if id = 0 then [] else [{ id := id, data := bs, ok := (drawSend s).1 }]) := by
  by_cases h : id = 0
  · subst h; rw [if_pos rfl, List.append_nil]; rfl
  · rw [transmit_of_ne_zero s h, if_neg h]; rfl

theorem transmit_cnt (id : CanId) (bs : List Byte) : (transmit id bs s).cnt =
    if id = 0 then s.cnt else countSend (drawSend s).1 s.cnt := by
  by_cases h : id = 0
  · subst h; rw [if_pos rfl]; rfl
  · rw [transmit_of_ne_zero s h, if_neg h]; rfl

/-- A transmission is a send. -/
theorem transmit_sendsOnly (id : CanId) (bs : List Byte) : SendsOnly s (transmit id bs s) := by
  rw [SendsOnly]
  conv_lhs => rw [transmit_state]
  simp only [transmit_fr]
  rfl

/-! ### Sends compose -/

theorem SendsOnly.refl : SendsOnly s s := rfl

theorem SendsOnly.trans {s t u : State} (h1 : SendsOnly s t) (h2 : SendsOnly t u) :
    SendsOnly s u := by
  rw [SendsOnly] at *
  rw [h2, h1]
  rfl

theorem SendsOnly.devAddr {s t : State} (h : SendsOnly s t) : t.devAddr = s.devAddr := by
  rw [h]; rfl
theorem SendsOnly.name {s t : State} (h : SendsOnly s t) : t.name = s.name := by
  rw [h]; rfl
theorem SendsOnly.claimT {s t : State} (h : SendsOnly s t) : t.claimT = s.claimT := by
  rw [h]; rfl
theorem SendsOnly.claimedOnce {s t : State} (h : SendsOnly s t) : t.claimedOnce = s.claimedOnce := by
  rw [h]; rfl
theorem SendsOnly.refused {s t : State} (h : SendsOnly s t) : t.refused = s.refused := by
  rw [h]; rfl
theorem SendsOnly.cfg {s t : State} (h : SendsOnly s t) : t.cfg = s.cfg := by
  rw [h]; rfl
theorem SendsOnly.calls {s t : State} (h : SendsOnly s t) : t.calls = s.calls := by
  rw [h]; rfl
theorem SendsOnly.result {s t : State} (h : SendsOnly s t) : t.result = s.result := by
  rw [h]; rfl

theorem SendsOnly.now {s t : State} (h : SendsOnly s t) : now t = now s := by
  rw [h]; rfl

/-- A change of the packet in progress is one a send may make. -/
theorem SendsOnly.setFr (f : Framer) : SendsOnly s (s.setFr f) := rfl

/-- A change of the counters is one a send may make. -/
theorem SendsOnly.setCnt (c : Counters) : SendsOnly s (s.setCnt c) := rfl

end Sys2Proof.Machine
end

