-- ==== Sys2Proof/Laws/Codecs.lean ====
section
/-! SUPPORT. What the identifier codec and the numeric codec compute, as arithmetic on numbers. -/

set_option Elab.async false

namespace Sys2Proof.Machine

/-! ### Bits as numbers -/

theorem toNat_ite {w : Nat} (c : Prop) [Decidable c] (a b : BitVec w) :
    (if c then a else b).toNat = if c then a.toNat else b.toNat := by
  split <;> rfl

theorem toNat_append_add {m n : Nat} (a : BitVec m) (b : BitVec n) :
    (a ++ b).toNat = a.toNat * 2 ^ n + b.toNat := by
  rw [BitVec.toNat_append, ← Nat.shiftLeft_add_eq_or_of_lt b.isLt, Nat.shiftLeft_eq]

theorem idPf_toNat (id : CanId) : (idPf id).toNat = id.toNat / 2 ^ 16 % 256 := by
  simp [idPf, Nat.shiftRight_eq_div_pow]

theorem pgnPf_toNat (pgn : Pgn24) : (pgnPf pgn).toNat = pgn.toNat / 2 ^ 8 % 256 := by
  simp [pgnPf, Nat.shiftRight_eq_div_pow]

/-! ### The identifier codec (R90 to R92) -/

/-- The PGN of an identifier as a number (R90). -/
theorem pgnOf_toNat (id : CanId) : (pgnOf id).toNat =
    id.toNat / 2 ^ 24 % 2 * 2 ^ 16 + id.toNat / 2 ^ 16 % 256 * 2 ^ 8 +
      (if id.toNat / 2 ^ 16 % 256 < 240 then 0 else id.toNat / 2 ^ 8 % 256) := by
  simp only [pgnOf, isPdu1, toNat_append_add, idPf_toNat, toNat_ite, idPs, idDp,
    BitVec.extractLsb'_toNat, Nat.shiftRight_eq_div_pow, decide_eq_true_eq]
  split <;> simp
  omega

/-- The other fields of an identifier as numbers (R91). -/
theorem decodeId_toNat (id : CanId) :
    (decodeId id).prio.toNat = id.toNat / 2 ^ 26 ∧
    (decodeId id).src.toNat = id.toNat % 256 ∧
    (decodeId id).dst.toNat =
      (if id.toNat / 2 ^ 16 % 256 < 240 then id.toNat / 2 ^ 8 % 256 else 255) := by
  refine ⟨?_, ?_, ?_⟩
  · have := id.isLt
    simp [decodeId, Nat.shiftRight_eq_div_pow]
    omega
  · simp [decodeId]
  · simp only [decodeId, isPdu1, idPf_toNat, decide_eq_true_eq, toNat_ite]
    simp [idPs, Nat.shiftRight_eq_div_pow]

/-- The identifier of encodable fields as a number (R92). -/
theorem packId_toNat (pgn : Pgn24) (prio : Prio) (src dst : Addr) (h : pgn.toNat < 2 ^ 17)
    (hl : pgn.toNat / 2 ^ 8 % 256 < 240 → pgn.toNat % 256 = 0) :
    (packId pgn prio src dst).toNat = prio.toNat * 2 ^ 26 + pgn.toNat * 2 ^ 8 +
      (if pgn.toNat / 2 ^ 8 % 256 < 240 then dst.toNat * 2 ^ 8 else 0) + src.toNat := by
  have h1 := prio.isLt
  have h2 := src.isLt
  have h3 := dst.isLt
  have hprio : (prio.setWidth 29 <<< 26).toNat = prio.toNat * 2 ^ 26 := by
    simp [Nat.shiftLeft_eq]; omega
  have hpgn : (pgn.setWidth 29 <<< 8).toNat = pgn.toNat * 2 ^ 8 := by
    simp [Nat.shiftLeft_eq]; omega
  have hbase : (prio.setWidth 29 <<< 26 ||| pgn.setWidth 29 <<< 8).toNat =
      prio.toNat * 2 ^ 26 + pgn.toNat * 2 ^ 8 := by
    rw [BitVec.toNat_or, hprio, hpgn, ← Nat.shiftLeft_eq,
      ← Nat.shiftLeft_add_eq_or_of_lt (by omega)]
  have hdst : (dst.setWidth 29 <<< 8).toNat = dst.toNat * 2 ^ 8 := by
    simp [Nat.shiftLeft_eq]; omega
  have hsrc : (src.setWidth 29).toNat = src.toNat := by simp; omega
  simp only [packId, isPdu1, pgnPf_toNat, decide_eq_true_eq]
  split
  · next hp =>
    have hz := hl hp
    have e1 : prio.toNat * 2 ^ 26 + pgn.toNat * 2 ^ 8 =
        (prio.toNat * 2 ^ 10 + pgn.toNat / 256) <<< 16 := by rw [Nat.shiftLeft_eq]; omega
    have e2 : prio.toNat * 2 ^ 26 + pgn.toNat * 2 ^ 8 + dst.toNat * 2 ^ 8 =
        (prio.toNat * 2 ^ 18 + pgn.toNat + dst.toNat) <<< 8 := by rw [Nat.shiftLeft_eq]; ring
    have e3 : prio.toNat * 2 ^ 26 + pgn.toNat * 2 ^ 8 ||| dst.toNat * 2 ^ 8 =
        prio.toNat * 2 ^ 26 + pgn.toNat * 2 ^ 8 + dst.toNat * 2 ^ 8 := by
      rw [e1, ← Nat.shiftLeft_add_eq_or_of_lt (by omega)]
    rw [BitVec.toNat_or, BitVec.toNat_or, hbase, hdst, hsrc, e3, e2,
      ← Nat.shiftLeft_add_eq_or_of_lt (by omega)]
  · have e : prio.toNat * 2 ^ 26 + pgn.toNat * 2 ^ 8 =
        (prio.toNat * 2 ^ 18 + pgn.toNat) <<< 8 := by rw [Nat.shiftLeft_eq]; omega
    rw [BitVec.toNat_or, hbase, hsrc, e, ← Nat.shiftLeft_add_eq_or_of_lt (by omega), Nat.add_zero]

/-- When the encoding of an identifier fails (R92, R93). -/
theorem encFails_iff (pgn : Pgn24) :
    encFails pgn = true ↔ pgn.toNat / 2 ^ 8 % 256 < 240 ∧ pgn.toNat % 256 ≠ 0 := by
  have hz : pgn.extractLsb' 0 8 = 0 ↔ pgn.toNat % 256 = 0 := by
    rw [← BitVec.toNat_inj]; simp
  simp only [encFails, isPdu1, pgnPf_toNat, ne_eq, hz, Bool.and_eq_true, decide_eq_true_eq]

/-- Everything `Encode` can answer (R89, R92). -/
theorem encodeId_eq_ok {pgn : Pgn24} {prio : Prio} {src dst : Addr} {r : CanId × Bool} :
    encodeId pgn prio src dst = .ok r ↔ pgn.toNat < 2 ^ 17 ∧
      r = if encFails pgn then (0, true) else (packId pgn prio src dst, false) := by
  rw [encodeId]
  split
  · simp; omega
  · split <;> simp [eq_comm] <;> omega

/-- `Encode` refuses a wide PGN and nothing else, and a failed encoding gives identifier 0. -/
theorem encodeId_cases (pgn : Pgn24) (prio : Prio) (src dst : Addr) :
    (2 ^ 17 ≤ pgn.toNat ∧ encodeId pgn prio src dst = .error .pgnTooWide) ∨
    (pgn.toNat < 2 ^ 17 ∧ ∃ id encFail, encodeId pgn prio src dst = .ok (id, encFail) ∧
      (encFail = true → id = 0)) := by
  rw [encodeId]
  split
  · exact .inl ⟨‹_›, rfl⟩
  · split
    · exact .inr ⟨by omega, _, _, rfl, fun _ => rfl⟩
    · exact .inr ⟨by omega, _, _, rfl, by simp⟩

/-! ### ROUND (R99) -/

/-- ROUND is within one half of its argument. -/
theorem roundRat_near (x : Rat) : |(roundRat x : Rat) - x| ≤ 1 / 2 := by
  have h1 : (x.floor : Rat) ≤ x := Rat.floor_le x
  have h2 : x < x.floor + 1 := by exact_mod_cast Rat.lt_floor_add_one x
  rw [roundRat, abs_le]
  split
  · constructor <;> linarith
  · split
    · push_cast; constructor <;> linarith
    · split
      · push_cast; constructor <;> linarith
      · constructor <;> linarith

/-- ROUND is exact on integers. -/
theorem roundRat_intCast (n : Int) : roundRat (n : Rat) = n := by
  rw [roundRat, Rat.floor_intCast]; simp

/-! ### Fields (R97 to R104) -/

theorem fieldRow_width (k : NumKind) : (fieldRow k).1 = kindWidth k := by cases k <;> rfl

theorem fieldRow_lo (k : NumKind) : (fieldRow k).2.1 = kindLo k := by cases k <;> rfl

theorem fieldRow_naRaw (k : NumKind) : (fieldRow k).2.2 = kindNaRaw k := by cases k <;> rfl

theorem naPattern_eq (k : NumKind) : naPattern k = rawBytes k (kindNaRaw k) := by cases k <;> rfl

theorem rawBytes_length (k : NumKind) (n : Int) : (rawBytes k n).length = kindWidth k := by
  simp [rawBytes]

/-- The number that the bytes of a raw value assemble to. -/
theorem leNat_rawBytes (k : NumKind) (n : Int) :
    (leNat (rawBytes k n) : Int) = n % 2 ^ (8 * kindWidth k) := by
  have h : (256 : Nat) ^ kindWidth k = 2 ^ (8 * kindWidth k) := by rw [pow_mul]; rfl
  have hp : (0 : Int) < 2 ^ (8 * kindWidth k) := by positivity
  have h0 := Int.emod_nonneg n (ne_of_gt hp)
  have h1 := Int.emod_lt_of_pos n hp
  rw [rawBytes, leNat_leBytes_of_lt]
  · exact Int.toNat_of_nonneg h0
  · have h2 : ((n % 2 ^ (8 * kindWidth k)).toNat : Int) <
        ((2 ^ (8 * kindWidth k) : Nat) : Int) := by
      rw [Int.toNat_of_nonneg h0]; exact_mod_cast h1
    rw [h]
    exact_mod_cast h2

/-- EncodeNum of a value other than `NA_VALUE` with a positive precision (R100 to R102). -/
theorem encodeNum_pos {k : NumKind} {value prec : NumOperand} {c : Config}
    (h : numValue c value ≠ c.naValue) (hp : 0 < numValue c prec) :
    encodeNum k value prec c =
      if kindNaRaw k ≤ roundRat (numValue c value / numValue c prec) then
        .ok (rawBytes k (kindNaRaw k - 1))
      else if roundRat (numValue c value / numValue c prec) < kindLo k then .error .belowRange
      else .ok (rawBytes k (roundRat (numValue c value / numValue c prec))) := by
  rw [encodeNum, if_neg h, if_neg (not_le.mpr hp)]

/-- The number of a raw value in its kind's range is read back from its bytes. -/
theorem fieldValue_rawBytes (k : NumKind) (n : Int) (h1 : kindLo k ≤ n) (h2 : n ≤ kindNaRaw k) :
    fieldValue k (rawBytes k n) = n := by
  have e := leNat_rawBytes k n
  simp only [fieldValue, Bool.and_eq_true, decide_eq_true_eq]
  generalize leNat (rawBytes k n) = u at *
  cases k <;> simp [kindSigned, kindWidth, kindLo, kindNaRaw] at * <;>
    omega

/-! ### The command of a kind -/

theorem exec_numEncInstr (k : NumKind) (value prec : NumOperand) (s : State) :
    exec (numEncInstr k value prec) s = encodeCommand k value prec s := by
  cases k <;> rfl

theorem exec_numDecInstr (k : NumKind) (raw : Vector Byte (kindWidth k)) (prec : NumOperand)
    (s : State) : exec (numDecInstr k raw prec) s = decodeCommand k raw.toList prec s := by
  cases k <;> rfl

theorem exec_outNumInstr (k : NumKind) (value prec : NumOperand) (s : State) :
    exec (outNumInstr k value prec) s = done (outNum k value prec s) := by
  cases k <;> rfl

end Sys2Proof.Machine
end

