-- ==== Sys2Proof/Laws/Framer.lean ====
section
/-! SUPPORT. What the framer's operations can do: one case lemma for an append, and the fields that a start, an append and a finish leave. -/

set_option Elab.async false

namespace Sys2Proof.Machine

variable {s t : State} {b : Byte} {bs : List Byte}

/-! ### Appends (R123 to R126) -/

/-- The state after an append in FAST mode that does not fill the buffer (R123). -/
def fastPut (b : Byte) (s : State) : State :=
  s.setFr { putByte b s.fr with written := s.fr.written + 1 }

theorem appendByte_single (h : s.fr.mode = .single) : appendByte b s =
    if s.fr.off = 8 then .next (countFrameErr s) else .next (s.setFr (putByte b s.fr)) := by
  rw [appendByte, h]

theorem appendByte_fast (h : s.fr.mode = .fast) : appendByte b s =
    if s.fr.written = s.fr.total then .refused .fastOverrun
    else if s.fr.off + 1 = 8 then .next (flush (fastPut b s)) else .next (fastPut b s) := by
  rw [appendByte, h]; rfl

/-- Everything an append that completes can do (R123). -/
theorem appendByte_cases (h : appendByte b s = .next t) :
    (s.fr.mode = .single ∧ s.fr.off = 8 ∧ t = countFrameErr s) ∨
    (s.fr.mode = .single ∧ s.fr.off ≠ 8 ∧ t = s.setFr (putByte b s.fr)) ∨
    (s.fr.mode = .fast ∧ s.fr.written ≠ s.fr.total ∧ s.fr.off + 1 ≠ 8 ∧ t = fastPut b s) ∨
    (s.fr.mode = .fast ∧ s.fr.written ≠ s.fr.total ∧ s.fr.off + 1 = 8 ∧ t = flush (fastPut b s)) := by
  cases hm : s.fr.mode with
  | idle => rw [appendByte, hm] at h; cases h
  | single =>
    rw [appendByte_single hm] at h
    split at h
    · exact .inl ⟨rfl, ‹_›, (Host.Outcome.next.inj h).symm⟩
    · exact .inr (.inl ⟨rfl, ‹_›, (Host.Outcome.next.inj h).symm⟩)
  | fast =>
    rw [appendByte_fast hm] at h
    split at h
    · cases h
    · split at h
      · exact .inr (.inr (.inr ⟨rfl, ‹_›, ‹_›, (Host.Outcome.next.inj h).symm⟩))
      · exact .inr (.inr (.inl ⟨rfl, ‹_›, ‹_›, (Host.Outcome.next.inj h).symm⟩))

theorem flush_sendsOnly (s : State) : SendsOnly s (flush s) := by
  exact (transmit_sendsOnly s _ _).trans (SendsOnly.setFr _ _)

@[simp] theorem flush_fr (s : State) : (flush s).fr = nextFrame s.fr := rfl

/-- An append is a send. -/
theorem appendByte_sendsOnly (h : appendByte b s = .next t) : SendsOnly s t := by
  rcases appendByte_cases h with ⟨-, -, rfl⟩ | ⟨-, -, rfl⟩ | ⟨-, -, -, rfl⟩ | ⟨-, -, -, rfl⟩
  · rfl
  · rfl
  · rfl
  · exact SendsOnly.trans (t := fastPut b s) rfl (flush_sendsOnly _)

/-- An append leaves the mode, the identifier, the sequence number and the declared total. -/
theorem appendByte_fixed (h : appendByte b s = .next t) :
    t.fr.mode = s.fr.mode ∧ t.fr.id = s.fr.id ∧ t.fr.seq = s.fr.seq ∧ t.fr.total = s.fr.total := by
  rcases appendByte_cases h with ⟨-, -, rfl⟩ | ⟨-, -, rfl⟩ | ⟨-, -, -, rfl⟩ | ⟨-, -, -, rfl⟩ <;>
    exact ⟨rfl, rfl, rfl, rfl⟩

@[simp] theorem appendAll_nil (s : State) : appendAll [] s = .next s := rfl

@[simp] theorem appendAll_cons (b : Byte) (bs : List Byte) (s : State) :
    appendAll (b :: bs) s = andThen (appendByte b s) (appendAll bs) := rfl

theorem appendAll_append (as bs : List Byte) (s : State) :
    appendAll (as ++ bs) s = andThen (appendAll as s) (appendAll bs) := by
  induction as generalizing s with
  | nil => rfl
  | cons a as ih =>
    rw [List.cons_append, appendAll_cons, appendAll_cons, andThen_assoc]
    congr 1
    funext s'
    exact ih s'

/-- A property of an append that holds over any number of them. -/
theorem appendAll_induction {P : State → State → Prop} (refl : ∀ s, P s s)
    (step : ∀ {b s t u}, appendByte b s = .next t → P t u → P s u)
    (h : appendAll bs s = .next t) : P s t := by
  induction bs generalizing s with
  | nil => cases h; exact refl _
  | cons b bs ih =>
    obtain ⟨m, h1, h2⟩ := andThen_eq_next.mp h
    exact step h1 (ih h2)

/-- Appends are sends. -/
theorem appendAll_sendsOnly (h : appendAll bs s = .next t) : SendsOnly s t :=
  appendAll_induction SendsOnly.refl (fun h1 h2 => (appendByte_sendsOnly h1).trans h2) h

/-- Appends leave the mode, the identifier, the sequence number and the declared total. -/
theorem appendAll_fixed (h : appendAll bs s = .next t) :
    t.fr.mode = s.fr.mode ∧ t.fr.id = s.fr.id ∧ t.fr.seq = s.fr.seq ∧ t.fr.total = s.fr.total :=
  appendAll_induction (P := fun s t => t.fr.mode = s.fr.mode ∧ t.fr.id = s.fr.id ∧
      t.fr.seq = s.fr.seq ∧ t.fr.total = s.fr.total) (fun _ => ⟨rfl, rfl, rfl, rfl⟩)
    (fun h1 h2 => by
      have h3 := appendByte_fixed h1
      exact ⟨h2.1.trans h3.1, h2.2.1.trans h3.2.1, h2.2.2.1.trans h3.2.2.1, h2.2.2.2.trans h3.2.2.2⟩) h

/-- An output with a packet in progress is its appends. -/
theorem outBytes_of_busy (h : s.fr.mode ≠ .idle) : outBytes bs s = appendAll bs s := if_neg h

/-! ### Starts (R128, R129) -/

/-- When a single packet can be started, and what that does. -/
theorem startSingle_eq_next {pgn : Pgn24} {prio : Prio} {src dst : Addr} :
    startSingle pgn prio src dst s = .next t ↔
      s.fr.mode = .idle ∧ ∃ r, encodeId pgn prio src dst = .ok r ∧
        t = s.setFr { s.fr with id := r.1, off := 0, mode := .single } := by
  rw [startSingle]
  by_cases hm : s.fr.mode = .idle
  · rw [if_neg (by simpa using hm), withValue_eq_next]
    simp [hm, eq_comm]
  · rw [if_pos hm]
    simp [hm]

/-- When a fast packet can be started, and what that does. -/
theorem startFast_eq_next {pgn : Pgn24} {prio : Prio} {src dst : Addr} {total : Byte} :
    startFast pgn prio src dst total s = .next t ↔
      s.fr.mode = .idle ∧ total.toNat ≤ 223 ∧ ∃ r, encodeId pgn prio src dst = .ok r ∧
        t = s.setFr (fastStarted r.1 total s.fr) := by
  rw [startFast]
  by_cases hm : s.fr.mode = .idle
  · rw [if_neg (by simpa using hm)]
    by_cases ht : total.toNat ≤ 223
    · rw [if_neg (by simpa [fastMaxLen] using ht), withValue_eq_next]
      simp [hm, ht, eq_comm]
    · rw [if_pos (by simpa [fastMaxLen] using ht)]
      simp [ht]
  · rw [if_pos hm]
    simp [hm]

/-! ### Finishes (R143, R144) -/

theorem goIdle_sendsOnly (s : State) : SendsOnly s (goIdle s) := rfl

/-- Everything a single finish that completes can do (R143). -/
theorem finishSingle_cases (h : finishSingle s = .next t) :
    (s.fr.mode = .fast ∧ t = countPacketErr s) ∨
    (s.fr.mode = .single ∧ s.fr.off.toNat = 0 ∧ t = goIdle s) ∨
    (s.fr.mode = .single ∧ 0 < s.fr.off.toNat ∧
      t = goIdle (transmit s.fr.id (bufFront s.fr.off.toNat s.fr.buf) s)) := by
  rw [finishSingle] at h
  split at h
  · cases h
  · exact .inl ⟨‹_›, (Host.Outcome.next.inj h).symm⟩
  · split at h
    · exact .inr (.inr ⟨‹_›, ‹_›, (Host.Outcome.next.inj h).symm⟩)
    · exact .inr (.inl ⟨‹_›, Nat.eq_zero_of_not_pos ‹_›, (Host.Outcome.next.inj h).symm⟩)

/-- Everything a fast finish that completes can do (R144). -/
theorem finishFast_cases (h : finishFast s = .next t) :
    (s.fr.mode = .single ∧ t = countPacketErr s) ∨
    (s.fr.mode = .fast ∧ s.fr.total.toNat ≤ s.fr.written.toNat ∧ s.fr.off.toNat ≤ 1 ∧
      t = goIdle s) ∨
    (s.fr.mode = .fast ∧ s.fr.total.toNat ≤ s.fr.written.toNat ∧ 1 < s.fr.off.toNat ∧
      t = goIdle (transmit s.fr.id (residualFrame s.cfg.fpPad s.fr) s)) := by
  rw [finishFast] at h
  split at h
  · cases h
  · exact .inl ⟨‹_›, (Host.Outcome.next.inj h).symm⟩
  · split at h
    · cases h
    · split at h
      · exact .inr (.inr ⟨‹_›, Nat.le_of_not_lt ‹_›, ‹_›, (Host.Outcome.next.inj h).symm⟩)
      · exact .inr (.inl ⟨‹_›, Nat.le_of_not_lt ‹_›, Nat.le_of_not_lt ‹_›,
          (Host.Outcome.next.inj h).symm⟩)

theorem finishSingle_sendsOnly (h : finishSingle s = .next t) : SendsOnly s t := by
  rcases finishSingle_cases h with ⟨-, rfl⟩ | ⟨-, -, rfl⟩ | ⟨-, -, rfl⟩
  · rfl
  · rfl
  · exact (transmit_sendsOnly s _ _).trans (goIdle_sendsOnly _)

theorem finishFast_sendsOnly (h : finishFast s = .next t) : SendsOnly s t := by
  rcases finishFast_cases h with ⟨-, rfl⟩ | ⟨-, -, -, rfl⟩ | ⟨-, -, -, rfl⟩
  · rfl
  · rfl
  · exact (transmit_sendsOnly s _ _).trans (goIdle_sendsOnly _)

/-! ### Whole packets -/

/-- A whole single packet is a start, appends and a finish. -/
theorem sendSingle_eq_next {pgn : Pgn24} {prio : Prio} {src dst : Addr} :
    sendSingle pgn prio src dst bs s = .next t ↔ ∃ m n, startSingle pgn prio src dst s = .next m ∧
      outBytes bs m = .next n ∧ finishSingle n = .next t := by
  simp only [sendSingle, andThen_eq_next]
  constructor
  · rintro ⟨m, h1, n, h2, h3⟩; exact ⟨m, n, h1, h2, h3⟩
  · rintro ⟨m, n, h1, h2, h3⟩; exact ⟨m, h1, n, h2, h3⟩

/-- A whole fast packet is a start, appends and a finish. -/
theorem sendFast_eq_next {pgn : Pgn24} {prio : Prio} {src dst : Addr} {total : Byte} :
    sendFast pgn prio src dst total bs s = .next t ↔
      ∃ m n, startFast pgn prio src dst total s = .next m ∧
        outBytes bs m = .next n ∧ finishFast n = .next t := by
  simp only [sendFast, andThen_eq_next]
  constructor
  · rintro ⟨m, h1, n, h2, h3⟩; exact ⟨m, n, h1, h2, h3⟩
  · rintro ⟨m, n, h1, h2, h3⟩; exact ⟨m, h1, n, h2, h3⟩

/-- A single packet while a packet is in progress is refused (R121). -/
theorem sendSingle_of_busy {pgn : Pgn24} {prio : Prio} {src dst : Addr}
    (h : s.fr.mode ≠ .idle) : sendSingle pgn prio src dst bs s = .refused .packetInProgress := by
  rw [sendSingle, startSingle, if_pos h]
  rfl

/-- A fast packet while a packet is in progress is refused (R121). -/
theorem sendFast_of_busy {pgn : Pgn24} {prio : Prio} {src dst : Addr} {total : Byte}
    (h : s.fr.mode ≠ .idle) : sendFast pgn prio src dst total bs s = .refused .packetInProgress := by
  rw [sendFast, startFast, if_pos h]
  rfl

theorem startSingle_sendsOnly {pgn : Pgn24} {prio : Prio} {src dst : Addr}
    (h : startSingle pgn prio src dst s = .next t) : SendsOnly s t := by
  obtain ⟨-, r, -, rfl⟩ := startSingle_eq_next.mp h
  rfl

theorem startFast_sendsOnly {pgn : Pgn24} {prio : Prio} {src dst : Addr} {total : Byte}
    (h : startFast pgn prio src dst total s = .next t) : SendsOnly s t := by
  obtain ⟨-, -, r, -, rfl⟩ := startFast_eq_next.mp h
  rfl

theorem outBytes_sendsOnly (h : outBytes bs s = .next t) : SendsOnly s t := by
  rw [outBytes] at h
  split at h
  · cases h
  · exact appendAll_sendsOnly h

/-- A whole single packet is a send. -/
theorem sendSingle_sendsOnly {pgn : Pgn24} {prio : Prio} {src dst : Addr}
    (h : sendSingle pgn prio src dst bs s = .next t) : SendsOnly s t := by
  obtain ⟨m, n, h1, h2, h3⟩ := sendSingle_eq_next.mp h
  exact ((startSingle_sendsOnly h1).trans (outBytes_sendsOnly h2)).trans (finishSingle_sendsOnly h3)

/-- A whole fast packet is a send. -/
theorem sendFast_sendsOnly {pgn : Pgn24} {prio : Prio} {src dst : Addr} {total : Byte}
    (h : sendFast pgn prio src dst total bs s = .next t) : SendsOnly s t := by
  obtain ⟨m, n, h1, h2, h3⟩ := sendFast_eq_next.mp h
  exact ((startFast_sendsOnly h1).trans (outBytes_sendsOnly h2)).trans (finishFast_sendsOnly h3)

end Sys2Proof.Machine
end

