-- ==== Sys2Proof/Laws/Machine.lean ====
section
/-! SUPPORT. One induction for every whole-machine rule: a relation between states that holds across each elementary change holds across every command and across the return of a callback. -/

set_option Elab.async false

namespace Sys2Proof.Machine

/-- The elementary changes of the machine, each as something the relation `R` allows. -/
structure Allows (R : State → State → Prop) : Prop where
  refl : ∀ s, R s s
  trans : ∀ {s t u}, R s t → R t u → R s u
  result : ∀ s r, R s (s.setResult r)
  world : ∀ s w, w.port = s.world.port → s.world.clock ≤ w.clock → R s (s.setWorld w)
  startSingle : ∀ {s t pgn prio src dst}, startSingle pgn prio src dst s = .next t → R s t
  startFast : ∀ {s t pgn prio src dst total}, startFast pgn prio src dst total s = .next t → R s t
  append : ∀ {s t b}, appendByte b s = .next t → R s t
  finishSingle : ∀ {s t}, finishSingle s = .next t → R s t
  finishFast : ∀ {s t}, finishFast s = .next t → R s t
  countRx : ∀ s, R s (countRx s)
  countDrop : ∀ s, R s (countDrop s)
  claimAddress : ∀ {s t}, claimAddress s = .next t → R s t
  expire : ∀ s, R s (expireClaim s)
  tieBreak : ∀ s, R s (s.setName (withDeviceInstance s.name (now s)))
  yield : ∀ s, s.devAddr ≠ 251 → R s (s.setDevAddr (s.devAddr + 1))
  call : ∀ s c, c.inv s.cfg = true → R s (s.setCalls (c :: s.calls))
  ret : ∀ s c rest, s.calls = c :: rest → R s (s.setCalls rest)

/-- A relation that holds across the parts of a single packet holds across its sending. -/
theorem sendSingle_of_parts {R : State → State → Prop}
    (trans : ∀ {s t u}, R s t → R t u → R s u) (refl : ∀ s, R s s)
    (start : ∀ {s t pgn prio src dst}, startSingle pgn prio src dst s = .next t → R s t)
    (append : ∀ {s t b}, appendByte b s = .next t → R s t)
    (finish : ∀ {s t}, finishSingle s = .next t → R s t) {s t : State} {pgn prio src dst bs}
    (h : sendSingle pgn prio src dst bs s = .next t) : R s t := by
  obtain ⟨m, n, h1, h2, h3⟩ := sendSingle_eq_next.mp h
  refine trans (trans (start h1) ?_) (finish h3)
  rw [Machine.outBytes] at h2
  split at h2
  · cases h2
  · exact appendAll_induction refl (fun h1 h2 => trans (append h1) h2) h2

/-- A relation that holds across the sending of the claim frame and across the setting of the claim timer
holds across AC_CLAIM's effect (R150). -/
theorem claimAddress_of_parts {R : State → State → Prop}
    (trans : ∀ {s t u}, R s t → R t u → R s u)
    (single : ∀ {s t pgn prio src dst bs}, sendSingle pgn prio src dst bs s = .next t → R s t)
    (claim : ∀ s, R s ((s.setClaimT (now s)).setClaimedOnce true)) {s t : State}
    (h : claimAddress s = .next t) : R s t := by
  obtain ⟨m, h1, h2⟩ := andThen_eq_next.mp h
  have hn : now m = now s := (sendSingle_sendsOnly h1).now
  rw [← hn] at h2
  cases h2
  exact trans (single h1) (claim m)

theorem flowOf_next {R : State → State → Prop} {s : State} {r : Out}
    (hr : ∀ {t}, r = .next t → R s t) {fl : Flow} (h : toFlow r = .next fl) :
    R s (flowState fl) := by
  obtain ⟨m, h1, h2⟩ := andThen_eq_next.mp h
  cases h2
  exact hr h1

theorem clipFrame_len (f : Frame) : (clipFrame f).len ≤ 8 := by
  simp [clipFrame, Frame.len]

/-- A polled frame has at most 8 data bytes (R82, R175). -/
theorem pollReceive_len {s : State} {f : Frame} (h : (pollReceive s).1 = some f) :
    f.len ≤ 8 := by
  have : ∃ g, f = clipFrame g := by
    unfold pollReceive at h
    split at h <;>
    · obtain ⟨g, -, hg⟩ := Option.map_eq_some_iff.mp h
      exact ⟨g, hg.symm⟩
  obtain ⟨g, rfl⟩ := this
  exact clipFrame_len g

variable {R : State → State → Prop} (A : Allows R) {s t : State}

include A

theorem Allows.appendAll {bs : List Byte} (h : appendAll bs s = .next t) : R s t :=
  appendAll_induction A.refl (fun h1 h2 => A.trans (A.append h1) h2) h

theorem Allows.outBytes {bs : List Byte} (h : outBytes bs s = .next t) : R s t := by
  rw [Machine.outBytes] at h
  split at h
  · cases h
  · exact A.appendAll h

theorem Allows.outNum {k : NumKind} {value prec : NumOperand} (h : outNum k value prec s = .next t) :
    R s t := by
  rw [Machine.outNum] at h
  split at h
  · cases h
  · obtain ⟨bytes, -, h⟩ := withValue_eq_next.mp h
    exact A.appendAll h

theorem Allows.outVarString {str : List Byte} (h : outVarString str s = .next t) : R s t := by
  rw [Machine.outVarString] at h
  split at h
  · cases h
  · split at h
    · cases h
    · exact A.appendAll h

theorem Allows.sendSingle {pgn prio src dst bs} (h : sendSingle pgn prio src dst bs s = .next t) :
    R s t := by
  exact sendSingle_of_parts (R := R) A.trans A.refl A.startSingle A.append A.finishSingle h

theorem Allows.sendFast {pgn prio src dst total bs}
    (h : sendFast pgn prio src dst total bs s = .next t) : R s t := by
  obtain ⟨m, n, h1, h2, h3⟩ := sendFast_eq_next.mp h
  exact A.trans (A.trans (A.startFast h1) (A.outBytes h2)) (A.finishFast h3)

/-! ### The clock and the transport -/

theorem Allows.sampleClock (time : Option Millis) (s : State) : R s (sampleClock time s) := by
  rw [sampleClock_state]
  exact A.world _ _ rfl (clock_le_sampleClock s time)

theorem Allows.pollReceive (s : State) : R s (pollReceive s).2 := by
  rw [pollReceive_state]
  exact A.world _ _ rfl (Nat.le_refl _)

theorem Allows.drawBytes (n : Nat) (s : State) : R s (drawBytes n s).2 := by
  rw [drawBytes_state]
  exact A.world _ _ rfl (Nat.le_refl _)

theorem Allows.drawOpen (s : State) : R s (drawOpen s).2 := by
  rw [drawOpen_state]
  exact A.world _ _ rfl (Nat.le_refl _)

theorem Allows.wait (ms : Nat) (s : State) : R s (wait ms s) :=
  A.world _ _ rfl (Nat.le_add_right _ _)

/-! ### The arbitrator -/

theorem Allows.arbitrate {remote : NameWord} (h : arbitrate remote s = .next t) : R s t := by
  rw [Machine.arbitrate] at h
  split at h
  · exact A.trans (A.tieBreak s) (A.claimAddress h)
  · split at h
    · split at h
      · cases h
      · exact A.trans (A.yield s ‹_›) (A.claimAddress h)
    · exact A.claimAddress h

theorem Allows.receiveClaim {f : Frame} (h : receiveClaim f s = .next t) : R s t := by
  rw [Machine.receiveClaim] at h
  split at h
  · cases h; exact A.refl s
  · split at h
    · cases h; exact A.refl s
    · exact A.trans (A.drawBytes _ s) (A.arbitrate h)

/-! ### The dispatcher -/

theorem Allows.sendPgnList {listType : Byte} {list : List Pgn24} {dst : Addr}
    (h : sendPgnList listType list dst s = .next t) : R s t := by
  rw [Machine.sendPgnList] at h
  split at h
  · cases h
  · exact A.sendFast h

theorem Allows.sendConfigInfo {dst : Addr} (h : sendConfigInfo dst s = .next t) : R s t := by
  rw [Machine.sendConfigInfo] at h
  split at h
  · cases h
  · exact A.sendFast h

theorem Allows.respond {f : Frame} {left : Option Nat} (hf : f.len ≤ 8) (hl : left.getD 0 ≤ 19)
    {fl : Flow} (h : respond f left s = .next fl) : R s (flowState fl) := by
  rw [Machine.respond] at h
  split at h
  · exact flowOf_next A.claimAddress h
  · split at h
    · refine flowOf_next (fun h => ?_) h
      obtain ⟨m, h1, h2⟩ := andThen_eq_next.mp h
      exact A.trans (A.sendPgnList h1) (A.sendPgnList h2)
    · split at h
      · exact flowOf_next A.sendFast h
      · split at h
        · exact flowOf_next A.sendConfigInfo h
        · split at h
          · cases h
            refine A.call s _ ?_
            have hf' : f.data.length ≤ 8 := hf
            simp_all [Callback.inv]
          · exact flowOf_next A.sendSingle h

theorem Allows.receiveRequest {f : Frame} {left : Option Nat} (hl : left.getD 0 ≤ 19) {fl : Flow}
    (h : receiveRequest f left s = .next fl) : R s (flowState fl) := by
  rw [Machine.receiveRequest] at h
  split at h
  · next hr =>
    have hf : f.len ≤ 8 := by
      simp only [requestForUs, Bool.and_eq_true, decide_eq_true_eq] at hr
      exact hr.1.2
    split at h
    · exact A.trans (A.expire s) (A.respond hf hl h)
    · cases h; exact A.expire s
  · cases h; exact A.refl s

/-! ### The pump -/

theorem Allows.handleFrame {f : Frame} {left : Nat} (hf : f.len ≤ 8) (hl : left ≤ 19) {fl : Flow}
    (h : handleFrame f left s = .next fl) : R s (flowState fl) := by
  rw [Machine.handleFrame] at h
  split at h
  · next hk =>
    refine A.trans (A.countRx s) ?_
    rw [Machine.route] at h
    split at h
    · exact A.receiveRequest (by simpa using hl) h
    · split at h
      · exact flowOf_next A.receiveClaim h
      · split at h
        · cases h; exact A.refl _
        · cases h
          refine A.call _ _ ?_
          have hf' : f.data.length ≤ 8 := hf
          simp_all [Callback.inv, isServicePgn, decodeId]
  · cases h; exact A.countDrop s

theorem Allows.pumpLoop {k : Nat} (hk : k ≤ 20) {fresh : Bool} {s t : State}
    (h : pumpLoop k fresh s = .next t) : R s t := by
  induction k generalizing s fresh with
  | zero => cases h; exact A.refl _
  | succ k ih =>
    rw [Machine.pumpLoop] at h
    have h0 : R s (if fresh then Machine.sampleClock none s else s) := by
      split
      · exact A.sampleClock none s
      · exact A.refl s
    refine A.trans h0 ?_
    generalize (if fresh then Machine.sampleClock none s else s) = s0 at h
    refine A.trans (A.pollReceive s0) ?_
    split at h
    · next hp => cases h; rw [hp]; exact A.refl _
    · next f s1 hp =>
      have hf : f.len ≤ 8 := pollReceive_len (s := s0) (by rw [hp])
      rw [hp]
      obtain ⟨fl, h1, h2⟩ := andThen_eq_next.mp h
      have h3 := A.handleFrame hf (by omega) h1
      cases fl with
      | done s2 => exact A.trans h3 (ih (by omega) h2)
      | suspended s2 => cases h2; exact h3

/-- The return of a callback that leaves at most 19 polls to its PUMP. -/
theorem Allows.resume {handled : Bool}
    (hl : ∀ c ∈ s.calls, c.inv s.cfg = true) (h : resume handled s = .next t) : R s t := by
  rw [Machine.resume] at h
  split at h
  · cases h
  · next c rest hc =>
    obtain ⟨m, h1, rfl⟩ := done_eq_next.mp h
    refine A.trans (A.trans (A.ret s c rest hc) ?_) (A.result _ _)
    have hi : c.inv s.cfg = true := hl c (by simp [hc])
    cases c with
    | messageHandler hd p left =>
      simp only [Callback.inv, Bool.and_eq_true, decide_eq_true_eq] at hi
      exact A.pumpLoop (by omega) h1
    | isoHandler req hd p left =>
      simp only [Callback.inv, Bool.and_eq_true, decide_eq_true_eq] at hi
      obtain ⟨n, h2, h3⟩ := andThen_eq_next.mp h1
      have hn : R (s.setCalls rest) n := by
        split at h2
        · cases h2; exact A.refl _
        · exact A.sendSingle h2
      refine A.trans hn ?_
      cases left with
      | none => cases h3; exact A.refl _
      | some k =>
        have : k ≤ 19 := by simpa using hi.2
        exact A.pumpLoop (by omega) h3

/-! ### Every command -/

theorem Allows.done {r : Out} (hr : ∀ {t}, r = .next t → R s t) (h : done r = .next t) :
    R s t := by
  obtain ⟨m, h1, rfl⟩ := done_eq_next.mp h
  exact A.trans (hr h1) (A.result _ _)

theorem Allows.answered {v : Result} (h : answer v s = .next t) : R s t := by
  cases h; exact A.result _ _

theorem Allows.encodeCommand {k : NumKind} {value prec : NumOperand}
    (h : encodeCommand k value prec s = .next t) : R s t := by
  obtain ⟨_, -, h⟩ := withValue_eq_next.mp h
  exact A.answered h

theorem Allows.decodeCommand {k : NumKind} {bytes : List Byte} {prec : NumOperand}
    (h : decodeCommand k bytes prec s = .next t) : R s t := by
  obtain ⟨_, -, h⟩ := withValue_eq_next.mp h
  exact A.answered h

/-- The induction: what every elementary change allows, every command allows. -/
theorem Allows.exec {i : Instr} (h : exec i s = .next t) : R s t := by
  cases i with
  | idPgnof _ => exact A.answered h
  | idDecode _ => exact A.answered h
  | idEncode _ _ _ _ =>
    obtain ⟨_, -, h⟩ := withValue_eq_next.mp h
    exact A.answered h
  | numEncU16 _ _ => exact A.encodeCommand h
  | numEncS16 _ _ => exact A.encodeCommand h
  | numEncU24 _ _ => exact A.encodeCommand h
  | numEncS24 _ _ => exact A.encodeCommand h
  | numEncU32 _ _ => exact A.encodeCommand h
  | numEncS32 _ _ => exact A.encodeCommand h
  | numDecU16 _ _ => exact A.decodeCommand h
  | numDecS16 _ _ => exact A.decodeCommand h
  | numDecU24 _ _ => exact A.decodeCommand h
  | numDecS24 _ _ => exact A.decodeCommand h
  | numDecU32 _ _ => exact A.decodeCommand h
  | numDecS32 _ _ => exact A.decodeCommand h
  | frStart _ _ _ _ => exact A.done A.startSingle h
  | frStartFast _ _ _ _ _ => exact A.done A.startFast h
  | frOutByte _ => exact A.done A.outBytes h
  | frOutRaw16 _ => exact A.done A.outBytes h
  | frOutRaw24 _ => exact A.done A.outBytes h
  | frOutRaw32 _ => exact A.done A.outBytes h
  | frOutFixstr _ _ _ => exact A.done A.outBytes h
  | frOutVarstr _ => exact A.done A.outVarString h
  | frOutNumU16 _ _ => exact A.done A.outNum h
  | frOutNumS16 _ _ => exact A.done A.outNum h
  | frOutNumU24 _ _ => exact A.done A.outNum h
  | frOutNumS24 _ _ => exact A.done A.outNum h
  | frOutNumU32 _ _ => exact A.done A.outNum h
  | frOutNumS32 _ _ => exact A.done A.outNum h
  | frFinish => exact A.done A.finishSingle h
  | frFinishFast => exact A.done A.finishFast h
  | acClaim => exact A.done A.claimAddress h
  | acPoll => exact A.trans (A.expire s) (A.answered h)
  | acRxClaim _ => exact A.done A.receiveClaim h
  | isoRxRequest _ =>
    refine A.done (fun h => ?_) h
    obtain ⟨fl, h1, h2⟩ := andThen_eq_next.mp h
    cases h2
    exact A.receiveRequest (by simp) h1
  | isoRxAck f => exact A.done (r := receiveAck f s) (fun h => by cases h; exact A.refl _) h
  | pump => exact A.done (A.pumpLoop (by simp [pumpCap])) h
  | status => exact A.answered h
  | engOpen _ _ => exact A.trans (A.trans (A.drawOpen s) (A.wait _ _)) (A.answered h)

/-- The induction for a step that is no power-up: the host's item is taken, and the rest is allowed. -/
theorem Allows.step (hc : ∀ c ∈ s.calls, c.inv s.cfg = true)
    (hp : ∀ (c : Config) (items : List HostItem), s.world.port ≠ .powerUp c :: items)
    (h : step s = .next t) : R (if s.world.port = [] then s else takeItem s) t := by
  simp only [Machine.step, runItem] at h
  split at h
  · next he => cases h; rw [if_pos he]; exact A.refl _
  · next he =>
    rw [if_neg (by rw [he]; simp)]
    rw [runCommand] at h
    split at h
    · cases h
    · split at h
      · exact A.trans (A.sampleClock _ _) (A.exec h)
      · cases h
  · next he =>
    rw [if_neg (by rw [he]; simp)]
    rw [runReturn] at h
    split at h
    · cases h
    · exact A.resume hc h
  · next he => exact absurd he (hp _ _)

end Sys2Proof.Machine
end

