-- ==== Sys2Proof/Laws/Packets.lean ====
section
/-! SUPPORT. What appends, finishes and whole packets do to the buffer, the counters and `TX_LOG`, frame by frame. -/

set_option Elab.async false

namespace Sys2Proof.Machine

/-! ### Bytes and strings -/

theorem bufWrite_of_lt {i : Nat} (h : i < 8) (b : Byte) (buf : Vector Byte 8) :
    bufWrite i b buf = buf.set i b h := by
  rw [bufWrite]
  apply Vector.toArray_inj.mp
  simp [Array.setIfInBounds, h]

theorem leBytes_one (b : Byte) : leBytes 1 b.toNat = [b] := by simp [leBytes]

theorem leBytes_two (v : BitVec 16) :
    leBytes 2 v.toNat = [v.extractLsb' 0 8, v.extractLsb' 8 8] := by
  simp only [leBytes, List.cons.injEq, and_true]
  constructor
  · apply BitVec.eq_of_toNat_eq; simp
  · apply BitVec.eq_of_toNat_eq; simp [Nat.shiftRight_eq_div_pow]

theorem leBytes_three (v : BitVec 24) :
    leBytes 3 v.toNat = [v.extractLsb' 0 8, v.extractLsb' 8 8, v.extractLsb' 16 8] := by
  simp only [leBytes, List.cons.injEq, and_true]
  refine ⟨?_, ?_, ?_⟩
  · apply BitVec.eq_of_toNat_eq; simp
  · apply BitVec.eq_of_toNat_eq; simp [Nat.shiftRight_eq_div_pow]
  · apply BitVec.eq_of_toNat_eq; simp [Nat.shiftRight_eq_div_pow]; omega

theorem leBytes_four (v : BitVec 32) : leBytes 4 v.toNat =
    [v.extractLsb' 0 8, v.extractLsb' 8 8, v.extractLsb' 16 8, v.extractLsb' 24 8] := by
  simp only [leBytes, List.cons.injEq, and_true]
  refine ⟨?_, ?_, ?_, ?_⟩
  · apply BitVec.eq_of_toNat_eq; simp
  · apply BitVec.eq_of_toNat_eq; simp [Nat.shiftRight_eq_div_pow]
  · apply BitVec.eq_of_toNat_eq; simp [Nat.shiftRight_eq_div_pow]; omega
  · apply BitVec.eq_of_toNat_eq; simp [Nat.shiftRight_eq_div_pow]; omega

theorem beforeTerminator_eq (str : List Byte) :
    beforeTerminator str = str.take (textLength str) := by
  rw [beforeTerminator, textLength]
  exact List.prefix_iff_eq_take.mp (List.takeWhile_prefix _)

/-- A fixed-length string, byte by byte (R80). -/
theorem fixedString_eq (str : List Byte) (n : Nat) (pad : Byte) :
    fixedString str n pad = textField str n pad := by
  rw [fixedString, textField]
  apply List.ext_getElem
  · simp [beforeTerminator]
  · intro i h1 h2
    simp only [List.length_map, List.length_range] at h2
    simp only [List.getElem_map, List.getElem_range, textLength]
    have hp : str.takeWhile (· ≠ 0) <+: str := List.takeWhile_prefix _
    by_cases hi : i < (str.takeWhile (· ≠ 0)).length
    · have h3 : i < ((beforeTerminator str).take n).length := by
        rw [List.length_take]; exact lt_min h2 hi
      have h4 : i < str.length := lt_of_lt_of_le hi hp.length_le
      rw [List.getElem_append_left h3, if_pos hi, List.getElem_take,
        List.getD_eq_getElem _ _ h4]
      exact hp.getElem hi
    · rw [List.getElem_append_right, if_neg hi, List.getElem_replicate]
      rw [List.length_take]
      exact le_trans (min_le_right _ _) (not_lt.mp hi)

/-- A variable-length string, byte by byte (R81). -/
theorem varString_eq (str : List Byte) : varString str = varTextField str := by
  rw [varString, varTextField, ← beforeTerminator_eq]; rfl

theorem encodedBytes_eq_some {k : NumKind} {value prec : NumOperand} {c : Config}
    {bs : List Byte} :
    encodedBytes k value prec c = some bs ↔ encodeNum k value prec c = .ok bs := by
  rw [encodedBytes]; cases encodeNum k value prec c <;> simp

/-- The header byte as a number, for the frames that are sent (R75, R76). -/
theorem fastHeader_ofNat (q : BitVec 3) :
    ∀ n < 32, fastHeader q (BitVec.ofNat 6 n) = BitVec.ofNat 8 (q.toNat * 32 + n) := by
  revert q; decide

theorem fastHeader_zero (q : BitVec 3) : fastHeader q 0 = BitVec.ofNat 8 (q.toNat * 32) := by
  revert q; decide

/-! ### Operations that do not touch one another -/

theorem transmit_setFr (id : CanId) (bs : List Byte) (s : State) (f : Framer) :
    transmit id bs (s.setFr f) = (transmit id bs s).setFr f := by
  by_cases h : id = 0
  · subst h; rfl
  · rw [transmit_of_ne_zero _ h, transmit_of_ne_zero _ h]
    simp only [drawSend, State.setFr_world]
    cases s.world.sendIn <;> rfl

theorem transmit_setResult (id : CanId) (bs : List Byte) (s : State) (r : Result) :
    transmit id bs (s.setResult r) = (transmit id bs s).setResult r := by
  by_cases h : id = 0
  · subst h; rfl
  · rw [transmit_of_ne_zero _ h, transmit_of_ne_zero _ h]
    simp only [drawSend, State.setResult_world]
    cases s.world.sendIn <;> rfl

theorem flush_setResult (s : State) (r : Result) :
    flush (s.setResult r) = (flush s).setResult r := by
  simp only [flush, State.setResult_fr, transmit_setResult]; rfl

/-- An append neither reads nor writes the result port. -/
theorem appendByte_setResult (b : Byte) (s : State) (r : Result) :
    appendByte b (s.setResult r) = andThen (appendByte b s) (answer r) := by
  cases hm : s.fr.mode with
  | idle => rw [appendByte, appendByte, State.setResult_fr, hm]; rfl
  | single =>
    rw [appendByte_single hm, appendByte_single (by exact hm), State.setResult_fr]
    split <;> rfl
  | fast =>
    rw [appendByte_fast hm, appendByte_fast (by exact hm), State.setResult_fr]
    split
    · rfl
    · split
      · show Host.Outcome.next (flush ((fastPut b s).setResult r)) = _
        rw [flush_setResult]; rfl
      · rfl

/-! ### Offered frames (R43, R55) -/

theorem Counters.afterSends_nil (c : Counters) : c.afterSends [] = c := by
  simp [Counters.afterSends]

theorem Counters.afterSends_append (c : Counters) (a b : List TxEntry) :
    c.afterSends (a ++ b) = (c.afterSends a).afterSends b := by
  simp [Counters.afterSends, List.countP_append, BitVec.ofNat_add, BitVec.add_assoc]

/-- From `s` to `t` exactly the frames of `es` were offered, and only what sends may change changed. -/
structure Offered (s t : State) (es : List TxEntry) : Prop where
  log : t.txLog = s.txLog ++ es
  cnt : t.cnt = s.cnt.afterSends es
  only : SendsOnly s t

theorem Offered.nil {s t : State} (h : t = s.setFr t.fr) : Offered s t [] :=
  ⟨by rw [h]; simp, by rw [h, Counters.afterSends_nil]; rfl, by rw [h]; rfl⟩

theorem Offered.trans {s t u : State} {a b : List TxEntry} (h1 : Offered s t a)
    (h2 : Offered t u b) : Offered s u (a ++ b) :=
  ⟨by rw [h2.log, h1.log, List.append_assoc],
    by rw [h2.cnt, h1.cnt, Counters.afterSends_append], h1.only.trans h2.only⟩

/-- A change of the packet in progress after the sends. -/
theorem Offered.setFr {s t : State} {es : List TxEntry} (h : Offered s t es) (f : Framer) :
    Offered s (t.setFr f) es := by
  have := h.trans (Offered.nil rfl : Offered t (t.setFr f) [])
  rwa [List.append_nil] at this

/-- A change of the packet in progress before the sends. -/
theorem Offered.of_setFr {s t : State} {es : List TxEntry} {f : Framer}
    (h : Offered (s.setFr f) t es) : Offered s t es :=
  (Offered.nil rfl : Offered s (s.setFr f) []).trans h

theorem LogOf.append {id : CanId} {f g : List (List Byte)} {a b : List TxEntry}
    (h1 : LogOf id f a) (h2 : LogOf id g b) : LogOf id (f ++ g) (a ++ b) := by
  simp only [LogOf, List.map_append] at *; rw [h1, h2]

theorem LogOf.length {id : CanId} {f : List (List Byte)} {es : List TxEntry}
    (h : LogOf id f es) : es.length = f.length := by
  have := congrArg List.length h; simpa using this

theorem LogOf.mem {id : CanId} {f : List (List Byte)} {es : List TxEntry} (h : LogOf id f es)
    {e : TxEntry} (he : e ∈ es) : e.id = id ∧ e.data ∈ f := by
  have h1 : (e.id, e.data) ∈ es.map fun e => (e.id, e.data) := List.mem_map_of_mem he
  rw [h] at h1
  obtain ⟨d, hd, he⟩ := List.mem_map.mp h1
  cases he
  exact ⟨rfl, hd⟩

/-- A transmission under an identifier other than 0 offers its frame (R55). -/
theorem transmit_offered {id : CanId} (h : id ≠ 0) (bs : List Byte) (s : State) :
    ∃ es, LogOf id [bs] es ∧ Offered s (transmit id bs s) es := by
  refine ⟨[⟨id, bs, (drawSend s).1⟩], rfl, ?_, ?_, transmit_sendsOnly _ _ _⟩
  · rw [transmit_txLog, if_neg h]
  · rw [transmit_cnt, if_neg h]
    cases hr : (drawSend s).1 <;> simp [countSend, Counters.afterSends]

/-! ### Appends in SINGLE mode (R123, R125) -/

/-- One append in SINGLE mode: kept while it fits, dropped and counted after. -/
theorem appendByte_of_single {b : Byte} {s : State} (hm : s.fr.mode = .single)
    (ho : s.fr.off.toNat ≤ 8) : ∃ t, appendByte b s = .next t ∧
      bufFront t.fr.off.toNat t.fr.buf = (bufFront s.fr.off.toNat s.fr.buf ++ [b]).take 8 ∧
      t.fr.off.toNat = min 8 (s.fr.off.toNat + 1) ∧
      t.cnt = { s.cnt with
        frameErr := s.cnt.frameErr + BitVec.ofNat 32 (s.fr.off.toNat + 1 - 8) } ∧
      t = (s.setFr { s.fr with buf := t.fr.buf, off := t.fr.off }).setCnt t.cnt := by
  have hlen : (bufFront s.fr.off.toNat s.fr.buf).length = s.fr.off.toNat := bufFront_length _ _ ho
  rw [appendByte_single hm]
  by_cases h8 : s.fr.off = 8
  · have e : s.fr.off.toNat = 8 := by rw [h8]; rfl
    rw [if_pos h8]
    refine ⟨_, rfl, ?_, ?_, ?_, rfl⟩
    · show bufFront s.fr.off.toNat s.fr.buf = _
      rw [List.take_append_of_le_length (by omega), List.take_of_length_le (by omega)]
    · show s.fr.off.toNat = _
      omega
    · rw [e]; rfl
  · have hlt : s.fr.off.toNat < 8 :=
      lt_of_le_of_ne ho fun h => h8 (BitVec.eq_of_toNat_eq h)
    have ho1 : (s.fr.off + 1).toNat = s.fr.off.toNat + 1 := by simp; omega
    rw [if_neg h8]
    refine ⟨_, rfl, ?_, ?_, ?_, rfl⟩
    · show bufFront (s.fr.off + 1).toNat (bufWrite s.fr.off.toNat b s.fr.buf) = _
      rw [ho1, bufFront_bufWrite _ _ _ hlt, List.take_of_length_le]
      rw [List.length_append, hlen]
      exact hlt
    · show (s.fr.off + 1).toNat = _
      omega
    · show s.cnt = _
      rw [show s.fr.off.toNat + 1 - 8 = 0 by omega]; simp

/-- Appends in SINGLE mode: the first bytes that fit are kept, the rest dropped and counted. -/
theorem appendAll_of_single (bs : List Byte) : ∀ {s : State}, s.fr.mode = .single →
    s.fr.off.toNat ≤ 8 → ∃ t, appendAll bs s = .next t ∧
      bufFront t.fr.off.toNat t.fr.buf = (bufFront s.fr.off.toNat s.fr.buf ++ bs).take 8 ∧
      t.fr.off.toNat = min 8 (s.fr.off.toNat + bs.length) ∧
      t.cnt = { s.cnt with
        frameErr := s.cnt.frameErr + BitVec.ofNat 32 (s.fr.off.toNat + bs.length - 8) } ∧
      t = (s.setFr { s.fr with buf := t.fr.buf, off := t.fr.off }).setCnt t.cnt := by
  induction bs with
  | nil =>
    intro s hm ho
    refine ⟨s, rfl, ?_, ?_, ?_, rfl⟩
    · rw [List.append_nil, List.take_of_length_le (bufFront_length_le _ _)]
    · simp; omega
    · simp [show s.fr.off.toNat - 8 = 0 by omega]
  | cons b bs ih =>
    intro s hm ho
    obtain ⟨m, h1, hb1, ho1, hc1, hs1⟩ := appendByte_of_single (b := b) hm ho
    have hmm : m.fr.mode = .single := by rw [hs1]; exact hm
    obtain ⟨t, h2, hb2, ho2, hc2, hs2⟩ := ih hmm (by omega)
    refine ⟨t, by rw [appendAll_cons, h1]; exact h2, ?_, ?_, ?_, ?_⟩
    · rw [hb2, hb1, show b :: bs = [b] ++ bs from rfl, ← List.append_assoc]
      generalize bufFront s.fr.off.toNat s.fr.buf ++ [b] = front
      rw [List.take_append, List.take_take, List.take_append]
      congr 2
      simp; omega
    · rw [ho2, ho1]
      simp only [List.length_cons]
      omega
    · rw [hc2, hc1, ho1]
      simp only [List.length_cons, BitVec.add_assoc, ← BitVec.ofNat_add]
      congr 3
      omega
    · conv_lhs => rw [hs2, hs1]
      rfl

/-! ### Appends in FAST mode (R123, R124, R36) -/

/-- One append in FAST mode below the declared total: the invariants of R36 are kept, and a frame of 8
bytes is offered when the buffer fills. -/
theorem appendByte_of_fast {b : Byte} {s : State} (hm : s.fr.mode = .fast) (hi : s.fr.Inv)
    (hl : s.fr.written.toNat < s.fr.total.toNat) : ∃ t es, appendByte b s = .next t ∧
      t.fr.Inv ∧ t.fr.written.toNat = s.fr.written.toNat + 1 ∧ Offered s t es ∧
      s.fr.fidx.toNat ≤ t.fr.fidx.toNat ∧
      es.length = (if s.fr.id = 0 then 0 else t.fr.fidx.toNat - s.fr.fidx.toNat) ∧
      ∀ e ∈ es, e.id = s.fr.id ∧ e.data.length = 8 := by
  obtain ⟨i1, i2, i3, i4, i5, i6, i7⟩ := hi.2 hm
  have hne : s.fr.written ≠ s.fr.total := fun h => absurd hl (by rw [h]; exact lt_irrefl _)
  have hw1 : (s.fr.written + 1).toNat = s.fr.written.toNat + 1 := by simp; omega
  rw [appendByte_fast hm, if_neg hne]
  by_cases h7 : s.fr.off.toNat = 7
  · have hoff : s.fr.off + 1 = 8 := by apply BitVec.eq_of_toNat_eq; simp; omega
    have hf1 : (s.fr.fidx + 1).toNat = s.fr.fidx.toNat + 1 := by simp; omega
    rw [if_pos hoff]
    have hinv : (flush (fastPut b s)).fr.Inv := by
      refine ⟨fun h => ?_, fun _ => ?_⟩
      · rw [show (flush (fastPut b s)).fr.mode = s.fr.mode from rfl, hm] at h; cases h
      · show 1 ≤ 1 ∧ 1 ≤ 7 ∧ 1 ≤ (s.fr.fidx + 1).toNat ∧ (s.fr.fidx + 1).toNat ≤ 33 ∧
          (s.fr.written + 1).toNat ≤ s.fr.total.toNat ∧ s.fr.total.toNat ≤ 223 ∧
          (s.fr.written + 1).toNat + 9 = 7 * (s.fr.fidx + 1).toNat + 1
        omega
    have hle : s.fr.fidx.toNat ≤ (s.fr.fidx + 1).toNat := by omega
    by_cases hid : s.fr.id = 0
    · refine ⟨_, [], rfl, hinv, hw1, Offered.nil ?_, hle,
        by rw [if_pos hid]; rfl, by simp⟩
      show (transmit s.fr.id _ _).setFr _ = _
      rw [hid]; rfl
    · obtain ⟨es, hlog, hof⟩ := transmit_offered hid (bufFront 8 (fastPut b s).fr.buf) (fastPut b s)
      refine ⟨_, es, rfl, hinv, hw1, Offered.of_setFr (hof.setFr _), hle, ?_, fun e he => ?_⟩
      · rw [if_neg hid, hlog.length]
        show 1 = (s.fr.fidx + 1).toNat - _
        omega
      · obtain ⟨h1, h2⟩ := hlog.mem he
        rw [List.mem_singleton.mp h2]
        exact ⟨h1, bufFront_length _ _ (le_refl _)⟩
  · have hoff : s.fr.off + 1 ≠ 8 := by
      intro h; have := congrArg BitVec.toNat h; simp at this; omega
    have ho1 : (s.fr.off + 1).toNat = s.fr.off.toNat + 1 := by simp; omega
    rw [if_neg hoff]
    refine ⟨_, [], rfl, ⟨fun h => ?_, fun _ => ?_⟩, hw1, Offered.nil rfl, le_refl _, ?_, by simp⟩
    · rw [show (fastPut b s).fr.mode = s.fr.mode from rfl, hm] at h; cases h
    · show 1 ≤ (s.fr.off + 1).toNat ∧ (s.fr.off + 1).toNat ≤ 7 ∧ 1 ≤ s.fr.fidx.toNat ∧
        s.fr.fidx.toNat ≤ 33 ∧ (s.fr.written + 1).toNat ≤ s.fr.total.toNat ∧
        s.fr.total.toNat ≤ 223 ∧
        (s.fr.written + 1).toNat + 9 = 7 * s.fr.fidx.toNat + (s.fr.off + 1).toNat
      omega
    · show 0 = if _ then 0 else s.fr.fidx.toNat - s.fr.fidx.toNat
      simp

/-- Appends in FAST mode that stay within the declared total. -/
theorem appendAll_of_fast (bs : List Byte) : ∀ {s : State}, s.fr.mode = .fast → s.fr.Inv →
    s.fr.written.toNat + bs.length ≤ s.fr.total.toNat → ∃ t es, appendAll bs s = .next t ∧
      t.fr.Inv ∧ t.fr.written.toNat = s.fr.written.toNat + bs.length ∧ Offered s t es ∧
      s.fr.fidx.toNat ≤ t.fr.fidx.toNat ∧
      es.length = (if s.fr.id = 0 then 0 else t.fr.fidx.toNat - s.fr.fidx.toNat) ∧
      ∀ e ∈ es, e.id = s.fr.id ∧ e.data.length = 8 := by
  induction bs with
  | nil =>
    intro s hm hi hl
    exact ⟨s, [], rfl, hi, rfl, Offered.nil rfl, le_refl _, by simp, by simp⟩
  | cons b bs ih =>
    intro s hm hi hl
    simp only [List.length_cons] at hl
    obtain ⟨m, e1, h1, a1, a2, a3, a4, a5, a6⟩ := appendByte_of_fast (b := b) hm hi (by omega)
    obtain ⟨f1, f2, f3, f4⟩ := appendByte_fixed h1
    obtain ⟨t, e2, h2, b1, b2, b3, b4, b5, b6⟩ := ih (f1.trans hm) a1 (by rw [f4]; omega)
    refine ⟨t, e1 ++ e2, by rw [appendAll_cons, h1]; exact h2, b1,
      by simp only [List.length_cons]; omega, a3.trans b3, le_trans a4 b4, ?_, fun e he => ?_⟩
    · rw [List.length_append, a5, b5, f2]; split <;> omega
    · rcases List.mem_append.mp he with h | h
      · exact a6 e h
      · rw [← f2]; exact b6 e h

/-! ### The frames of a fast packet (R75 to R77, R145, R146) -/

/-- Frame `f` of the stream of a fast packet: the length byte, then the payload so far. -/
def streamFrame (seq : BitVec 3) (stream : List Byte) (f : Nat) : List Byte :=
  fastHeader seq (BitVec.ofNat 6 f) :: (stream.drop (7 * f)).take 7

theorem streamFrame_append (seq : BitVec 3) (a b : List Byte) (f : Nat)
    (h : 7 * (f + 1) ≤ a.length) : streamFrame seq (a ++ b) f = streamFrame seq a f := by
  rw [streamFrame, streamFrame, List.drop_append_of_le_length (by omega),
    List.take_append_of_le_length (by simp; omega)]

/-- The frames of the whole stream are those of R146. -/
theorem streamFrame_eq (seq : BitVec 3) (payload : List Byte) (f : Nat) (hf : f < 32) :
    streamFrame seq (BitVec.ofNat 8 payload.length :: payload) f =
      fastFrameData seq payload f := by
  rw [streamFrame, fastFrameData, fastHeader_ofNat _ _ hf]
  congr 1
  cases f with
  | zero => rfl
  | succ g => rw [show 7 * (g + 1) = (6 + 7 * g) + 1 by omega, List.drop_succ_cons]; rfl

/-- The framer holds a fast packet whose length byte and payload so far are `stream` (R123, R124). -/
structure Streamed (id : CanId) (seq : BitVec 3) (total : Byte) (stream : List Byte)
    (f : Framer) : Prop where
  hmode : f.mode = .fast
  hid : f.id = id
  hseq : f.seq = seq
  htotal : f.total = total
  hwritten : f.written.toNat + 1 = stream.length
  hfidx : f.fidx.toNat = stream.length / 7 + 1
  hoff : f.off.toNat = stream.length % 7 + 1
  hbuf : bufFront f.off.toNat f.buf =
    fastHeader seq (BitVec.ofNat 6 (stream.length / 7)) :: stream.drop (7 * (stream.length / 7))

/-- A started fast packet holds the stream of its length byte (R129). -/
theorem fastStarted_streamed (id : CanId) (total : Byte) (f : Framer) :
    Streamed id (f.seq + 1) total [total] (fastStarted id total f) := by
  refine ⟨rfl, rfl, rfl, rfl, rfl, by simp [fastStarted], by simp [fastStarted], ?_⟩
  show bufFront 2 (bufWrite 1 total (bufWrite 0 (fastHeader (f.seq + 1) 0) f.buf)) = _
  rw [bufFront_bufWrite _ _ _ (by norm_num), bufFront_bufWrite _ _ _ (by norm_num)]
  simp [bufFront]

/-- One append lengthens the stream, and offers its frame when that is full. -/
theorem appendByte_streamed {id : CanId} (hid : id ≠ 0) {seq : BitVec 3} {total : Byte}
    {stream : List Byte} {s : State} (hs : Streamed id seq total stream s.fr) (b : Byte)
    (hl : stream.length ≤ total.toNat) (ht : total.toNat ≤ 223) :
    ∃ t es, appendByte b s = .next t ∧ Streamed id seq total (stream ++ [b]) t.fr ∧
      Offered s t es ∧
      LogOf id ((List.range' (stream.length / 7)
        ((stream.length + 1) / 7 - stream.length / 7)).map (streamFrame seq (stream ++ [b]))) es := by
  obtain ⟨hm, hi, hq, htot, hw, hf, ho, hb⟩ := hs
  have hlen : (stream ++ [b]).length = stream.length + 1 := by simp
  have hne : s.fr.written ≠ s.fr.total := by
    intro h; rw [h, htot] at hw; omega
  have hw1 : (s.fr.written + 1).toNat = s.fr.written.toNat + 1 := by simp; omega
  have hput : bufFront (s.fr.off.toNat + 1) (bufWrite s.fr.off.toNat b s.fr.buf) =
      bufFront s.fr.off.toNat s.fr.buf ++ [b] := bufFront_bufWrite _ _ _ (by omega)
  rw [appendByte_fast hm, if_neg hne]
  by_cases h7 : stream.length % 7 = 6
  · have hoff : s.fr.off + 1 = 8 := by apply BitVec.eq_of_toNat_eq; simp; omega
    have hfi : (s.fr.fidx + 1).toNat = s.fr.fidx.toNat + 1 := by simp; omega
    have hfull : bufFront 8 (bufWrite s.fr.off.toNat b s.fr.buf) =
        streamFrame seq (stream ++ [b]) (stream.length / 7) := by
      have h8 : s.fr.off.toNat + 1 = 8 := by omega
      rw [← h8, hput, hb, streamFrame, List.drop_append_of_le_length (by omega),
        List.take_of_length_le (by simp; omega)]
      rfl
    have hflush : flush (fastPut b s) =
        (transmit id (bufFront 8 (bufWrite s.fr.off.toNat b s.fr.buf)) (fastPut b s)).setFr
          (nextFrame (fastPut b s).fr) := by
      rw [← hi]; rfl
    obtain ⟨es, hlog, hof⟩ :=
      transmit_offered hid (bufFront 8 (bufWrite s.fr.off.toNat b s.fr.buf)) (fastPut b s)
    rw [if_pos hoff]
    refine ⟨_, es, rfl, ⟨hm, hi, hq, htot, ?_, ?_, ?_, ?_⟩, ?_, ?_⟩
    · rw [hlen]
      show (s.fr.written + 1).toNat + 1 = _
      omega
    · rw [hlen]
      show (s.fr.fidx + 1).toNat = _
      omega
    · rw [hlen]
      show 1 = _
      omega
    · have hdrop : (stream ++ [b]).drop (7 * ((stream.length + 1) / 7)) = [] :=
        List.drop_of_length_le (by simp; omega)
      have hidx : s.fr.fidx = BitVec.ofNat 6 ((stream.length + 1) / 7) := by
        apply BitVec.eq_of_toNat_eq; simp; omega
      rw [hlen, hdrop]
      show bufFront 1 (bufWrite 0 (fastHeader s.fr.seq s.fr.fidx) _) = _
      rw [bufFront_bufWrite _ _ _ (by norm_num), hidx, hq]
      rfl
    · rw [hflush]
      exact Offered.of_setFr (hof.setFr _)
    · rw [show (stream.length + 1) / 7 - stream.length / 7 = 1 by omega]
      rw [hfull] at hlog
      exact hlog
  · have hoff : s.fr.off + 1 ≠ 8 := by
      intro h; have := congrArg BitVec.toNat h; simp at this; omega
    have ho1 : (s.fr.off + 1).toNat = s.fr.off.toNat + 1 := by simp; omega
    rw [if_neg hoff]
    refine ⟨_, [], rfl, ⟨hm, hi, hq, htot, ?_, ?_, ?_, ?_⟩, Offered.nil rfl, ?_⟩
    · rw [hlen]
      show (s.fr.written + 1).toNat + 1 = _
      omega
    · rw [hlen]
      show s.fr.fidx.toNat = _
      omega
    · rw [hlen]
      show (s.fr.off + 1).toNat = _
      omega
    · rw [hlen]
      show bufFront (s.fr.off + 1).toNat (bufWrite s.fr.off.toNat b s.fr.buf) = _
      rw [ho1, hput, hb, show (stream.length + 1) / 7 = stream.length / 7 by omega,
        List.drop_append_of_le_length (by omega)]
      rfl
    · rw [show (stream.length + 1) / 7 - stream.length / 7 = 0 by omega]
      rfl

/-- Appends lengthen the stream, and offer every frame that they fill. -/
theorem appendAll_streamed {id : CanId} (hid : id ≠ 0) {seq : BitVec 3} {total : Byte}
    (ht : total.toNat ≤ 223) (bs : List Byte) : ∀ {stream : List Byte} {s : State},
    Streamed id seq total stream s.fr → stream.length + bs.length ≤ total.toNat + 1 →
    ∃ t es, appendAll bs s = .next t ∧ Streamed id seq total (stream ++ bs) t.fr ∧
      Offered s t es ∧
      LogOf id ((List.range' (stream.length / 7)
        ((stream.length + bs.length) / 7 - stream.length / 7)).map
          (streamFrame seq (stream ++ bs))) es := by
  induction bs with
  | nil =>
    intro stream s hs hl
    exact ⟨s, [], rfl, by simpa using hs, Offered.nil rfl, by simp [LogOf]⟩
  | cons b bs ih =>
    intro stream s hs hl
    simp only [List.length_cons] at hl
    obtain ⟨m, es1, h1, hm, ho1, hl1⟩ := appendByte_streamed hid hs b (by omega) ht
    obtain ⟨t, es2, h2, ht', ho2, hl2⟩ := ih hm (by simp; omega)
    refine ⟨t, es1 ++ es2, by rw [appendAll_cons, h1]; exact h2, by simpa using ht',
      ho1.trans ho2, ?_⟩
    have e1 : (List.range' (stream.length / 7) ((stream.length + 1) / 7 - stream.length / 7)).map
          (streamFrame seq (stream ++ [b])) =
        (List.range' (stream.length / 7) ((stream.length + 1) / 7 - stream.length / 7)).map
          (streamFrame seq (stream ++ b :: bs)) := by
      apply List.map_congr_left
      intro f hf
      rw [List.mem_range'_1] at hf
      rw [← streamFrame_append seq (stream ++ [b]) bs f (by simp; omega)]
      simp
    have e2 : (stream ++ [b]).length = stream.length + 1 := by simp
    rw [e1] at hl1
    have h12 := LogOf.append hl1 hl2
    rw [e2, List.append_assoc, List.singleton_append, ← List.map_append] at h12
    have e3 : List.range' (stream.length / 7) ((stream.length + 1) / 7 - stream.length / 7) ++
          List.range' ((stream.length + 1) / 7)
            ((stream.length + 1 + bs.length) / 7 - (stream.length + 1) / 7) =
        List.range' (stream.length / 7)
          ((stream.length + (b :: bs).length) / 7 - stream.length / 7) := by
      have a1 : (stream.length + 1) / 7 =
          stream.length / 7 + 1 * ((stream.length + 1) / 7 - stream.length / 7) := by omega
      have a2 : stream.length + 1 + bs.length = stream.length + (bs.length + 1) := by omega
      have a3 : (stream.length + (bs.length + 1)) / 7 - stream.length / 7 =
          ((stream.length + 1) / 7 - stream.length / 7) +
            ((stream.length + 1 + bs.length) / 7 - (stream.length + 1) / 7) := by
        rw [a2]; omega
      rw [List.length_cons, a3, ← List.range'_append, ← a1]
    rw [← e3]
    exact h12

/-- Finishing a fast packet whose whole stream has been written (R144). -/
theorem finishFast_streamed {id : CanId} (hid : id ≠ 0) {seq : BitVec 3} {total : Byte}
    {stream : List Byte} {s : State} (hs : Streamed id seq total stream s.fr)
    (hl : stream.length = total.toNat + 1) :
    ∃ t es, finishFast s = .next t ∧ t.fr.mode = .idle ∧ t.fr.seq = seq ∧ Offered s t es ∧
      LogOf id (if stream.length % 7 = 0 then []
        else [padFrame s.cfg.fpPad (streamFrame seq stream (stream.length / 7))]) es := by
  obtain ⟨hm, hi, hq, htot, hw, hf, ho, hb⟩ := hs
  have hdone : ¬ s.fr.written.toNat < s.fr.total.toNat := by rw [htot]; omega
  rw [finishFast, hm]
  simp only [if_neg hdone]
  by_cases h0 : stream.length % 7 = 0
  · rw [if_neg (by omega), if_pos h0]
    exact ⟨_, [], rfl, rfl, hq, Offered.nil rfl, rfl⟩
  · rw [if_pos (by omega), if_neg h0, hi]
    obtain ⟨es, h1, h2⟩ := transmit_offered hid (residualFrame s.cfg.fpPad s.fr) s
    have hfull : bufFront s.fr.off.toNat s.fr.buf = streamFrame seq stream (stream.length / 7) := by
      rw [hb, streamFrame, List.take_of_length_le (by simp; omega)]
    have hlen : (streamFrame seq stream (stream.length / 7)).length = s.fr.off.toNat := by
      rw [← hfull]; exact bufFront_length _ _ (by omega)
    have e : residualFrame s.cfg.fpPad s.fr =
        padFrame s.cfg.fpPad (streamFrame seq stream (stream.length / 7)) := by
      cases s.cfg.fpPad with
      | unpadded => exact hfull
      | padFF =>
        show bufFront _ _ ++ List.replicate (8 - _) _ = _ ++ List.replicate (8 - _) _
        rw [hfull, hlen]
    refine ⟨_, es, rfl, rfl, ?_, h2.setFr _, ?_⟩
    · show (transmit id _ s).fr.seq = _
      rw [transmit_fr, hq]
    · rw [← e]; exact h1

/-- The frames that appends fill and the one that the finish sends are the frames of R145 and R146. -/
theorem fastFrames_eq (pad : FpPad) (seq : BitVec 3) (payload : List Byte)
    (hl : payload.length ≤ 223) :
    (List.range' 0 ((payload.length + 1) / 7)).map
        (streamFrame seq (BitVec.ofNat 8 payload.length :: payload)) ++
      (if (payload.length + 1) % 7 = 0 then []
        else [padFrame pad (streamFrame seq (BitVec.ofNat 8 payload.length :: payload)
          ((payload.length + 1) / 7))]) =
    fastFrames pad seq payload := by
  have hfull : (List.range' 0 ((payload.length + 1) / 7)).map
      (streamFrame seq (BitVec.ofNat 8 payload.length :: payload)) =
      (List.range ((payload.length + 1) / 7)).map fun f =>
        padFrame pad (fastFrameData seq payload f) := by
    rw [← List.range_eq_range']
    apply List.map_congr_left
    intro f hf
    rw [List.mem_range] at hf
    rw [← streamFrame_eq _ _ _ (by omega)]
    cases pad with
    | unpadded => rfl
    | padFF =>
      have : (streamFrame seq (BitVec.ofNat 8 payload.length :: payload) f).length = 8 := by
        simp [streamFrame]; omega
      simp [padFrame, this]
  rw [hfull, fastFrames, fastFrameCount]
  split
  · rw [show (payload.length + 7) / 7 = (payload.length + 1) / 7 by omega, List.append_nil]
  · rw [show (payload.length + 7) / 7 = (payload.length + 1) / 7 + 1 by omega, List.range_succ,
      List.map_append, List.map_singleton, streamFrame_eq _ _ _ (by omega)]

/-! ### Whole packets -/

/-- The encoding of frame 0 leaves a framer that meets the invariants of R36 (R129). -/
theorem fastStarted_inv (id : CanId) {total : Byte} (h : total.toNat ≤ 223) (f : Framer) :
    (fastStarted id total f).Inv :=
  ⟨fun h => (by cases h), fun _ => ⟨by simp [fastStarted], by simp [fastStarted],
    by simp [fastStarted], by simp [fastStarted], Nat.zero_le _, h, rfl⟩⟩

/-- A whole fast packet: it completes, and offers its frames unless the identifier is 0 (R55, R129,
R144 to R146). -/
theorem sendFast_offers {pgn : Pgn24} {prio : Prio} {src dst : Addr} {payload : List Byte}
    {s : State} {id : CanId} {encFail : Bool} (hm : s.fr.mode = .idle)
    (hl : payload.length ≤ 223) (he : encodeId pgn prio src dst = .ok (id, encFail)) :
    ∃ t es, sendFast pgn prio src dst (BitVec.ofNat 8 payload.length) payload s = .next t ∧
      t.fr.mode = .idle ∧ t.fr.seq = s.fr.seq + 1 ∧ Offered s t es ∧
      LogOf id (if id = 0 then [] else fastFrames s.cfg.fpPad (s.fr.seq + 1) payload) es := by
  have htn : (BitVec.ofNat 8 payload.length).toNat = payload.length := by simp; omega
  have hst := startFast_eq_next.mpr ⟨hm, by rw [htn]; exact hl, _, he, rfl⟩
  have key : ∀ m t, appendAll payload
      (s.setFr (fastStarted id (BitVec.ofNat 8 payload.length) s.fr)) = .next m →
      finishFast m = .next t →
      sendFast pgn prio src dst (BitVec.ofNat 8 payload.length) payload s = .next t :=
    fun m t h1 h2 => sendFast_eq_next.mpr
      ⟨_, m, hst, by rw [outBytes_of_busy (by intro h; cases h)]; exact h1, h2⟩
  by_cases hid : id = 0
  · subst hid
    obtain ⟨m, es, h1, hi, hw, ho, -, hlen, -⟩ := appendAll_of_fast payload
      (s := s.setFr (fastStarted 0 (BitVec.ofNat 8 payload.length) s.fr)) rfl
      (fastStarted_inv _ (by rw [htn]; exact hl) _)
      (by show 0 + payload.length ≤ (BitVec.ofNat 8 payload.length).toNat; omega)
    obtain ⟨f1, f2, f3, f4⟩ := appendAll_fixed h1
    have hes : es = [] := List.length_eq_zero_iff.mp (by rw [hlen]; exact if_pos rfl)
    subst hes
    have hmi : m.fr.id = 0 := f2
    have hfin : finishFast m = .next (goIdle m) := by
      rw [finishFast, show m.fr.mode = .fast from f1]
      have hd : ¬ m.fr.written.toNat < m.fr.total.toNat := by
        rw [hw, show m.fr.total = _ from f4]
        show ¬ 0 + payload.length < (BitVec.ofNat 8 payload.length).toNat
        omega
      simp only [if_neg hd]
      split
      · rw [hmi]; rfl
      · rfl
    exact ⟨goIdle m, [], key _ _ h1 hfin, rfl, f3, Offered.of_setFr (ho.setFr _), rfl⟩
  · have h0 := fastStarted_streamed id (BitVec.ofNat 8 payload.length) s.fr
    obtain ⟨m, es1, h1, hs1, ho1, hl1⟩ := appendAll_streamed hid (by omega) payload
      (s := s.setFr (fastStarted id (BitVec.ofNat 8 payload.length) s.fr)) h0 (by simp; omega)
    obtain ⟨t, es2, h2, hi2, hq2, ho2, hl2⟩ := finishFast_streamed hid hs1 (by simp; omega)
    refine ⟨t, es1 ++ es2, key _ _ h1 h2, hi2, hq2, Offered.of_setFr (ho1.trans ho2), ?_⟩
    have hc : m.cfg = s.cfg := ho1.only.cfg
    have h12 := LogOf.append hl1 hl2
    rw [hc] at h12
    simp only [List.length_cons, List.length_nil, List.singleton_append] at h12
    rw [if_neg hid, ← fastFrames_eq s.cfg.fpPad (s.fr.seq + 1) payload hl]
    simpa [Nat.add_comm] using h12

/-- A whole single packet: it completes, and offers its first 8 bytes unless it has none or the identifier
is 0 (R55, R128, R143, R148). -/
theorem sendSingle_offers {pgn : Pgn24} {prio : Prio} {src dst : Addr} (bs : List Byte)
    {s : State} {id : CanId} {encFail : Bool} (hm : s.fr.mode = .idle)
    (he : encodeId pgn prio src dst = .ok (id, encFail)) :
    ∃ t es, sendSingle pgn prio src dst bs s = .next t ∧ t.fr.mode = .idle ∧
      t.fr = { s.fr with buf := t.fr.buf, off := t.fr.off, id := id } ∧
      t.txLog = s.txLog ++ es ∧
      t.cnt = { s.cnt.afterSends es with
        frameErr := s.cnt.frameErr + BitVec.ofNat 32 (bs.length - 8) } ∧
      LogOf id (if id = 0 ∨ bs = [] then [] else [bs.take 8]) es ∧ SendsOnly s t := by
  have hst : startSingle pgn prio src dst s =
      .next (s.setFr { s.fr with id := id, off := 0, mode := .single }) :=
    startSingle_eq_next.mpr ⟨hm, _, he, rfl⟩
  obtain ⟨n, h1, hb1, ho1, hc1, hs1⟩ := appendAll_of_single bs
    (s := s.setFr { s.fr with id := id, off := 0, mode := .single }) rfl (Nat.zero_le _)
  have hnm : n.fr.mode = .single := by rw [hs1]; rfl
  have hni : n.fr.id = id := by rw [hs1]; rfl
  have hnf : { n.fr with mode := FrMode.idle } =
      { s.fr with buf := n.fr.buf, off := n.fr.off, id := id } := by
    conv_lhs => rw [hs1]
    rw [← hm]
    rfl
  have hfront : bufFront n.fr.off.toNat n.fr.buf = bs.take 8 := by rw [hb1]; simp [bufFront]
  have hlogn : n.txLog = s.txLog := by rw [hs1]; rfl
  have hso : SendsOnly s n := by rw [SendsOnly, hs1]; rfl
  have hlen : n.fr.off.toNat = min 8 bs.length := by
    rw [ho1]
    show min 8 (0 + _) = _
    rw [Nat.zero_add]
  have hcn : n.cnt = { s.cnt with
      frameErr := s.cnt.frameErr + BitVec.ofNat 32 (bs.length - 8) } := by
    have h0 : (s.setFr { s.fr with id := id, off := 0, mode := .single }).fr.off.toNat = 0 := rfl
    rw [hc1, h0, Nat.zero_add]
    rfl
  have key : ∀ t, finishSingle n = .next t → sendSingle pgn prio src dst bs s = .next t :=
    fun t ht => sendSingle_eq_next.mpr
      ⟨_, n, hst, by rw [outBytes_of_busy (by intro h; cases h)]; exact h1, ht⟩
  by_cases h0 : id = 0 ∨ bs = []
  · refine ⟨goIdle n, [], key _ ?_, rfl, hnf, by rw [List.append_nil]; exact hlogn, ?_, ?_,
      hso.trans (SendsOnly.setFr _ _)⟩
    · rw [finishSingle, hnm]
      simp only []
      rcases h0 with h0 | h0
      · split
        · rw [hni, h0]; rfl
        · rfl
      · rw [if_neg (by rw [hlen, h0]; simp)]
    · rw [Counters.afterSends_nil]; exact hcn
    · rw [if_pos h0]; rfl
  · have hpos : 0 < n.fr.off.toNat := by
      have : 0 < bs.length := List.length_pos_iff.mpr (not_or.mp h0).2
      rw [hlen]; omega
    obtain ⟨es, hl, ho⟩ := transmit_offered (not_or.mp h0).1 (bs.take 8) n
    refine ⟨goIdle (transmit id (bs.take 8) n), es, key _ ?_, rfl, ?_, ?_, ?_, ?_,
      (hso.trans ho.only).trans (SendsOnly.setFr _ _)⟩
    · rw [finishSingle, hnm]
      simp only []
      rw [if_pos hpos, hfront, hni]
    · have hg : (goIdle (transmit id (bs.take 8) n)).fr = { n.fr with mode := .idle } := by
        rw [goIdle, State.setFr_fr, transmit_fr]
      rw [hg]
      exact hnf
    · show (transmit id _ n).txLog = _
      rw [ho.log, hlogn]
    · show (transmit id _ n).cnt = _
      rw [ho.cnt, hcn]
      rfl
    · rw [if_neg h0]; exact hl

end Sys2Proof.Machine
end

