-- ==== Sys2Proof/Laws/PerInstr.lean ====
section
/-! SUPPORT. Statements about every command as syntax, one lemma per constructor. -/

set_option Elab.async false

namespace Sys2Proof.Laws.OpcodeFirst

open Sys2Proof

/-- The command codes of spec/30_encoding.md rule R64. -/
def legalCodes : List Byte :=
  [0x01, 0x02, 0x03, 0x10, 0x11, 0x12, 0x13, 0x14, 0x15, 0x18, 0x19, 0x1A, 0x1B, 0x1C, 0x1D, 0x20,
    0x21, 0x22, 0x23, 0x24, 0x25, 0x26, 0x27, 0x28, 0x29, 0x2A, 0x2B, 0x2C, 0x2D, 0x2E, 0x2F, 0x30,
    0x31, 0x32, 0x40, 0x41, 0x50, 0x51, 0x52]

/-- A command stands on the port with its 8-bit code first, and the code is one of R64 (R63, R64). -/
def Statement (i : Instr) : Prop :=
  (encode i).head? = some (opcode i) ∧ opcode i ∈ legalCodes

theorem of_code {i : Instr} (h : opcode i ∈ legalCodes) : Statement i := ⟨rfl, h⟩

theorem idPgnof (id : CanId) : Statement (.idPgnof id) :=
  of_code (by rw [opcode]; decide)

theorem idDecode (id : CanId) : Statement (.idDecode id) :=
  of_code (by rw [opcode]; decide)

theorem idEncode (pgn : Pgn24) (prio : Prio) (src dst : Addr) : Statement (.idEncode pgn prio src dst) :=
  of_code (by rw [opcode]; decide)

theorem numEncU16 (value prec : NumOperand) : Statement (.numEncU16 value prec) :=
  of_code (by rw [opcode]; decide)

theorem numEncS16 (value prec : NumOperand) : Statement (.numEncS16 value prec) :=
  of_code (by rw [opcode]; decide)

theorem numEncU24 (value prec : NumOperand) : Statement (.numEncU24 value prec) :=
  of_code (by rw [opcode]; decide)

theorem numEncS24 (value prec : NumOperand) : Statement (.numEncS24 value prec) :=
  of_code (by rw [opcode]; decide)

theorem numEncU32 (value prec : NumOperand) : Statement (.numEncU32 value prec) :=
  of_code (by rw [opcode]; decide)

theorem numEncS32 (value prec : NumOperand) : Statement (.numEncS32 value prec) :=
  of_code (by rw [opcode]; decide)

theorem numDecU16 (raw : Vector Byte 2) (prec : NumOperand) : Statement (.numDecU16 raw prec) :=
  of_code (by rw [opcode]; decide)

theorem numDecS16 (raw : Vector Byte 2) (prec : NumOperand) : Statement (.numDecS16 raw prec) :=
  of_code (by rw [opcode]; decide)

theorem numDecU24 (raw : Vector Byte 3) (prec : NumOperand) : Statement (.numDecU24 raw prec) :=
  of_code (by rw [opcode]; decide)

theorem numDecS24 (raw : Vector Byte 3) (prec : NumOperand) : Statement (.numDecS24 raw prec) :=
  of_code (by rw [opcode]; decide)

theorem numDecU32 (raw : Vector Byte 4) (prec : NumOperand) : Statement (.numDecU32 raw prec) :=
  of_code (by rw [opcode]; decide)

theorem numDecS32 (raw : Vector Byte 4) (prec : NumOperand) : Statement (.numDecS32 raw prec) :=
  of_code (by rw [opcode]; decide)

theorem frStart (pgn : Pgn24) (prio : Prio) (src dst : Addr) : Statement (.frStart pgn prio src dst) :=
  of_code (by rw [opcode]; decide)

theorem frStartFast (pgn : Pgn24) (prio : Prio) (src dst : Addr) (total : Byte) : Statement (.frStartFast pgn prio src dst total) :=
  of_code (by rw [opcode]; decide)

theorem frOutByte (b : Byte) : Statement (.frOutByte b) :=
  of_code (by rw [opcode]; decide)

theorem frOutRaw16 (v : BitVec 16) : Statement (.frOutRaw16 v) :=
  of_code (by rw [opcode]; decide)

theorem frOutRaw24 (v : BitVec 24) : Statement (.frOutRaw24 v) :=
  of_code (by rw [opcode]; decide)

theorem frOutRaw32 (v : BitVec 32) : Statement (.frOutRaw32 v) :=
  of_code (by rw [opcode]; decide)

theorem frOutFixstr (str : List Byte) (maxLen pad : Byte) : Statement (.frOutFixstr str maxLen pad) :=
  of_code (by rw [opcode]; decide)

theorem frOutVarstr (str : List Byte) : Statement (.frOutVarstr str) :=
  of_code (by rw [opcode]; decide)

theorem frOutNumU16 (value prec : NumOperand) : Statement (.frOutNumU16 value prec) :=
  of_code (by rw [opcode]; decide)

theorem frOutNumS16 (value prec : NumOperand) : Statement (.frOutNumS16 value prec) :=
  of_code (by rw [opcode]; decide)

theorem frOutNumU24 (value prec : NumOperand) : Statement (.frOutNumU24 value prec) :=
  of_code (by rw [opcode]; decide)

theorem frOutNumS24 (value prec : NumOperand) : Statement (.frOutNumS24 value prec) :=
  of_code (by rw [opcode]; decide)

theorem frOutNumU32 (value prec : NumOperand) : Statement (.frOutNumU32 value prec) :=
  of_code (by rw [opcode]; decide)

theorem frOutNumS32 (value prec : NumOperand) : Statement (.frOutNumS32 value prec) :=
  of_code (by rw [opcode]; decide)

theorem frFinish : Statement .frFinish :=
  of_code (by rw [opcode]; decide)

theorem frFinishFast : Statement .frFinishFast :=
  of_code (by rw [opcode]; decide)

theorem acClaim : Statement .acClaim :=
  of_code (by rw [opcode]; decide)

theorem acPoll : Statement .acPoll :=
  of_code (by rw [opcode]; decide)

theorem acRxClaim (frame : Frame) : Statement (.acRxClaim frame) :=
  of_code (by rw [opcode]; decide)

theorem isoRxRequest (frame : Frame) : Statement (.isoRxRequest frame) :=
  of_code (by rw [opcode]; decide)

theorem isoRxAck (frame : Frame) : Statement (.isoRxAck frame) :=
  of_code (by rw [opcode]; decide)

theorem pump : Statement .pump :=
  of_code (by rw [opcode]; decide)

theorem status : Statement .status :=
  of_code (by rw [opcode]; decide)

theorem engOpen (bitrate clockConfig : Nat) : Statement (.engOpen bitrate clockConfig) :=
  of_code (by rw [opcode]; decide)

end Sys2Proof.Laws.OpcodeFirst
end

