-- ==== Sys2Proof/Laws/Service.lean ====
section
/-! SUPPORT. What the address claim arbitrator and the ISO service dispatcher do: the identifiers they send under, the claim, and the conditions they test. -/

set_option Elab.async false

namespace Sys2Proof.Machine

/-! ### Identifiers (R92) -/

/-- A PDU1 PGN with a zero low byte encodes, and `dst` fills bits 15:8. -/
theorem encodeId_pdu1 {pgn : Pgn24} (prio : Prio) (src dst : Addr) (h : pgn.toNat < 2 ^ 17)
    (h1 : pgn.toNat / 2 ^ 8 % 256 < 240) (h2 : pgn.toNat % 256 = 0) :
    encodeId pgn prio src dst = .ok (packId pgn prio src dst, false) ∧
    (packId pgn prio src dst).toNat =
      prio.toNat * 2 ^ 26 + pgn.toNat * 2 ^ 8 + dst.toNat * 2 ^ 8 + src.toNat := by
  have hf : ¬ encFails pgn = true := by rw [encFails_iff]; exact fun h => h.2 h2
  refine ⟨encodeId_eq_ok.mpr ⟨h, by rw [if_neg hf]⟩, ?_⟩
  rw [packId_toNat _ _ _ _ h (fun _ => h2), if_pos h1]

/-- A PDU2 PGN encodes, and `dst` is not used. -/
theorem encodeId_pdu2 {pgn : Pgn24} (prio : Prio) (src dst : Addr) (h : pgn.toNat < 2 ^ 17)
    (h1 : ¬ pgn.toNat / 2 ^ 8 % 256 < 240) :
    encodeId pgn prio src dst = .ok (packId pgn prio src dst, false) ∧
    (packId pgn prio src dst).toNat = prio.toNat * 2 ^ 26 + pgn.toNat * 2 ^ 8 + src.toNat := by
  have hf : ¬ encFails pgn = true := by rw [encFails_iff]; exact fun h => h1 h.1
  refine ⟨encodeId_eq_ok.mpr ⟨h, by rw [if_neg hf]⟩, ?_⟩
  rw [packId_toNat _ _ _ _ h (fun h => absurd h h1), if_neg h1, Nat.add_zero]

/-- An identifier with a positive number is not 0. -/
theorem canId_ne_zero {id : CanId} (h : 0 < id.toNat) : id ≠ 0 := by
  intro h0
  rw [h0] at h
  exact absurd h (by decide)

/-- The log of one frame is one entry. -/
theorem LogOf.single {id : CanId} {d : List Byte} {es : List TxEntry} (h : LogOf id [d] es) :
    ∃ r, es = [{ id := id, data := d, ok := r }] := by
  match es, h.length with
  | [e], _ =>
    obtain ⟨h1, h2⟩ := h.mem (List.mem_singleton.mpr rfl)
    exact ⟨e.ok, by rw [← h1, ← List.mem_singleton.mp h2]⟩

/-! ### The NAME (R25, R73, R154) -/

theorem nameBytes_eq (n : NameWord) :
    nameBytes n = (List.range 8).map fun j => n.extractLsb' (8 * j) 8 := by
  simp only [nameBytes, leBytes, List.range, List.range.loop, List.map_cons, List.map_nil,
    List.cons.injEq, and_true]
  refine ⟨?_, ?_, ?_, ?_, ?_, ?_, ?_, ?_⟩ <;> apply BitVec.eq_of_toNat_eq <;>
    simp only [BitVec.toNat_ofNat, BitVec.extractLsb'_toNat, Nat.shiftRight_eq_div_pow,
      Nat.div_div_eq_div_mul]
  all_goals norm_num

theorem nameBytes_length (n : NameWord) : (nameBytes n).length = 8 := by simp [nameBytes]

theorem nameOfBytes_toNat {bs : List Byte} (h : bs.length = 8) :
    (nameOfBytes bs).toNat = leNat bs := by
  have hb := leNat_lt bs
  rw [h] at hb
  rw [nameOfBytes, BitVec.toNat_ofNat, Nat.mod_eq_of_lt]
  exact hb

/-- The tie-break writes the device instance and no other bit of the NAME. -/
theorem withDeviceInstance_bits (n : NameWord) (t : Millis) :
    (withDeviceInstance n t).extractLsb' 32 8 = t.extractLsb' 0 8 &&& 0x7F ∧
    (withDeviceInstance n t).extractLsb' 0 32 = n.extractLsb' 0 32 ∧
    (withDeviceInstance n t).extractLsb' 40 24 = n.extractLsb' 40 24 := by
  refine ⟨?_, ?_, ?_⟩ <;> apply BitVec.eq_of_getLsbD_eq <;> intro i hi <;>
    simp only [withDeviceInstance, BitVec.getLsbD_extractLsb', BitVec.getLsbD_or,
      BitVec.getLsbD_and, BitVec.getLsbD_shiftLeft, BitVec.getLsbD_not,
      BitVec.getLsbD_setWidth] <;>
    interval_cases i <;> simp

/-! ### The claim (R149 to R151) -/

/-- Everything a claim from IDLE does. -/
theorem claimAddress_offers {s : State} (hm : s.fr.mode = .idle) :
    ∃ (t : State) (id : CanId) (es : List TxEntry), claimAddress s = .next t ∧
      id.toNat = s.cfg.claimPrio.toNat * 2 ^ 26 + 0x00EEFF00 + s.devAddr.toNat ∧
      LogOf id [nameBytes s.name] es ∧ t.txLog = s.txLog ++ es ∧ t.cnt = s.cnt.afterSends es ∧
      t.claimT = now s ∧ t.claimedOnce = true ∧
      t.fr = { s.fr with buf := t.fr.buf, off := t.fr.off, id := t.fr.id } ∧
      SendsOnly ((s.setClaimT (now s)).setClaimedOnce true) t := by
  obtain ⟨he, hid⟩ := encodeId_pdu1 (pgn := 60928) s.cfg.claimPrio s.devAddr 0xFF (by decide)
    (by decide) (by decide)
  have e : (60928 : Pgn24).toNat * 2 ^ 8 + (0xFF : Addr).toNat * 2 ^ 8 = 0x00EEFF00 := by decide
  rw [Nat.add_assoc (_ * _), e] at hid
  have hne := canId_ne_zero (by rw [hid]; exact Nat.add_pos_left (Nat.add_pos_right _ (by decide)) _)
  obtain ⟨t, es, h1, -, hf, hl, hc, hlog, ho⟩ := sendSingle_offers (nameBytes s.name) hm he
  have hnn : nameBytes s.name ≠ [] := by
    intro h; have := nameBytes_length s.name; rw [h] at this; cases this
  rw [if_neg (not_or.mpr ⟨hne, hnn⟩), List.take_of_length_le (by rw [nameBytes_length])] at hlog
  refine ⟨(t.setClaimT (now s)).setClaimedOnce true, _, es, ?_, hid, hlog, hl, ?_, rfl, rfl, ?_, ?_⟩
  · rw [claimAddress, sendClaim, h1]; rfl
  · show t.cnt = _
    rw [hc, nameBytes_length]
    simp [Counters.afterSends]
  · show t.fr = { s.fr with buf := t.fr.buf, off := t.fr.off, id := t.fr.id }
    conv_lhs => rw [hf]
    rw [hf]
  · rw [SendsOnly]
    conv_lhs => rw [ho]
    rfl

/-- A claim while a packet is in progress is refused (R121, R149). -/
theorem claimAddress_of_busy {s : State} (h : s.fr.mode ≠ .idle) :
    claimAddress s = .refused .packetInProgress := by
  rw [claimAddress, sendClaim, sendSingle_of_busy h]
  rfl

/-- The condition of R151 as arithmetic modulo 2^32. -/
theorem windowPassed_iff (t c : Millis) :
    windowPassed t c = true ↔ 250 < (t.toNat + (2 ^ 32 - c.toNat)) % 2 ^ 32 := by
  rw [windowPassed, decide_eq_true_iff, claimWindowMs, BitVec.toNat_sub, Nat.add_comm]

/-- A claim that is not pending is cleared by the poll. -/
theorem expireClaim_of_passed {s : State} (h : s.claimT = 0 ∨ 250 < (now s - s.claimT).toNat) :
    expireClaim s = s.setClaimT 0 := by
  rw [expireClaim]
  congr 1
  rcases h with h | h
  · rw [h]; exact ite_self _
  · exact if_pos (decide_eq_true h)

/-- A pending claim is left by the poll. -/
theorem expireClaim_of_pending {s : State} (h : (now s - s.claimT).toNat ≤ 250) :
    expireClaim s = s := by
  rw [expireClaim, if_neg]
  · rfl
  · rw [windowPassed, decide_eq_true_iff, claimWindowMs]; omega

/-! ### Requests (R167, R168) -/

/-- The first two checks of a request as propositions. -/
theorem requestForUs_iff (f : Frame) (s : State) : requestForUs f s = true ↔
    (3 ≤ f.len ∧ f.len ≤ 8) ∧ ((decodeId f.id).dst = 0xFF ∨ (decodeId f.id).dst = s.devAddr) := by
  simp [requestForUs]

/-- The requested PGN as a number (R83). -/
theorem requestedPgn_toNat (f : Frame) : (requestedPgn f).toNat = leNat (f.data.take 3) := by
  have h := leNat_lt (f.data.take 3)
  have h3 : (f.data.take 3).length ≤ 3 := by simp
  have h4 : 256 ^ (f.data.take 3).length ≤ 256 ^ 3 := Nat.pow_le_pow_right (by norm_num) h3
  rw [requestedPgn, BitVec.toNat_ofNat, Nat.mod_eq_of_lt]
  exact lt_of_lt_of_le h h4

/-- A request that passes the three checks is answered with the claim timer cleared (R167). -/
theorem receiveRequest_of_checks {f : Frame} {s : State} (left : Option Nat) (h3 : 3 ≤ f.len)
    (h8 : f.len ≤ 8) (hd : (decodeId f.id).dst = 0xFF ∨ (decodeId f.id).dst = s.devAddr)
    (hc : s.claimT = 0 ∨ 250 < (now s - s.claimT).toNat) :
    receiveRequest f left s = respond f left (s.setClaimT 0) := by
  rw [receiveRequest, if_pos ((requestForUs_iff f s).mpr ⟨⟨h3, h8⟩, hd⟩), expireClaim_of_passed hc]
  rfl

/-- ISO_RX_REQUEST of a request that passes the three checks. -/
theorem execIsoRxRequest_of_checks {f : Frame} {s : State} (h3 : 3 ≤ f.len) (h8 : f.len ≤ 8)
    (hd : (decodeId f.id).dst = 0xFF ∨ (decodeId f.id).dst = s.devAddr)
    (hc : s.claimT = 0 ∨ 250 < (now s - s.claimT).toNat) :
    execIsoRxRequest f s =
      done (andThen (respond f none (s.setClaimT 0)) fun r => .next (flowState r)) := by
  rw [execIsoRxRequest, receiveRequest_of_checks none h3 h8 hd hc]

/-! ### Responders (R162, R165, R167) -/

theorem ackTail_length (c : Config) (req : Pgn24) : (ackTail c req).length = 6 := by
  rw [ackTail]; split <;> simp [defaultAckTail]

/-- Everything a NAK from IDLE does. -/
theorem sendNak_offers {req : Pgn24} {dst : Addr} {s : State} (hm : s.fr.mode = .idle) :
    ∃ (t : State) (id : CanId) (r : Bool), sendNak req dst s = .next t ∧
      id.toNat = s.cfg.respPrio.toNat * 2 ^ 26 + 0x00E80000 + dst.toNat * 256 + s.devAddr.toNat ∧
      t.txLog = s.txLog ++ [{ id := id, data := 0x01 :: 0xFF :: ackTail s.cfg req, ok := r }] ∧
      t.fr.mode = .idle ∧ t.fr.seq = s.fr.seq ∧
      t.cnt = s.cnt.afterSends [{ id := id, data := 0x01 :: 0xFF :: ackTail s.cfg req, ok := r }] ∧
      SendsOnly s t := by
  obtain ⟨he, hid⟩ := encodeId_pdu1 (pgn := 59392) s.cfg.respPrio s.devAddr dst (by decide)
    (by decide) (by decide)
  have e : (59392 : Pgn24).toNat * 2 ^ 8 = 0x00E80000 := by decide
  rw [e] at hid
  have hne := canId_ne_zero
    (by rw [hid]; exact Nat.add_pos_left (Nat.add_pos_left (Nat.add_pos_right _ (by decide)) _) _)
  obtain ⟨t, es, h1, hi, hf, hl, hc, hlog, ho⟩ :=
    sendSingle_offers (0x01 :: 0xFF :: ackTail s.cfg req) hm he
  rw [if_neg (not_or.mpr ⟨hne, List.cons_ne_nil _ _⟩),
    List.take_of_length_le (by simp [ackTail_length])] at hlog
  obtain ⟨r, rfl⟩ := hlog.single
  refine ⟨t, _, r, h1, hid, hl, hi, by rw [hf], ?_, ho⟩
  rw [hc]; simp [ackTail_length, Counters.afterSends]

theorem pgnListPayload_length (listType : Byte) (list : List Pgn24) :
    (pgnListPayload listType list).length = 1 + 3 * list.length := by
  have entries : (list.flatMap fun p => leBytes 3 p.toNat).length = 3 * list.length := by
    induction list with
    | nil => rfl
    | cons p list ih => simp [ih]; omega
  rw [pgnListPayload, List.length_cons, entries]
  omega

theorem pgnListPayload_eq (listType : Byte) (list : List Pgn24) : pgnListPayload listType list =
    listType :: list.flatMap fun p =>
      [p.extractLsb' 0 8, p.extractLsb' 8 8, p.extractLsb' 16 8] := by
  simp only [pgnListPayload, leBytes_three]

end Sys2Proof.Machine
end

