-- ==== Sys2Proof/Laws/Pump.lean ====
section
/-! SUPPORT. What one frame does in the message pump, and what follows for its loop: a frame is dropped or routed to its end, whatever polls are left, or it calls the application. -/

set_option Elab.async false

namespace Sys2Proof.Machine

/-! ### What a routed command leaves alone -/

/-- `t` has the suspended commands, the result port, the received-frame counters and the outside agents of
`s`, but for the transport's answers to sends. -/
structure Sent (s t : State) : Prop where
  calls : t.calls = s.calls
  result : t.result = s.result
  world : t.world = s.world.afterSends t
  rx : t.cnt.rx = s.cnt.rx
  drop : t.cnt.drop = s.cnt.drop

theorem Sent.refl (s : State) : Sent s s := ⟨rfl, rfl, rfl, rfl, rfl⟩

theorem Sent.trans {s t u : State} (h1 : Sent s t) (h2 : Sent t u) : Sent s u :=
  ⟨h2.calls.trans h1.calls, h2.result.trans h1.result, by rw [h2.world, h1.world]; rfl, h2.rx.trans h1.rx,
    h2.drop.trans h1.drop⟩

theorem Sent.of_sendsOnly {s t : State} (h : SendsOnly s t) (hr : t.cnt.rx = s.cnt.rx)
    (hd : t.cnt.drop = s.cnt.drop) : Sent s t :=
  ⟨h.calls, h.result, congrArg State.world h, hr, hd⟩

theorem Sent.recvIn {s t : State} (h : Sent s t) : t.world.recvIn = s.world.recvIn := by
  rw [h.world]; rfl

theorem Sent.port {s t : State} (h : Sent s t) : t.world.port = s.world.port := by
  rw [h.world]; rfl

theorem transmit_sent (id : CanId) (bs : List Byte) (s : State) : Sent s (transmit id bs s) := by
  refine .of_sendsOnly (transmit_sendsOnly s id bs) ?_ ?_ <;> rw [transmit_cnt] <;> split <;> rfl

theorem appendByte_sent {b : Byte} {s t : State} (h : appendByte b s = .next t) : Sent s t := by
  rcases appendByte_cases h with ⟨-, -, rfl⟩ | ⟨-, -, rfl⟩ | ⟨-, -, -, rfl⟩ | ⟨-, -, -, rfl⟩
  · exact ⟨rfl, rfl, rfl, rfl, rfl⟩
  · exact ⟨rfl, rfl, rfl, rfl, rfl⟩
  · exact ⟨rfl, rfl, rfl, rfl, rfl⟩
  · have h1 : Sent s (fastPut b s) := ⟨rfl, rfl, rfl, rfl, rfl⟩
    have h2 := h1.trans (transmit_sent (fastPut b s).fr.id (bufFront 8 (fastPut b s).fr.buf) _)
    exact ⟨h2.calls, h2.result, h2.world, h2.rx, h2.drop⟩

theorem goIdle_sent {s t : State} (h : Sent s t) : Sent s (goIdle t) :=
  ⟨h.calls, h.result, h.world, h.rx, h.drop⟩

theorem sendSingle_sent {s t : State} {pgn prio src dst bs}
    (h : sendSingle pgn prio src dst bs s = .next t) : Sent s t := by
  refine sendSingle_of_parts (R := Sent) Sent.trans Sent.refl (fun h => ?_) appendByte_sent
    (fun h => ?_) h
  · obtain ⟨-, r, -, rfl⟩ := startSingle_eq_next.mp h
    exact ⟨rfl, rfl, rfl, rfl, rfl⟩
  · rcases finishSingle_cases h with ⟨-, rfl⟩ | ⟨-, -, rfl⟩ | ⟨-, -, rfl⟩
    · exact ⟨rfl, rfl, rfl, rfl, rfl⟩
    · exact ⟨rfl, rfl, rfl, rfl, rfl⟩
    · exact goIdle_sent (transmit_sent _ _ _)

theorem sendFast_sent {s t : State} {pgn prio src dst total bs}
    (h : sendFast pgn prio src dst total bs s = .next t) : Sent s t := by
  obtain ⟨m, n, h1, h2, h3⟩ := sendFast_eq_next.mp h
  obtain ⟨-, -, r, -, rfl⟩ := startFast_eq_next.mp h1
  have hn : Sent (s.setFr (fastStarted r.1 total s.fr)) n := by
    rw [outBytes] at h2
    split at h2
    · cases h2
    · exact appendAll_induction Sent.refl (fun h1 h2 => (appendByte_sent h1).trans h2) h2
  have hs : Sent s (s.setFr (fastStarted r.1 total s.fr)) := ⟨rfl, rfl, rfl, rfl, rfl⟩
  refine (hs.trans hn).trans ?_
  rcases finishFast_cases h3 with ⟨-, rfl⟩ | ⟨-, -, -, rfl⟩ | ⟨-, -, -, rfl⟩
  · exact ⟨rfl, rfl, rfl, rfl, rfl⟩
  · exact ⟨rfl, rfl, rfl, rfl, rfl⟩
  · exact goIdle_sent (transmit_sent _ _ _)

theorem claimAddress_sent {s t : State} (h : claimAddress s = .next t) : Sent s t :=
  claimAddress_of_parts (R := Sent) Sent.trans sendSingle_sent (fun _ => ⟨rfl, rfl, rfl, rfl, rfl⟩) h

/-- An Address Claim received: the draws of missing NAME bytes are its only other draws. -/
theorem receiveClaim_sent {f : Frame} {s t : State} (h : receiveClaim f s = .next t) :
    Sent s t := by
  rw [receiveClaim] at h
  split at h
  · cases h; exact .refl s
  · split at h
    · cases h; exact .refl s
    · have h0 : Sent s (remoteNameBytes f s).2 := by
        show Sent s (drawBytes _ s).2
        rw [drawBytes_state]
        exact ⟨rfl, rfl, rfl, rfl, rfl⟩
      have named : ∀ n, Sent s ((remoteNameBytes f s).2.setName n) :=
        fun n => ⟨h0.calls, h0.result, h0.world, h0.rx, h0.drop⟩
      have moved : ∀ a, Sent s ((remoteNameBytes f s).2.setDevAddr a) :=
        fun a => ⟨h0.calls, h0.result, h0.world, h0.rx, h0.drop⟩
      simp only [arbitrate] at h
      split at h
      · exact (named _).trans (claimAddress_sent h)
      · split at h
        · split at h
          · cases h
          · exact (moved _).trans (claimAddress_sent h)
        · exact h0.trans (claimAddress_sent h)

theorem sendPgnList_sent {listType : Byte} {list : List Pgn24} {dst : Addr} {s t : State}
    (h : sendPgnList listType list dst s = .next t) : Sent s t := by
  rw [sendPgnList] at h
  split at h
  · cases h
  · exact sendFast_sent h

theorem sendConfigInfo_sent {dst : Addr} {s t : State} (h : sendConfigInfo dst s = .next t) :
    Sent s t := by
  rw [sendConfigInfo] at h
  split at h
  · cases h
  · exact sendFast_sent h

theorem toFlow_sent {s : State} {r : Out} {fl : Flow} (hr : ∀ t, r = .next t → Sent s t)
    (h : toFlow r = .next fl) : ∃ m, fl = .done m ∧ Sent s m := by
  obtain ⟨m, h1, h2⟩ := andThen_eq_next.mp h
  cases h2
  exact ⟨m, rfl, hr m h1⟩

/-! ### One request (R166, R167) -/

/-- The answer to a request either ends, the same for every caller, or calls the ISO handler. -/
theorem respond_cases {f : Frame} {left : Option Nat} {s : State} {fl : Flow}
    (h : respond f left s = .next fl) :
    (∃ m, fl = .done m ∧ Sent s m ∧ ∀ left', respond f left' s = .next (.done m)) ∨
    fl = callHost (.isoHandler (requestedPgn f) (decodeId f.id) f.data left) s ∧
      ∀ left', respond f left' s =
        .next (callHost (.isoHandler (requestedPgn f) (decodeId f.id) f.data left') s) := by
  have ends : ∀ {r : Out}, (∀ t, r = .next t → Sent s t) → toFlow r = .next fl →
      ∃ m, fl = .done m ∧ Sent s m ∧ toFlow r = .next (.done m) := fun hr h => by
    obtain ⟨m, rfl, hm⟩ := toFlow_sent hr h
    exact ⟨m, rfl, hm, h⟩
  simp only [respond] at h ⊢
  split at h
  · rename_i hq
    simp only [if_pos hq, forall_const]
    exact .inl (ends (fun _ => claimAddress_sent) h)
  rename_i hq
  simp only [if_neg hq] at h ⊢
  split at h
  · rename_i hq
    simp only [if_pos hq, forall_const]
    refine .inl (ends (fun t ht => ?_) h)
    obtain ⟨m, h1, h2⟩ := andThen_eq_next.mp ht
    exact (sendPgnList_sent h1).trans (sendPgnList_sent h2)
  rename_i hq
  simp only [if_neg hq] at h ⊢
  split at h
  · rename_i hq
    simp only [if_pos hq, forall_const]
    exact .inl (ends (fun _ => sendFast_sent) h)
  rename_i hq
  simp only [if_neg hq] at h ⊢
  split at h
  · rename_i hq
    simp only [if_pos hq, forall_const]
    exact .inl (ends (fun _ => sendConfigInfo_sent) h)
  rename_i hq
  simp only [if_neg hq] at h ⊢
  split at h
  · rename_i hq
    simp only [if_pos hq]
    cases h
    exact .inr ⟨rfl, fun _ => trivial⟩
  · rename_i hq
    simp only [if_neg hq, forall_const]
    exact .inl (ends (fun _ => sendSingle_sent) h)

/-- A request either ends, the same for every caller, or calls the ISO handler. -/
theorem receiveRequest_cases {f : Frame} {left : Option Nat} {s : State} {fl : Flow}
    (h : receiveRequest f left s = .next fl) :
    (∃ m, fl = .done m ∧ Sent s m ∧ ∀ left', receiveRequest f left' s = .next (.done m)) ∨
    fl = callHost (.isoHandler (requestedPgn f) (decodeId f.id) f.data left) (expireClaim s) ∧
      ∀ left', receiveRequest f left' s = .next
        (callHost (.isoHandler (requestedPgn f) (decodeId f.id) f.data left') (expireClaim s)) := by
  have he : Sent s (expireClaim s) := ⟨rfl, rfl, rfl, rfl, rfl⟩
  simp only [receiveRequest] at h ⊢
  split at h
  · rename_i hq
    simp only [if_pos hq]
    split at h
    · rename_i hq
      simp only [if_pos hq]
      rcases respond_cases h with ⟨m, hf, hm, hall⟩ | hf
      · exact .inl ⟨m, hf, he.trans hm, hall⟩
      · exact .inr hf
    · rename_i hq
      simp only [if_neg hq, forall_const]
      cases h
      exact .inl ⟨_, rfl, he, rfl⟩
  · rename_i hq
    simp only [if_neg hq, forall_const]
    cases h
    exact .inl ⟨_, rfl, .refl s, rfl⟩

/-! ### One frame (R177 to R180) -/

/-- One frame of a pump either ends, the same whatever polls are left and counted once, or calls the
application with one more suspended command and the outside agents as they were. -/
theorem handleFrame_cases {f : Frame} {k : Nat} {s : State} {fl : Flow}
    (h : handleFrame f k s = .next fl) :
    (∃ m, fl = .done m ∧ m.calls = s.calls ∧ m.world = s.world.afterSends m ∧
      m.cnt.rx + m.cnt.drop = s.cnt.rx + s.cnt.drop + 1 ∧
      ∀ k', handleFrame f k' s = .next (.done m)) ∨
    ∃ m c, fl = .suspended m ∧ m.calls = c :: s.calls ∧ m.world = s.world := by
  have kept : ∀ {m : State}, Sent (countRx s) m →
      m.calls = s.calls ∧ m.world = s.world.afterSends m ∧
        m.cnt.rx + m.cnt.drop = s.cnt.rx + s.cnt.drop + 1 := fun hm => by
    refine ⟨hm.calls, hm.world, ?_⟩
    rw [hm.rx, hm.drop]
    show s.cnt.rx + 1 + s.cnt.drop = _
    rw [BitVec.add_assoc, BitVec.add_comm 1, BitVec.add_assoc]
  simp only [handleFrame] at h ⊢
  split at h
  · rename_i hq
    simp only [if_pos hq, route] at h ⊢
    split at h
    · rename_i hq
      simp only [if_pos hq]
      rcases receiveRequest_cases h with ⟨m, rfl, hm, hall⟩ | ⟨rfl, -⟩
      · obtain ⟨h1, h2, h3⟩ := kept hm
        exact .inl ⟨m, rfl, h1, h2, h3, fun _ => hall _⟩
      · exact .inr ⟨_, _, rfl, rfl, rfl⟩
    rename_i hq
    simp only [if_neg hq] at h ⊢
    split at h
    · rename_i hq
      simp only [if_pos hq, forall_const]
      obtain ⟨m, rfl, hm⟩ := toFlow_sent (fun _ => receiveClaim_sent) h
      obtain ⟨h1, h2, h3⟩ := kept hm
      exact .inl ⟨m, rfl, h1, h2, h3, h⟩
    rename_i hq
    simp only [if_neg hq] at h ⊢
    split at h
    · rename_i hq
      simp only [if_pos hq, forall_const]
      cases h
      obtain ⟨h1, h2, h3⟩ := kept (Sent.refl _)
      exact .inl ⟨_, rfl, h1, h2, h3, rfl⟩
    · cases h
      exact .inr ⟨_, _, rfl, rfl, rfl⟩
  · rename_i hq
    simp only [if_neg hq, forall_const]
    cases h
    exact .inl ⟨_, rfl, rfl, rfl, (BitVec.add_assoc _ _ _).symm, rfl⟩

/-- An unlisted frame is counted and dropped (R177). -/
theorem handleFrame_unlisted {f : Frame} {k : Nat} {s : State}
    (h : inList (pgnOf f.id) s.cfg.rxList = false) :
    handleFrame f k s = .next (.done (countDrop s)) := by
  rw [handleFrame, if_neg (by rw [h]; exact Bool.false_ne_true)]

/-- A kept frame of no service PGN goes to the message handler (R180). -/
theorem handleFrame_application {f : Frame} {k : Nat} {s : State}
    (h : inList (pgnOf f.id) s.cfg.rxList = true) (hc : routedCommand f = none) :
    handleFrame f k s =
      .next (callHost (.messageHandler (decodeId f.id) f.data k) (countRx s)) := by
  rw [routedCommand] at hc
  rw [handleFrame, if_pos h, route]
  split at hc
  · cases hc
  split at hc
  · cases hc
  split at hc
  · cases hc
  rw [if_neg ‹_›, if_neg ‹_›, if_neg ‹_›]

/-- An answer that is refused is refused for every caller. -/
theorem respond_refused {f : Frame} {left : Option Nat} {s : State} {r : Refusal}
    (h : respond f left s = .refused r) (left' : Option Nat) : respond f left' s = .refused r := by
  simp only [respond] at h ⊢
  split at h
  · rename_i hq; rw [if_pos hq]; exact h
  rename_i hq; rw [if_neg hq]
  split at h
  · rename_i hq; rw [if_pos hq]; exact h
  rename_i hq; rw [if_neg hq]
  split at h
  · rename_i hq; rw [if_pos hq]; exact h
  rename_i hq; rw [if_neg hq]
  split at h
  · rename_i hq; rw [if_pos hq]; exact h
  rename_i hq; rw [if_neg hq]
  split at h
  · cases h
  · rename_i hq; rw [if_neg hq]; exact h

/-- A request that is refused is refused for every caller. -/
theorem receiveRequest_refused {f : Frame} {left : Option Nat} {s : State} {r : Refusal}
    (h : receiveRequest f left s = .refused r) (left' : Option Nat) :
    receiveRequest f left' s = .refused r := by
  rw [receiveRequest] at h ⊢
  split at h
  · rename_i hq
    rw [if_pos hq]
    split at h
    · rename_i hq; rw [if_pos hq]; exact respond_refused h left'
    · cases h
  · cases h

/-- A kept service frame that its routed command refuses is refused. -/
theorem handleFrame_refused {f : Frame} {k : Nat} {s : State} {cmd : Instr} {r : Refusal}
    (h : inList (pgnOf f.id) s.cfg.rxList = true) (hc : routedCommand f = some cmd)
    (hr : exec cmd (countRx s) = .refused r) : handleFrame f k s = .refused r := by
  rw [routedCommand] at hc
  rw [handleFrame, if_pos h, route]
  split at hc
  · rename_i hq
    cases hc
    rw [if_pos hq]
    rcases andThen_eq_refused.mp (done_eq_refused.mp
      (hr : done (andThen (receiveRequest f none (countRx s)) _) = _)) with h1 | ⟨_, -, h1⟩
    · exact receiveRequest_refused h1 (some k)
    · cases h1
  rename_i hq; rw [if_neg hq]
  split at hc
  · rename_i hq
    cases hc
    rw [if_pos hq, done_eq_refused.mp (hr : done (receiveClaim f (countRx s)) = _)]
    rfl
  rename_i hq; rw [if_neg hq]
  split at hc
  · cases hc; cases hr
  · cases hc

/-- A kept service frame does what its routed command does: it ends as the command does, but for the result
port, or is suspended in the command's call, as a call of the pump. -/
theorem handleFrame_routed {f : Frame} {k : Nat} {s u : State} {cmd : Instr}
    (h : inList (pgnOf f.id) s.cfg.rxList = true) (hc : routedCommand f = some cmd)
    (hu : exec cmd (countRx s) = .next u) :
    (handleFrame f k s = .next (.done (u.setResult s.result)) ∧ u.calls = s.calls) ∨
    ∃ (c : Callback) (m : State), handleFrame f k s = .next (.suspended m) ∧
      u.calls = c :: s.calls ∧ m.setResult .none = u.setCalls (c.inPump k :: s.calls) := by
  have ends : ∀ {r : Out}, (∀ m, r = .next m → Sent (countRx s) m) → done r = .next u →
      toFlow r = .next (.done (u.setResult s.result)) ∧ u.calls = s.calls := fun hs hd => by
    obtain ⟨m, rfl, rfl⟩ := done_eq_next.mp hd
    have hm := hs m rfl
    refine ⟨?_, hm.calls⟩
    rw [show (m.setResult .none).setResult s.result = m.setResult m.result by rw [hm.result]; rfl]
    rfl
  rw [routedCommand] at hc
  rw [handleFrame, if_pos h, route]
  split at hc
  · rename_i hq
    cases hc
    rw [if_pos hq]
    obtain ⟨m, h1, rfl⟩ := done_eq_next.mp
      (hu : done (andThen (receiveRequest f none (countRx s)) _) = _)
    obtain ⟨fl, h2, h3⟩ := andThen_eq_next.mp h1
    cases h3
    rcases receiveRequest_cases h2 with ⟨m, rfl, hm, hall⟩ | ⟨rfl, hall⟩
    · refine .inl ⟨?_, hm.calls⟩
      rw [hall (some k)]
      show _ = Host.Outcome.next (Flow.done ((m.setResult .none).setResult s.result))
      rw [show (m.setResult .none).setResult s.result = m.setResult m.result by rw [hm.result]; rfl]
      rfl
    · exact .inr ⟨_, _, hall (some k), rfl, rfl⟩
  rename_i hq; rw [if_neg hq]
  split at hc
  · rename_i hq
    cases hc
    rw [if_pos hq]
    exact .inl (ends (fun _ => receiveClaim_sent) hu)
  rename_i hq; rw [if_neg hq]
  split at hc
  · rename_i hq
    cases hc
    rw [if_pos hq]
    exact .inl (ends (r := receiveAck f (countRx s)) (fun _ h => by cases h; exact .refl _) hu)
  · cases hc

/-! ### The loop (R176, R181, R182) -/

/-- A frame of at most 8 bytes is received whole (R175). -/
theorem clipFrame_of_len {f : Frame} (h : f.len ≤ 8) : clipFrame f = f := by
  rw [clipFrame, List.take_of_length_le h]

theorem pollReceive_recvIn (s : State) :
    (pollReceive s).2.world.recvIn = s.world.recvIn.drop 1 := by
  unfold pollReceive
  split <;> simp [*]

theorem sampleClock_recvIn (time : Option Millis) (s : State) :
    (sampleClock time s).world.recvIn = s.world.recvIn := by
  rw [sampleClock_state]; rfl

theorem sampleClock_port (time : Option Millis) (s : State) :
    (sampleClock time s).world.port = s.world.port := by
  rw [sampleClock_state]; rfl

/-- One poll of the loop, with the clock sampled. -/
theorem pumpLoop_succ (k : Nat) (s : State) : pumpLoop (k + 1) false s =
    match pollReceive s with
    | (none, s1) => .next s1
    | (some f, s1) => andThen (handleFrame f k s1) fun r => match r with
      | .done s2 => pumpLoop k true s2
      | .suspended s2 => .next s2 := rfl

/-- A later poll first samples the clock (R176). -/
theorem pumpLoop_fresh (k : Nat) (s : State) :
    pumpLoop (k + 1) true s = pumpLoop (k + 1) false (sampleClock none s) := rfl

/-- Whether or not a poll first samples the clock, it polls in a state with the same answers to come, calls
and counters. -/
theorem pumpLoop_sampled (fresh : Bool) (s : State) :
    ∃ s0 : State, (∀ k, pumpLoop (k + 1) fresh s = pumpLoop (k + 1) false s0) ∧
      s0.world.recvIn = s.world.recvIn ∧ s0.calls = s.calls ∧ s0.cnt = s.cnt := by
  cases fresh with
  | false => exact ⟨s, fun _ => rfl, rfl, rfl, rfl⟩
  | true =>
    exact ⟨sampleClock none s, fun _ => rfl, sampleClock_recvIn none s, sampleClock_calls s none,
      sampleClock_cnt s none⟩

/-- A poll that finds no frame ends the loop. -/
theorem pumpLoop_none {k : Nat} {s : State} {rest : List (Option Frame)}
    (h : s.world.recvIn = none :: rest) :
    pumpLoop (k + 1) false s = .next (s.setWorld { s.world with recvIn := rest }) := by
  rw [pumpLoop_succ, pollReceive_scripted s h]
  rfl

/-- A poll that finds a frame handles it. -/
theorem pumpLoop_some {k : Nat} {s : State} {f : Frame} {rest : List (Option Frame)}
    (h : s.world.recvIn = some f :: rest) :
    pumpLoop (k + 1) false s =
      andThen (handleFrame (clipFrame f) k (s.setWorld { s.world with recvIn := rest })) fun r =>
        match r with
        | .done s2 => pumpLoop k true s2
        | .suspended s2 => .next s2 := by
  rw [pumpLoop_succ, pollReceive_scripted s h]
  rfl

/-- A frame that calls nobody is counted once, and the loop goes on from the same state whatever polls are
left. -/
theorem pumpLoop_next {k : Nat} {s t : State} {f : Frame} {rest : List (Option Frame)}
    (hr : s.world.recvIn = some f :: rest) (h : pumpLoop (k + 1) false s = .next t)
    (hc : t.calls.length ≤ s.calls.length) :
    ∃ u : State, (∀ k', pumpLoop (k' + 1) false s = pumpLoop k' true u) ∧ u.calls = s.calls ∧
      u.world.recvIn = rest ∧ u.cnt.rx + u.cnt.drop = s.cnt.rx + s.cnt.drop + 1 := by
  rw [pumpLoop_some hr] at h
  obtain ⟨fl, h1, h2⟩ := andThen_eq_next.mp h
  rcases handleFrame_cases h1 with ⟨m, rfl, hmc, hw, hn, hall⟩ | ⟨m, c, rfl, hmc, -⟩
  · exact ⟨m, fun k' => by rw [pumpLoop_some hr, hall k']; rfl, hmc, by rw [hw]; rfl, hn⟩
  · cases h2
    rw [hmc, List.length_cons] at hc
    exact absurd hc (Nat.not_succ_le_self _)

/-- The loop polls at most as often as it may (R181). -/
theorem pumpLoop_polls {k : Nat} : ∀ {fresh : Bool} {s t : State}, pumpLoop k fresh s = .next t →
    ∃ j, j ≤ k ∧ t.world.recvIn = s.world.recvIn.drop j := by
  induction k with
  | zero => intro _ s t h; cases h; exact ⟨0, le_refl _, rfl⟩
  | succ k ih =>
    intro fresh s t h
    obtain ⟨s0, hs0, hw0, -, -⟩ := pumpLoop_sampled fresh s
    rw [hs0, pumpLoop_succ] at h
    rw [← hw0]
    have hp := pollReceive_recvIn s0
    split at h
    · next heq => cases h; rw [heq] at hp; exact ⟨1, by omega, hp⟩
    · next heq =>
      rw [heq] at hp
      obtain ⟨fl, h1, h2⟩ := andThen_eq_next.mp h
      rcases handleFrame_cases h1 with ⟨m, rfl, -, hw, -⟩ | ⟨m, c, rfl, -, hw⟩
      · obtain ⟨j, hj, hr⟩ := ih h2
        refine ⟨j + 1, by omega, ?_⟩
        rw [hr, hw]
        show List.drop j _ = _
        rw [World.afterSends, hp, List.drop_drop, Nat.add_comm]
      · cases h2
        exact ⟨1, by omega, by rw [hw]; exact hp⟩

/-- The sum of a counted frame and `n` further ones. -/
theorem count_cons {a b c : BitVec 32} {n : Nat} (h : a = b + BitVec.ofNat 32 n) (hb : b = c + 1) :
    a = c + BitVec.ofNat 32 (n + 1) := by
  rw [h, hb, BitVec.add_assoc, Nat.add_comm n 1, BitVec.ofNat_add]
  rfl

/-- Frames fewer than the polls, none of which calls the application, are handled the same whatever
further polls are left, and each is counted once (R177 to R179, R185). -/
theorem pumpLoop_frames {frames : List Frame} {rest : List (Option Frame)} :
    ∀ {k : Nat} {fresh : Bool} {s t : State}, frames.length ≤ k →
      s.world.recvIn = frames.map some ++ none :: rest → pumpLoop (k + 1) fresh s = .next t →
      t.calls.length ≤ s.calls.length →
      t.world.recvIn = rest ∧
      t.cnt.rx + t.cnt.drop = s.cnt.rx + s.cnt.drop + BitVec.ofNat 32 frames.length ∧
      ∀ k', frames.length ≤ k' → pumpLoop (k' + 1) fresh s = .next t := by
  induction frames with
  | nil =>
    intro k fresh s t _ hr h hc
    obtain ⟨s0, hs0, hw0, hc0, hn0⟩ := pumpLoop_sampled fresh s
    have hr0 : s0.world.recvIn = none :: rest := hw0.trans hr
    rw [hs0, pumpLoop_none hr0] at h
    cases h
    exact ⟨rfl, by simp [hn0], fun k' _ => by rw [hs0, pumpLoop_none hr0]⟩
  | cons f fs ih =>
    intro k fresh s t hk hr h hc
    obtain ⟨s0, hs0, hw0, hc0, hn0⟩ := pumpLoop_sampled fresh s
    rw [hs0] at h
    obtain ⟨u, hu, huc, huw, hun⟩ := pumpLoop_next (hw0.trans hr) h (by rw [hc0]; exact hc)
    match k, hk with
    | k + 1, hk =>
      rw [hu] at h
      obtain ⟨h1, h2, h3⟩ := ih (Nat.le_of_succ_le_succ hk) huw h (by rw [huc, hc0]; exact hc)
      refine ⟨h1, count_cons h2 (by rw [hun, hn0]), fun k' hk' => ?_⟩
      match k', hk' with
      | k' + 1, hk' => rw [hs0, hu]; exact h3 k' (Nat.le_of_succ_le_succ hk')

/-- As many frames as polls, none of which calls the application, are all received and each is counted
once (R181, R185). -/
theorem pumpLoop_full {frames : List Frame} {rest : List (Option Frame)} :
    ∀ {fresh : Bool} {s t : State}, s.world.recvIn = frames.map some ++ rest →
      pumpLoop frames.length fresh s = .next t → t.calls.length ≤ s.calls.length →
      t.world.recvIn = rest ∧
      t.cnt.rx + t.cnt.drop = s.cnt.rx + s.cnt.drop + BitVec.ofNat 32 frames.length := by
  induction frames with
  | nil =>
    intro fresh s t hr h hc
    cases h
    exact ⟨hr, by simp⟩
  | cons f fs ih =>
    intro fresh s t hr h hc
    obtain ⟨s0, hs0, hw0, hc0, hn0⟩ := pumpLoop_sampled fresh s
    rw [List.length_cons, hs0] at h
    obtain ⟨u, hu, huc, huw, hun⟩ := pumpLoop_next (hw0.trans hr) h (by rw [hc0]; exact hc)
    rw [hu] at h
    obtain ⟨h1, h2⟩ := ih huw h (by rw [huc, hc0]; exact hc)
    exact ⟨h1, count_cons h2 (by rw [hun, hn0])⟩

/-! ### The return of a callback (R166, R180, R187) -/

/-- A callback's return sends the NAK that is due and goes on with the polls that are left. -/
theorem afterCallback_eq (c : Callback) (handled : Bool) (s : State) :
    afterCallback c handled s =
      andThen (match c.nakDue handled with
        | none => .next s
        | some (req, dst) => sendNak req dst s) (pumpLoop c.pollsLeft true) := by
  cases c with
  | messageHandler h p left => rfl
  | isoHandler req h p left =>
    cases handled <;> cases left <;> rfl

/-- The step that returns from the innermost callback. -/
theorem step_callbackReturn {s : State} {c : Callback} {rest : List Callback} {handled : Bool}
    {items : List HostItem} (hr : s.refused = false) (hc : s.calls = c :: rest)
    (hp : s.world.port = .callbackReturn handled :: items) :
    step s = done (afterCallback c handled
      ((s.setWorld { s.world with port := items }).setCalls rest)) := by
  have ht : takeItem s = s.setWorld { s.world with port := items } := by rw [takeItem, hp]; rfl
  simp [step, runItem, hp, ht, runReturn, hr, resume, hc]

end Sys2Proof.Machine
end

