-- ==== Sys2Proof/Tests/Slice0.lean ====
section
/-! SUPPORT. The model's own tests. Expected results come from spec/95_test_vectors.md, whose number each test names, or from the bit layouts of spec/30_encoding.md; and for every statement with hypotheses, a witness that meets them. -/

namespace Sys2Proof.Tests

open Sys2Proof Sys2Proof.Machine

-- One test after another: each waits for the kernel, and a thread for each would not fit the sandbox.
set_option Elab.async false

/-! ### WellFormed: an ill-formed term for each check -/

/-- A frame of nine bytes (R82). -/
def longFrame : Frame := { id := 0, data := List.replicate 9 0 }

theorem test_wf_rx_claim : (Instr.acRxClaim longFrame).wellFormed = false := by decide
theorem test_wf_rx_request : (Instr.isoRxRequest longFrame).wellFormed = false := by decide
theorem test_wf_rx_ack : (Instr.isoRxAck longFrame).wellFormed = false := by decide
theorem test_wf_fixstr : (Instr.frOutFixstr (List.replicate 256 1) 0 0).wellFormed = false := by
  decide +kernel
theorem test_wf_varstr : (Instr.frOutVarstr (List.replicate 256 1)).wellFormed = false := by
  decide +kernel
theorem test_wf_limits : (Instr.acRxClaim { id := 0, data := List.replicate 8 0 }).wellFormed = true ∧
    (Instr.frOutVarstr (List.replicate 255 1)).wellFormed = true := by decide +kernel

/-! ### Decode: one word per command, its code from R64, its fields in R64's order. Identifier fields
are written from R70: priority in bits 28:26, data page in bit 24, PF, PS, source. -/

/-- 0x18EFFF19: priority 6, data page 0, PF 0xEF, PS 0xFF, source 25. -/
theorem test_decode_id_pgnof : decode [0x01, 0x19, 0xFF, 0xEF, 0x18] = .ok (.idPgnof 0x18EFFF19) := by
  decide
theorem test_decode_id_decode : decode [0x02, 0x05, 0x19, 0xEA, 0x18] = .ok (.idDecode 0x18EA1905) := by
  decide
/-- 59904 is 0x00EA00. -/
theorem test_decode_id_encode :
    decode [0x03, 0x00, 0xEA, 0x00, 0x06, 0x05, 0x19] = .ok (.idEncode 59904 6 5 25) := by decide
/-- `NA_VALUE`, then 1/1. -/
theorem test_decode_num_enc_u16 :
    decode [0x10, 0x03, 0x00, 0x00, 0x00] = .ok (.numEncU16 .na (.rat 1)) := by decide +kernel
/-- -1/1, then 1/10. -/
theorem test_decode_num_enc_s16 :
    decode [0x11, 0x01, 0x00, 0x00, 0x00, 0x00, 0x09] = .ok (.numEncS16 (.rat (-1)) (.rat (1 / 10))) := by
  decide +kernel
/-- 0, then 1/1. -/
theorem test_decode_num_enc_u24 :
    decode [0x12, 0x02, 0x00, 0x00, 0x00] = .ok (.numEncU24 (.rat 0) (.rat 1)) := by decide +kernel
/-- -129/1, whose numerator less one is 128 in two base-128 digits, then 1/1. -/
theorem test_decode_num_enc_s24 :
    decode [0x13, 0x01, 0x80, 0x01, 0x00, 0x00, 0x00, 0x00] =
      .ok (.numEncS24 (.rat (-129)) (.rat 1)) := by decide +kernel
theorem test_decode_num_enc_u32 :
    decode [0x14, 0x00, 0x00, 0x01, 0x00, 0x00, 0x00] = .ok (.numEncU32 (.rat (1 / 2)) (.rat 1)) := by
  decide +kernel
theorem test_decode_num_enc_s32 :
    decode [0x15, 0x01, 0x01, 0x04, 0x00, 0x00, 0x00] = .ok (.numEncS32 (.rat (-2 / 5)) (.rat 1)) := by
  decide +kernel
theorem test_decode_num_dec_u16 :
    decode [0x18, 0xD2, 0x04, 0x00, 0x00, 0x63] =
      .ok (.numDecU16 #v[0xD2, 0x04] (.rat (1 / 100))) := by decide +kernel
theorem test_decode_num_dec_s16 :
    decode [0x19, 0xF1, 0xFF, 0x00, 0x00, 0x09] = .ok (.numDecS16 #v[0xF1, 0xFF] (.rat (1 / 10))) := by
  decide +kernel
theorem test_decode_num_dec_u24 :
    decode [0x1A, 0x39, 0x30, 0x00, 0x00, 0x00, 0x09] =
      .ok (.numDecU24 #v[0x39, 0x30, 0x00] (.rat (1 / 10))) := by decide +kernel
theorem test_decode_num_dec_s24 :
    decode [0x1B, 0x60, 0x79, 0xFE, 0x00, 0x00, 0x00] =
      .ok (.numDecS24 #v[0x60, 0x79, 0xFE] (.rat 1)) := by decide +kernel
theorem test_decode_num_dec_u32 :
    decode [0x1C, 0xFE, 0xFF, 0xFF, 0xFF, 0x03] =
      .ok (.numDecU32 #v[0xFE, 0xFF, 0xFF, 0xFF] .na) := by decide +kernel
theorem test_decode_num_dec_s32 :
    decode [0x1D, 0x4D, 0x95, 0xFF, 0xFF, 0x00, 0x00, 0x63] =
      .ok (.numDecS32 #v[0x4D, 0x95, 0xFF, 0xFF] (.rat (1 / 100))) := by decide +kernel
/-- 60928 is 0x00EE00. -/
theorem test_decode_fr_start :
    decode [0x20, 0x00, 0xEE, 0x00, 0x06, 0x19, 0xFF] = .ok (.frStart 60928 6 25 255) := by decide
/-- 127489 is 0x01F201. -/
theorem test_decode_fr_start_fast :
    decode [0x21, 0x01, 0xF2, 0x01, 0x02, 0x19, 0xFF, 0x09] = .ok (.frStartFast 127489 2 25 255 9) := by
  decide
theorem test_decode_fr_out_byte : decode [0x22, 0x0A] = .ok (.frOutByte 0x0A) := by decide
theorem test_decode_fr_out_raw16 : decode [0x23, 0x34, 0x08] = .ok (.frOutRaw16 0x0834) := by decide
theorem test_decode_fr_out_raw24 :
    decode [0x24, 0x14, 0xF0, 0x01] = .ok (.frOutRaw24 0x01F014) := by decide
theorem test_decode_fr_out_raw32 :
    decode [0x25, 0x78, 0x56, 0x34, 0x12] = .ok (.frOutRaw32 0x12345678) := by decide
theorem test_decode_fr_out_fixstr :
    decode [0x26, 0x02, 0x41, 0x42, 0x04, 0xFF] = .ok (.frOutFixstr [0x41, 0x42] 4 0xFF) := by decide
theorem test_decode_fr_out_varstr :
    decode [0x27, 0x02, 0x48, 0x69] = .ok (.frOutVarstr [0x48, 0x69]) := by decide
/-- 701/2: 700 is 5 * 128 + 60, so its digits are 0xBC and 0x05. -/
theorem test_decode_fr_out_num_u16 :
    decode [0x28, 0x00, 0xBC, 0x05, 0x01, 0x00, 0x00, 0x09] =
      .ok (.frOutNumU16 (.rat (701 / 2)) (.rat (1 / 10))) := by decide +kernel
theorem test_decode_fr_out_num_s16 :
    decode [0x29, 0x01, 0x02, 0x01, 0x00, 0x00, 0x09] =
      .ok (.frOutNumS16 (.rat (-3 / 2)) (.rat (1 / 10))) := by decide +kernel
theorem test_decode_fr_out_num_u24 :
    decode [0x2A, 0x02, 0x03] = .ok (.frOutNumU24 (.rat 0) .na) := by decide +kernel
theorem test_decode_fr_out_num_s24 :
    decode [0x2B, 0x03, 0x02] = .ok (.frOutNumS24 .na (.rat 0)) := by decide +kernel
theorem test_decode_fr_out_num_u32 :
    decode [0x2C, 0x03, 0x00, 0x00, 0x00] = .ok (.frOutNumU32 .na (.rat 1)) := by decide +kernel
theorem test_decode_fr_out_num_s32 :
    decode [0x2D, 0x01, 0x00, 0x00, 0x00, 0x00, 0x00] =
      .ok (.frOutNumS32 (.rat (-1)) (.rat 1)) := by decide +kernel
theorem test_decode_fr_finish : decode [0x2E] = .ok .frFinish := by decide
theorem test_decode_fr_finish_fast : decode [0x2F] = .ok .frFinishFast := by decide
theorem test_decode_ac_claim : decode [0x30] = .ok .acClaim := by decide
theorem test_decode_ac_poll : decode [0x31] = .ok .acPoll := by decide
theorem test_decode_ac_rx_claim :
    decode [0x32, 0x18, 0xFF, 0xEE, 0x18, 0x01, 0x32] =
      .ok (.acRxClaim { id := 0x18EEFF18, data := [0x32] }) := by decide
theorem test_decode_iso_rx_request :
    decode [0x40, 0x05, 0x19, 0xEA, 0x18, 0x03, 0x00, 0xEE, 0x01] =
      .ok (.isoRxRequest { id := 0x18EA1905, data := [0x00, 0xEE, 0x01] }) := by decide
theorem test_decode_iso_rx_ack :
    decode [0x41, 0x05, 0x19, 0xE8, 0x18, 0x00] = .ok (.isoRxAck { id := 0x18E81905, data := [] }) := by
  decide
theorem test_decode_pump : decode [0x50] = .ok .pump := by decide
theorem test_decode_status : decode [0x51] = .ok .status := by decide
/-- 250000 is 15 * 128^2 + 33 * 128 + 16. -/
theorem test_decode_eng_open :
    decode [0x52, 0x90, 0xA1, 0x0F, 0x00] = .ok (.engOpen 250000 0) := by decide +kernel

/-- What the decoder refuses, by name. -/
theorem test_decode_refusals :
    decode [] = .error .noCommand ∧ decode [0x04] = .error (.illegalCommand 0x04) ∧
    decode [0x23, 0x34] = .error .truncated ∧
    decode [0x01, 0x00, 0x00, 0x00, 0x20] = .error .operandTooWide ∧
    decode [0x41, 0x00, 0x00, 0x00, 0x00, 0x09] = .error .frameTooLong ∧
    decode [0x10, 0x04] = .error .badNumTag := by decide

/-- The words of spec/opcode_table.json, with operands of zero. -/
theorem test_decode_table_words :
    decodeTableWord 8 0x22 = some (.frOutByte 0) ∧ decodeTableWord 8 0x51 = some .status ∧
    decodeTableWord 8 0x52 = some (.engOpen 0 0) ∧ decodeTableWord 8 0x16 = none := by decide

/-! ### Small states -/

/-- A field of the next state, or none where there is no next state. -/
def after {α : Type} (r : Out) (f : State → α) : Option α :=
  match r with
  | .next t => some (f t)
  | .fault _ => none
  | .refused _ => none

/-- The reason for which an outcome refuses. -/
def refusal (r : Out) : Option Refusal :=
  match r with
  | .next _ => none
  | .fault _ => none
  | .refused e => some e

/-- The reset state, with eight sends that the transport takes. -/
def ready : State := State.reset.setWorld { World.quiet with sendIn := List.replicate 8 true }

/-- `s` at time `t`. -/
def atTime (t : Millis) (s : State) : State := sampleClock (some t) s

/-- `s` with these answers of the transport's receive side. -/
def receiving (frames : List (Option Frame)) (s : State) : State :=
  s.setWorld { s.world with recvIn := frames }

/-- `s` with these items on the port. -/
def hosting (items : List HostItem) (s : State) : State := s.setWorld { s.world with port := items }

/-- A frame buffer that starts with `bytes`. -/
def bufOf (bytes : List Byte) : Vector Byte 8 := Vector.ofFn fun i => bytes.getD i 0

/-- A single packet in progress. -/
def inSingle (id : CanId) (bytes : List Byte) : State :=
  ready.setFr { Framer.atReset with
    mode := .single, id := id, off := BitVec.ofNat 4 bytes.length, buf := bufOf bytes }

/-- A fast packet in progress, with sequence number 1, whose current frame holds `bytes`. -/
def inFast (id : CanId) (fidx : BitVec 6) (total written : Byte) (bytes : List Byte) : State :=
  ready.setFr { Framer.atReset with
    mode := .fast, id := id, seq := 1, fidx := fidx, total := total, written := written
    off := BitVec.ofNat 4 bytes.length, buf := bufOf bytes }

/-- What the current frame holds. -/
def current (s : State) : List Byte := bufFront s.fr.off.toNat s.fr.buf

/-- The NAME 100 as the eight bytes of a claim. -/
def name100 : List Byte := [100, 0, 0, 0, 0, 0, 0, 0]

/-- A claim frame whose NAME's lowest byte is `b`, from address `src`. -/
def claimFrame (src b : Byte) : Frame :=
  { id := 0x18EEFF00 ||| src.setWidth 29, data := [b, 0, 0, 0, 0, 0, 0, 0] }

/-- An ISO Request from node 5 to node 25 with payload `data`. -/
def request (data : List Byte) : Frame := { id := 0x18EA1905, data := data }

/-! ### Commands: at most two tests each -/

/-- V-ID-1 and V-ID-3. -/
theorem test_id_pgnof_pdu1 :
    after (exec (.idPgnof 0x18EFFF19) ready) State.result = some (.pgn 61184) := by decide
theorem test_id_pgnof_pdu2 :
    after (exec (.idPgnof 0x18F00119) ready) State.result = some (.pgn 61441) := by decide

/-- V-ID-6 and V-ID-9. -/
theorem test_id_decode_bit25 :
    after (exec (.idDecode 0x1BEA1905) ready) State.result = some (.header ⟨125440, 6, 5, 25⟩) := by decide
theorem test_id_decode_top :
    after (exec (.idDecode 0x1FFFFFFF) ready) State.result = some (.header ⟨131071, 7, 255, 255⟩) := by
  decide

/-- V-ID-14 and V-ID-16. -/
theorem test_id_encode_pdu2 :
    after (exec (.idEncode 126996 6 25 5) ready) State.result = some (.ident 0x19F01419 false) := by decide
theorem test_id_encode_fails :
    after (exec (.idEncode 0x0EFFF 3 1 2) ready) State.result = some (.ident 0 true) := by decide

/-- V-NUM-12 and V-NUM-8. -/
theorem test_num_enc_u16 :
    after (exec (.numEncU16 (.rat (29315 / 100)) (.rat (1 / 100))) ready) State.result =
      some (.raw [0x83, 0x72]) := by decide +kernel
theorem test_num_enc_u16_max :
    after (exec (.numEncU16 (.rat 65534) (.rat 1)) ready) State.result = some (.raw [0xFE, 0xFF]) := by
  decide +kernel
/-- V-NUM-14 and V-NUM-13. -/
theorem test_num_enc_s16_lowest :
    after (exec (.numEncS16 (.rat (-32768)) (.rat 1)) ready) State.result = some (.raw [0x00, 0x80]) := by
  decide +kernel
theorem test_num_enc_s16_clamp :
    after (exec (.numEncS16 (.rat 32767) (.rat 1)) ready) State.result = some (.raw [0xFE, 0x7F]) := by
  decide +kernel
/-- V-NUM-3 and V-NUM-17. -/
theorem test_num_enc_u24_na :
    after (exec (.numEncU24 .na (.rat 1)) ready) State.result = some (.raw [0xFF, 0xFF, 0xFF]) := by
  decide +kernel
theorem test_num_enc_u24_clamp :
    after (exec (.numEncU24 (.rat 16777215) (.rat 1)) ready) State.result =
      some (.raw [0xFE, 0xFF, 0xFF]) := by decide +kernel
/-- V-NUM-23. -/
theorem test_num_enc_s24 :
    after (exec (.numEncS24 (.rat (-100000)) (.rat 1)) ready) State.result =
      some (.raw [0x60, 0x79, 0xFE]) := by decide +kernel
/-- V-NUM-24. -/
theorem test_num_enc_u32 :
    after (exec (.numEncU32 (.rat (4294967294 / 1000)) (.rat (1 / 1000))) ready) State.result =
      some (.raw [0xFE, 0xFF, 0xFF, 0xFF]) := by decide +kernel
/-- S5 and V-NUM-22. -/
theorem test_num_enc_s32 :
    after (exec (.numEncS32 (.rat (-27315 / 100)) (.rat (1 / 100))) ready) State.result =
      some (.raw [0x4D, 0x95, 0xFF, 0xFF]) := by decide +kernel
theorem test_num_enc_s32_rounds :
    after (exec (.numEncS32 (.rat (-2 / 5)) (.rat 1)) ready) State.result =
      some (.raw [0, 0, 0, 0]) := by decide +kernel

/-- V-NUM-34 and V-NUM-47. -/
theorem test_num_dec_u16 :
    after (exec (.numDecU16 #v[0xD2, 0x04] (.rat (1 / 100))) ready) State.result =
      some (.value (1234 / 100)) := by decide +kernel
theorem test_num_dec_u16_precision :
    refusal (exec (.numDecU16 #v[0x01, 0x00] (.rat 0)) ready) = some .badPrecision := by decide +kernel
/-- V-NUM-39 and V-NUM-36. -/
theorem test_num_dec_s16 :
    after (exec (.numDecS16 #v[0xFF, 0xFF] (.rat 1)) ready) State.result = some (.value (-1)) := by
  decide +kernel
theorem test_num_dec_s16_na :
    after (exec (.numDecS16 #v[0xFF, 0x7F] (.rat 1)) ready) State.result =
      some (.value (-1000000000)) := by decide +kernel
/-- S5. -/
theorem test_num_dec_u24 :
    after (exec (.numDecU24 #v[0x39, 0x30, 0x00] (.rat (1 / 10))) ready) State.result =
      some (.value (12345 / 10)) := by decide +kernel
/-- V-NUM-41. -/
theorem test_num_dec_s24 :
    after (exec (.numDecS24 #v[0x60, 0x79, 0xFE] (.rat 1)) ready) State.result =
      some (.value (-100000)) := by decide +kernel
/-- V-NUM-44. -/
theorem test_num_dec_u32 :
    after (exec (.numDecU32 #v[0xFE, 0xFF, 0xFF, 0xFF] (.rat (1 / 1000))) ready) State.result =
      some (.value (4294967294 / 1000)) := by decide +kernel
/-- V-NUM-46. -/
theorem test_num_dec_s32 :
    after (exec (.numDecS32 #v[0x00, 0x00, 0x00, 0x80] (.rat 1)) ready) State.result =
      some (.value (-2147483648)) := by decide +kernel

/-- V-FR-13 and V-ID-19. -/
theorem test_fr_start :
    after (exec (.frStart 130306 2 25 255) ready) (fun t => (t.fr.mode, t.fr.id, t.fr.off)) =
      some (.single, 0x09FD0219, 0) := by decide
/-- V-FR-25. -/
theorem test_fr_start_busy :
    refusal (exec (.frStart 130306 2 25 255) (inSingle 1 [])) = some .packetInProgress := by decide

/-- P3 line 1. -/
theorem test_fr_start_fast :
    after (exec (.frStartFast 127489 2 25 255 9) ready) (fun t => (t.fr.id, t.fr.seq, current t)) =
      some (0x09F20119, 1, [0x20, 0x09]) := by decide
/-- V-FR-25. -/
theorem test_fr_start_fast_long :
    refusal (exec (.frStartFast 127489 2 25 255 224) ready) = some .fastTooLong := by decide

/-- V-FR-13: the ninth byte. -/
theorem test_fr_out_byte_overflow :
    after (exec (.frOutByte 9) (inSingle 0x09FD0219 [1, 2, 3, 4, 5, 6, 7, 8]))
      (fun t => (current t, t.cnt.frameErr)) = some ([1, 2, 3, 4, 5, 6, 7, 8], 1) := by decide
/-- V-FR-11, from reset: the sixth byte fills frame 0. -/
theorem test_fr_out_byte_flush :
    after (exec (.frOutByte 5) (inFast 0x1DFF0419 1 13 5 [0x20, 0x0D, 0, 1, 2, 3, 4]))
      (fun t => (t.txLog, current t)) =
      some ([⟨0x1DFF0419, [0x20, 0x0D, 0, 1, 2, 3, 4, 5], true⟩], [0x21]) := by decide

/-- V-ISO-4: the version 2100 as two bytes. -/
theorem test_fr_out_raw16 :
    after (exec (.frOutRaw16 2100) (inSingle 0x09FD0219 [])) current = some [0x34, 0x08] := by decide
/-- V-FR-18. -/
theorem test_fr_out_raw24 :
    after (exec (.frOutRaw24 0x030201)
      (inFast 0x1DFF0419 1 8 5 [0x20, 0x08, 0xAA, 0xAA, 0xAA, 0xAA, 0xAA]))
      (fun t => (t.txLog, current t)) =
      some ([⟨0x1DFF0419, [0x20, 0x08, 0xAA, 0xAA, 0xAA, 0xAA, 0xAA, 0x01], true⟩],
        [0x21, 0x02, 0x03]) := by decide
/-- V-FR-17. -/
theorem test_fr_out_raw32 :
    after (exec (.frOutRaw32 0x12345678) (inSingle 0x09FD0219 [0, 0, 0, 0, 0, 0]))
      (fun t => (current t, t.cnt.frameErr)) = some ([0, 0, 0, 0, 0, 0, 0x78, 0x56], 2) := by decide
/-- V-FR-16 and V-FR-27. -/
theorem test_fr_out_fixstr :
    after (exec (.frOutFixstr [0x41, 0x42, 0x00, 0x43, 0x44] 4 0xFF)
      (inSingle 0x09FD0219 [0x78, 0x56, 0x34, 0x12])) current =
      some [0x78, 0x56, 0x34, 0x12, 0x41, 0x42, 0xFF, 0xFF] := by decide
theorem test_fr_out_fixstr_long :
    after (exec (.frOutFixstr [0x41, 0x42, 0x43, 0x44, 0x45, 0x46] 3 0xFF) (inSingle 0x09FD0219 []))
      current = some [0x41, 0x42, 0x43] := by decide
/-- V-FR-19 and V-FR-25. -/
theorem test_fr_out_varstr :
    after (exec (.frOutVarstr [0x48, 0x69]) (inSingle 0x09FD0219 [])) current =
      some [0x04, 0x01, 0x48, 0x69] := by decide
theorem test_fr_out_varstr_long :
    refusal (exec (.frOutVarstr (List.replicate 254 1)) (inSingle 0x09FD0219 [])) =
      some .stringTooLong := by
  decide +kernel
/-- P3 line 3. -/
theorem test_fr_out_num_u16 :
    after (exec (.frOutNumU16 (.rat (701 / 2)) (.rat (1 / 10)))
      (inFast 0x09F20119 1 9 1 [0x20, 0x09, 0x00])) current =
      some [0x20, 0x09, 0x00, 0xB1, 0x0D] := by decide +kernel
/-- P3 line 4. -/
theorem test_fr_out_num_s16 :
    after (exec (.frOutNumS16 (.rat (-3 / 2)) (.rat (1 / 10)))
      (inFast 0x09F20119 1 9 3 [0x20, 0x09, 0x00, 0xB1, 0x0D])) current =
      some [0x20, 0x09, 0x00, 0xB1, 0x0D, 0xF1, 0xFF] := by decide +kernel
/-- S5. -/
theorem test_fr_out_num_u24 :
    after (exec (.frOutNumU24 (.rat (12345 / 10)) (.rat (1 / 10))) (inSingle 0x09FD0219 [])) current =
      some [0x39, 0x30, 0x00] := by decide +kernel
/-- V-NUM-19. -/
theorem test_fr_out_num_s24 :
    after (exec (.frOutNumS24 (.rat (-8388608)) (.rat 1)) (inSingle 0x09FD0219 [])) current =
      some [0x00, 0x00, 0x80] := by decide +kernel
/-- P3 line 5. -/
theorem test_fr_out_num_u32 :
    after (exec (.frOutNumU32 .na (.rat 1))
      (inFast 0x09F20119 1 9 5 [0x20, 0x09, 0x00, 0xB1, 0x0D, 0xF1, 0xFF]))
      (fun t => (t.txLog, current t)) =
      some ([⟨0x09F20119, [0x20, 0x09, 0x00, 0xB1, 0x0D, 0xF1, 0xFF, 0xFF], true⟩],
        [0x21, 0xFF, 0xFF, 0xFF]) := by decide +kernel
/-- V-NUM-20. -/
theorem test_fr_out_num_s32 :
    after (exec (.frOutNumS32 (.rat 2147483647) (.rat 1)) (inSingle 0x09FD0219 [])) current =
      some [0xFE, 0xFF, 0xFF, 0x7F] := by decide +kernel

/-- V-FR-14's second finish, and V-FR-15's wrong one. -/
theorem test_fr_finish :
    after (exec .frFinish (inSingle 0x09FD0219 [1])) (fun t => (t.fr.mode, t.txLog)) =
      some (.idle, [⟨0x09FD0219, [1], true⟩]) := by decide
theorem test_fr_finish_wrong :
    after (exec .frFinish (inFast 0x19F01419 1 2 2 [0x20, 2, 1, 2]))
      (fun t => (t.fr.mode, t.txLog, t.cnt.packetErr)) = some (.fast, [], 1) := by decide
/-- V-FR-12 with `FP_PAD = PAD_FF`, and V-FR-23 with a transport that answers fail. -/
theorem test_fr_finish_fast_padded :
    after (exec .frFinishFast
      { inFast 0x1DFF0419 2 9 9 [0x21, 6, 7, 8] with cfg := { Config.standard with fpPad := .padFF } })
      State.txLog = some [⟨0x1DFF0419, [0x21, 6, 7, 8, 0xFF, 0xFF, 0xFF, 0xFF], true⟩] := by
  decide +kernel
theorem test_fr_finish_fast_fails :
    after (exec .frFinishFast
      ((inFast 0x19F01419 1 3 3 [0x20, 0x03, 0x14, 0xF0, 0x01]).setWorld
        { World.quiet with sendIn := [false] }))
      (fun t => (t.fr.mode, t.txLog, t.cnt.tx, t.cnt.txFail)) =
      some (.idle, [⟨0x19F01419, [0x20, 0x03, 0x14, 0xF0, 0x01], false⟩], 0, 1) := by decide +kernel

/-- V-AC-1 and V-AC-20. -/
theorem test_ac_claim :
    after (exec .acClaim (atTime 1000 (ready.setDevAddr 24)))
      (fun t => (t.txLog, t.claimT, t.claimedOnce)) =
      some ([⟨0x18EEFF18, name100, true⟩], 1000, true) := by decide +kernel
theorem test_ac_claim_name :
    after (exec .acClaim (atTime 100 (ready.setName 0x8019460012345678))) State.txLog =
      some [⟨0x18EEFF19, [0x78, 0x56, 0x34, 0x12, 0x00, 0x46, 0x19, 0x80], true⟩] := by decide +kernel
/-- V-AC-3 and V-AC-7. -/
theorem test_ac_poll_pending :
    after (exec .acPoll (atTime 1250 (ready.setClaimT 1000))) (fun t => (t.result, t.claimT)) =
      some (.claimed false, 1000) := by decide +kernel
theorem test_ac_poll_wraps :
    after (exec .acPoll (atTime 0x50 (ready.setClaimT 0xFFFFFF00))) (fun t => (t.result, t.claimT)) =
      some (.claimed true, 0) := by decide +kernel
/-- V-AC-10 (S6) and V-AC-15 (S7). -/
theorem test_ac_rx_claim_yields :
    after (exec (.acRxClaim (claimFrame 24 50)) (atTime 5000 (ready.setDevAddr 24)))
      (fun t => (t.devAddr, t.txLog, t.claimT)) =
      some (25, [⟨0x18EEFF19, name100, true⟩], 5000) := by decide +kernel
theorem test_ac_rx_claim_tie :
    after (exec (.acRxClaim { id := 0x18EEFF18, data := [0x64, 0, 0, 0, 5, 0, 0, 0] })
      (atTime 0x1234 ((ready.setDevAddr 24).setName 0x0000000500000064)))
      (fun t => (t.name, t.txLog)) =
      some (0x0000003400000064, [⟨0x18EEFF18, [0x64, 0, 0, 0, 0x34, 0, 0, 0], true⟩]) := by
  decide +kernel

/-- V-ISO-1 and V-ISO-5. -/
theorem test_iso_rx_request_lists :
    after (exec (.isoRxRequest (request [0x00, 0xEE, 0x01])) (atTime 2000 ready))
      (fun t => (t.txLog, t.fr.seq)) =
      some ([⟨0x19EE0519, [0x20, 0x0A, 0x00, 0x00, 0xEA, 0x00, 0x00, 0xE8], true⟩,
        ⟨0x19EE0519, [0x21, 0x00, 0x00, 0xEE, 0x00], true⟩,
        ⟨0x19EE0519, [0x40, 0x10, 0x01, 0x00, 0xE8, 0x00, 0x00, 0xEE], true⟩,
        ⟨0x19EE0519, [0x41, 0x00, 0x00, 0xEE, 0x01, 0x14, 0xF0, 0x01], true⟩,
        ⟨0x19EE0519, [0x42, 0x16, 0xF0, 0x01], true⟩], 2) := by decide +kernel
theorem test_iso_rx_request_config :
    after (exec (.isoRxRequest (request [0x16, 0xF0, 0x01])) ready) State.txLog =
      some [⟨0x19F01619, [0x20, 0x0E, 0x05, 0x01, 0x69, 0x65, 0x62, 0x07], true⟩,
        ⟨0x19F01619, [0x21, 0x01, 0x42, 0x69, 0x6C, 0x67, 0x65, 0x02], true⟩,
        ⟨0x19F01619, [0x22, 0x01], true⟩] := by decide +kernel
/-- V-ISO-13. -/
theorem test_iso_rx_ack :
    after (exec (.isoRxAck { id := 0x18E81905, data := [0x01, 0xFF, 0xFF, 0xFF, 0xFF, 0x00, 0xEE, 0x01] })
      ready) State.txLog = some [] := by decide

/-- P4 line 1: a yield, then a request that the pending claim silences. -/
theorem test_pump_claims :
    after (exec .pump
      (receiving [some (claimFrame 24 50), some { id := 0x18EAFF07, data := [0x00, 0xEE, 0x00] }, none]
        ((atTime 1000 (ready.setDevAddr 24)).setWorld
          { (atTime 1000 ready).world with clockIn := [1001, 1002] })))
      (fun t => (t.devAddr, t.txLog, t.claimT, t.cnt.rx)) =
      some (25, [⟨0x18EEFF19, name100, true⟩], 1000, 2) := by decide +kernel
/-- V-PUMP-4: twenty of twenty-five frames. -/
theorem test_pump_cap :
    after (exec .pump (receiving
      (List.replicate 25 (some { id := 0x09F80105, data := List.replicate 8 0 })) ready))
      (fun t => (t.cnt.drop, t.world.recvIn.length)) = some (20, 5) := by decide +kernel

/-- V-ST-1 and V-ST-2. -/
theorem test_status_reset :
    after (exec .status State.reset) State.result = some (.counters ⟨0, 0, 0, 0, 0, 0⟩) := by decide
theorem test_status :
    after (exec .status (ready.setCnt ⟨1, 1, 1, 2, 2, 1⟩)) State.result =
      some (.counters ⟨1, 1, 1, 2, 2, 1⟩) := by decide
/-- V-OPEN-1. -/
theorem test_eng_open :
    after (exec (.engOpen 250000 0) (ready.setWorld { World.quiet with openIn := [true] })) State.result =
      some (.opened true) := by decide
theorem test_eng_open_fails :
    after (exec (.engOpen 250000 0) (ready.setWorld { World.quiet with openIn := [false] })) State.result =
      some (.opened false) := by decide

/-! ### The step -/

theorem test_step_runs_a_table_word :
    after (step (State.reset.withFetchWord 8 0x51)) State.result =
      some (.counters ⟨0, 0, 0, 0, 0, 0⟩) := by decide +kernel

/-- V-ISO-10 with a handler that answers false: the return sends the NAK. -/
theorem test_callback_return :
    after (step (hosting [.callbackReturn false]
      (ready.setCalls [.isoHandler 129025 (decodeId 0x18EA1905) [0x01, 0xF8, 0x01] none])))
      (fun t => (t.txLog, t.calls)) =
      some ([⟨0x18E80519, [0x01, 0xFF, 0xFF, 0xFF, 0xFF, 0x01, 0xF8, 0x01], true⟩], []) := by
  decide +kernel

/-- P6: the refusal sets REFUSED. -/
theorem test_refusal_marks :
    (stepMarked (hosting [.command (some 500) [0x30]] (inSingle 0x09FD0219 [1]))).refused = true := by
  decide +kernel

/-! ### Witnesses: states and operands that meet the hypotheses of each statement, clause by clause, at
the boundaries of their ranges. The statements that have no hypothesis need none. -/

/-- The refusing and the computing clause meet at 2^17; PF 239 fails with a low byte, PF 240 does not. -/
theorem witness_IdEncodeBuildsTheIdentifier :
    2 ^ 17 ≤ (0x20000 : Pgn24).toNat ∧ (0x1FFFF : Pgn24).toNat < 2 ^ 17 ∧
    ((0x0EFFF : Pgn24).toNat / 2 ^ 8 % 256 < 240 ∧ (0x0EFFF : Pgn24).toNat % 256 ≠ 0) ∧
    ¬((0x0F001 : Pgn24).toNat / 2 ^ 8 % 256 < 240) := by decide

/-- A PDU1 and a PDU2 PGN, whose destinations differ. -/
theorem witness_FieldsSurviveTheIdentifier :
    exec (.idEncode 59904 6 5 25) ready = .next (ready.setResult (.ident 0x18EA1905 false)) ∧
    exec (.idEncode 126996 6 25 5) ready = .next (ready.setResult (.ident 0x19F01419 false)) := ⟨rfl, rfl⟩

/-- Bit 25 set and clear. -/
theorem witness_IdentifiersSurviveTheirFields :
    (0x1BEA1905 : CanId).getLsbD 25 = true ∧ (0x18EA1905 : CanId).getLsbD 25 = false := by decide

theorem witness_NumEncodeCommands :
    numValue ready.cfg .na = ready.cfg.naValue ∧
    (numValue ready.cfg (.rat 1) ≠ ready.cfg.naValue ∧ numValue ready.cfg (.rat 0) ≤ 0) ∧
    (0 < numValue ready.cfg (.rat 1) ∧
      roundRat (numValue ready.cfg (.rat (-1)) / numValue ready.cfg (.rat 1)) < (fieldRow .u16).2.1) ∧
    (fieldRow .s16).2.1 ≤ roundRat (numValue ready.cfg (.rat (-32768)) / numValue ready.cfg (.rat 1)) ∧
    roundRat (numValue ready.cfg (.rat 65534) / numValue ready.cfg (.rat 1)) < (fieldRow .u16).2.2 ∧
    (fieldRow .u16).2.2 ≤ roundRat (numValue ready.cfg (.rat 65535) / numValue ready.cfg (.rat 1)) := by
  decide +kernel

/-- NA_RAW with any precision; its neighbour with precision 0 and 1; both signs of a signed raw. -/
theorem witness_NumDecodeCommands :
    (leNat (#v[0xFF, 0x7F] : Vector Byte 2).toList : Int) = (fieldRow .s16).2.2 ∧
    (leNat (#v[0xFE, 0x7F] : Vector Byte 2).toList : Int) ≠ (fieldRow .s16).2.2 ∧
    numValue ready.cfg (.rat 0) ≤ 0 ∧ 0 < numValue ready.cfg (.rat 1) ∧
    -(fieldRow .s16).2.1 ≤ (leNat (#v[0x00, 0x80] : Vector Byte 2).toList : Int) ∧
    (leNat (#v[0xFE, 0x7F] : Vector Byte 2).toList : Int) < -(fieldRow .s16).2.1 := by decide +kernel

theorem witness_NumericRoundTrip :
    (0 : Rat) < 1 ∧ (0 : Rat) ≠ Config.standard.naValue ∧
    (65534 : Rat) ≠ Config.standard.naValue ∧ (65535 : Rat) ≠ Config.standard.naValue ∧
    (fieldRow .u16).2.1 ≤ roundRat (0 / 1) ∧ roundRat (65534 / 1) ≤ (fieldRow .u16).2.2 - 1 ∧
    (fieldRow .u16).2.2 - 1 < roundRat (65535 / 1) := by decide +kernel

theorem witness_TransmitOffersOneFrame :
    (0 : CanId) = 0 ∧ (1 : CanId) ≠ 0 ∧
    ready.world.sendIn = true :: List.replicate 7 true := by decide

theorem witness_MisuseIsRefused :
    (inSingle 1 []).fr.mode ≠ .idle ∧ (inFast 1 1 9 0 []).fr.mode ≠ .idle ∧ ready.fr.mode = .idle := by
  decide

theorem witness_FrStartBeginsASinglePacket :
    (inSingle 1 []).fr.mode ≠ .idle ∧ ready.fr.mode = .idle ∧ 2 ^ 17 ≤ (0x20000 : Pgn24).toNat ∧
    (0x1FFFF : Pgn24).toNat < 2 ^ 17 ∧
    exec (.idEncode 0x0EA01 6 25 5) ready = .next (ready.setResult (.ident 0 true)) :=
  ⟨by decide, rfl, by decide, by decide, rfl⟩

theorem witness_FrStartFastBeginsAFastPacket :
    (inFast 1 1 9 0 []).fr.mode ≠ .idle ∧ ready.fr.mode = .idle ∧ 223 < (224 : Byte).toNat ∧
    (223 : Byte).toNat ≤ 223 ∧ 2 ^ 17 ≤ (0x20000 : Pgn24).toNat ∧ (0x1FFFF : Pgn24).toNat < 2 ^ 17 := by
  decide

theorem witness_FrOutByteAppends :
    ready.fr.mode = .idle ∧
    ((inSingle 1 [1, 2, 3, 4, 5, 6, 7, 8]).fr.mode = .single ∧
      (inSingle 1 [1, 2, 3, 4, 5, 6, 7, 8]).fr.off = 8) ∧
    (inSingle 1 [1, 2, 3, 4, 5, 6, 7]).fr.off.toNat < 8 ∧
    ((inFast 1 1 2 2 [32, 2, 1, 2]).fr.mode = .fast ∧
      (inFast 1 1 2 2 [32, 2, 1, 2]).fr.written = (inFast 1 1 2 2 [32, 2, 1, 2]).fr.total) ∧
    ((inFast 1 1 9 4 [32, 9, 0, 1, 2, 3]).fr.written ≠ (inFast 1 1 9 4 [32, 9, 0, 1, 2, 3]).fr.total ∧
      (inFast 1 1 9 4 [32, 9, 0, 1, 2, 3]).fr.off.toNat < 7) ∧
    ((inFast 1 1 9 5 [32, 9, 0, 1, 2, 3, 4]).fr.written ≠
        (inFast 1 1 9 5 [32, 9, 0, 1, 2, 3, 4]).fr.total ∧
      (inFast 1 1 9 5 [32, 9, 0, 1, 2, 3, 4]).fr.off = 7) := by decide

/-- A command whose bytes fit, a text of 254 bytes, and a value below its range. -/
theorem witness_OutputCommandsAreByteAppends :
    outputBytes ready.cfg (.frOutVarstr (List.replicate 253 1)) =
      some (0xFF :: 0x01 :: List.replicate 253 1) ∧
    255 < textLength (List.replicate 254 1) + 2 ∧
    encodeNum .u16 (.rat (-1)) (.rat 1) ready.cfg = .error .belowRange := by decide +kernel

theorem witness_OutputsCompleteInSingleMode :
    outputBytes (inSingle 1 [1, 2, 3, 4, 5, 6, 7, 8]).cfg (.frOutRaw16 0x0834) = some [0x34, 0x08] ∧
    (inSingle 1 [1, 2, 3, 4, 5, 6, 7, 8]).fr.mode = .single ∧
    (inSingle 1 [1, 2, 3, 4, 5, 6, 7, 8]).fr.off.toNat ≤ 8 := by decide

/-- Two bytes that complete the declared total and fill the frame. -/
theorem witness_OutputsCompleteInFastMode :
    outputBytes (inFast 1 1 7 5 [32, 7, 0, 1, 2, 3, 4]).cfg (.frOutRaw16 0x0605) = some [0x05, 0x06] ∧
    (inFast 1 1 7 5 [32, 7, 0, 1, 2, 3, 4]).fr.mode = .fast ∧
    (inFast 1 1 7 5 [32, 7, 0, 1, 2, 3, 4]).fr.Inv ∧
    (inFast 1 1 7 5 [32, 7, 0, 1, 2, 3, 4]).fr.written.toNat + 2 ≤
      (inFast 1 1 7 5 [32, 7, 0, 1, 2, 3, 4]).fr.total.toNat := by decide

theorem witness_FrFinishEndsASinglePacket :
    ready.fr.mode = .idle ∧ (inFast 1 1 9 0 []).fr.mode = .fast ∧
    ((inSingle 1 []).fr.mode = .single ∧ (inSingle 1 []).fr.off = 0) ∧
    ((inSingle 1 [1]).fr.mode = .single ∧ (inSingle 1 [1]).fr.off ≠ 0) := by decide

theorem witness_FrFinishFastEndsAFastPacket :
    ready.fr.mode = .idle ∧ (inSingle 1 []).fr.mode = .single ∧
    (inFast 1 1 2 1 [32, 2, 1]).fr.written.toNat < (inFast 1 1 2 1 [32, 2, 1]).fr.total.toNat ∧
    ((inFast 1 2 6 6 [33]).fr.mode = .fast ∧
      (inFast 1 2 6 6 [33]).fr.total.toNat ≤ (inFast 1 2 6 6 [33]).fr.written.toNat ∧
      (inFast 1 2 6 6 [33]).fr.off.toNat ≤ 1) ∧
    1 < (inFast 1 2 7 7 [33, 6]).fr.off.toNat := by decide

/-- The empty and the longest payload; an identifier that is sent and, from a failed encoding, identifier
0. -/
theorem witness_FastPacketFrames :
    ready.fr.mode = .idle ∧ ([] : List Byte).length ≤ 223 ∧ (List.replicate 223 (0 : Byte)).length ≤ 223 ∧
    (0x1DFF0419 : CanId) ≠ 0 ∧
    exec (.idEncode 130820 7 25 255) ready = .next (ready.setResult (.ident 0x1DFF0419 false)) ∧
    exec (.idEncode 0x0EA01 7 25 255) ready = .next (ready.setResult (.ident 0 true)) :=
  ⟨rfl, by decide, by rw [List.length_replicate], by decide, rfl, rfl⟩

theorem witness_SinglePacketFrame :
    ready.fr.mode = .idle ∧ (0x09FD0219 : CanId) ≠ 0 ∧
    exec (.idEncode 130306 2 25 255) ready = .next (ready.setResult (.ident 0x09FD0219 false)) ∧
    exec (.idEncode 0x0EA01 2 25 255) ready = .next (ready.setResult (.ident 0 true)) :=
  ⟨rfl, by decide, rfl, rfl⟩

theorem witness_SequenceNumberPersists :
    (∃ t : State, exec (.frStartFast 127489 2 25 255 9) ready = .next t) ∧
    (∃ t : State, exec .acClaim ready = .next t) := ⟨⟨_, rfl⟩, ⟨_, rfl⟩⟩

theorem witness_AcClaimSendsTheClaim :
    (inSingle 1 []).fr.mode ≠ .idle ∧ ready.fr.mode = .idle := by decide

/-- A claim at 1000: the window is open until 1250 and passed at 1251. The states met later: one that
still holds the claim, one that holds none. -/
theorem witness_ClaimWindowLaw :
    (∃ t : State, exec .acClaim (atTime 1000 ready) = .next t ∧
      (inSingle 1 [] |>.setClaimT 1000).claimT = t.claimT) ∧
    now (atTime 1000 ready) ≠ 0 ∧
    ((1250 : Millis) - now (atTime 1000 ready)).toNat ≤ 250 ∧
    250 < ((1251 : Millis) - now (atTime 1000 ready)).toNat ∧ ready.claimT = 0 :=
  ⟨⟨_, rfl, by decide +kernel⟩, by decide +kernel, by decide +kernel, by decide +kernel, rfl⟩

/-- Its commands: a poll and a request each side of the window, a claim stood by, and one that does not touch
the timer. Its step clause is met by witness_completing_step. -/
theorem witness_ClaimWindowLaw_commands :
    after (exec .acPoll (atTime 1250 (ready.setClaimT 1000))) State.claimT = some 1000 ∧
    after (exec .acPoll (atTime 1251 (ready.setClaimT 1000))) State.claimT = some 0 ∧
    after (exec (.isoRxRequest (request [0x14, 0xF0, 0x01])) (atTime 1251 (ready.setClaimT 1000)))
      State.claimT = some 0 ∧
    after (exec (.isoRxRequest (request [0x00, 0xEE, 0x00])) (atTime 1251 (ready.setClaimT 1000)))
      State.claimT = some 1251 ∧
    after (exec (.acRxClaim (claimFrame 25 101)) (atTime 1100 (ready.setClaimT 1000))) State.claimT =
      some 1100 ∧
    after (exec .status (atTime 1251 (ready.setClaimT 1000))) State.claimT = some 1000 := by
  decide +kernel

/-- A claim from 254, one from another address, and a short one from this address. -/
theorem witness_AcRxClaimFilters :
    (decodeId (claimFrame 254 50).id).src = 254 ∧
    (decodeId (claimFrame 23 50).id).src ≠ (ready.setDevAddr 24).devAddr ∧
    ((decodeId 0x18EEFF18).src = (ready.setDevAddr 24).devAddr ∧ (decodeId 0x18EEFF18).src ≠ 254 ∧
      Frame.len { id := 0x18EEFF18, data := [50, 0, 0, 0, 0, 0, 0] } < 8) ∧
    (ready.setDevAddr 24).fr.mode = .idle ∧ (ready.setDevAddr 24).devAddr ≠ 251 := by decide

/-- The three branches and the yield from 251, from IDLE and, at address 25, with a packet in progress. -/
theorem witness_AcRxClaimArbitrates :
    (ready.setDevAddr 24).fr.mode = .idle ∧ (claimFrame 24 100).len = 8 ∧
    ((inSingle 1 []).fr.mode ≠ .idle ∧ (decodeId (claimFrame 25 100).id).src = (inSingle 1 []).devAddr ∧
      (inSingle 1 []).name.toNat ≤ leNat (claimFrame 25 100).data ∧
      leNat (claimFrame 25 99).data < (inSingle 1 []).name.toNat ∧ (inSingle 1 []).devAddr ≠ 251) ∧
    (decodeId (claimFrame 24 100).id).src = (ready.setDevAddr 24).devAddr ∧
    (ready.setDevAddr 24).devAddr ≠ 254 ∧
    leNat (claimFrame 24 100).data = (ready.setDevAddr 24).name.toNat ∧
    (leNat (claimFrame 251 99).data < (ready.setDevAddr 251).name.toNat ∧
      (decodeId (claimFrame 251 99).id).src = (ready.setDevAddr 251).devAddr ∧
      (ready.setDevAddr 251).devAddr = 251) ∧
    (leNat (claimFrame 250 99).data < (ready.setDevAddr 250).name.toNat ∧
      (decodeId (claimFrame 250 99).id).src = (ready.setDevAddr 250).devAddr ∧
      (ready.setDevAddr 250).devAddr ≠ 251) ∧
    (ready.setDevAddr 24).name.toNat < leNat (claimFrame 24 101).data := by decide

/-- Two bytes, nine bytes, and a request for node 0x20. -/
theorem witness_IsoRequestFailsItsChecks :
    (request [0x00, 0xEE]).len < 3 ∧ 8 < (request (List.replicate 9 0)).len ∧
    ((decodeId 0x18EA2005).dst ≠ 0xFF ∧ (decodeId 0x18EA2005).dst ≠ ready.devAddr) := by decide

theorem witness_SilenceWhilePending :
    (atTime 1250 (ready.setClaimT 1000)).claimT ≠ 0 ∧
    (now (atTime 1250 (ready.setClaimT 1000)) - (atTime 1250 (ready.setClaimT 1000)).claimT).toNat ≤
      250 := by decide +kernel

/-- The conditions of an answered request: the shortest and the longest frame, a request for this node
and one for all, no claim pending and one that has just expired, with and without a packet in progress. -/
theorem witness_answered_request :
    ready.fr.mode = .idle ∧
    ((inSingle 1 []).fr.mode ≠ .idle ∧ (inFast 1 1 9 0 []).fr.mode ≠ .idle ∧
      (inSingle 1 []).devAddr = ready.devAddr ∧ (inSingle 1 []).claimT = 0 ∧
      (inSingle 1 []).cfg = ready.cfg) ∧ 3 ≤ (request [0x00, 0xEE, 0x00]).len ∧
    (request [0x00, 0xEE, 0x01, 0xAA, 0xBB, 0xCC, 0xDD, 0xEE]).len ≤ 8 ∧
    (decodeId 0x18EAFF05).dst = 0xFF ∧ (decodeId (request []).id).dst = ready.devAddr ∧
    ready.claimT = 0 ∧
    250 < (now (atTime 1251 (ready.setClaimT 1000)) -
      (atTime 1251 (ready.setClaimT 1000)).claimT).toNat := by decide +kernel

theorem witness_IsoRequestForTheClaim :
    ready.fr.mode = .idle ∧ 3 ≤ (request [0x00, 0xEE, 0x00]).len ∧ (request [0x00, 0xEE, 0x00]).len ≤ 8 ∧
    (decodeId (request [0x00, 0xEE, 0x00]).id).dst = ready.devAddr ∧ ready.claimT = 0 ∧
    leNat ((request [0x00, 0xEE, 0x00]).data.take 3) = 60928 := by decide

/-- The standard configuration with the NAK tails of `list`. -/
def withTails (list : List (Pgn24 × Vector Byte 6)) : Config := { Config.standard with ackTail := list }

/-- A request for 129025, with the default tail (no list, and a list without it) and with one of the
configuration's, first and second in its list; from IDLE and (witness_answered_request) busy. -/
theorem witness_UnknownRequestGetsANak :
    ready.fr.mode = .idle ∧ ready.cfg.hasIsoHandler = false ∧ (request [0x01, 0xF8, 0x01]).len = 3 ∧
    (decodeId (request [0x01, 0xF8, 0x01]).id).dst = ready.devAddr ∧ ready.claimT = 0 ∧
    leNat ((request [0x01, 0xF8, 0x01]).data.take 3) ∉ [60928, 126464, 126996, 126998] ∧
    ready.cfg.ackTail.lookup 129025 = none ∧
    (withTails [(129026, #v[1, 2, 3, 4, 5, 6])]).ackTail.lookup 129025 = none ∧
    (withTails [(129025, #v[1, 2, 3, 4, 5, 6])]).ackTail.lookup 129025 = some #v[1, 2, 3, 4, 5, 6] ∧
    (withTails [(129026, #v[6, 5, 4, 3, 2, 1]), (129025, #v[1, 2, 3, 4, 5, 6])]).ackTail.lookup
      (BitVec.ofNat 24 (leNat ((request [0x01, 0xF8, 0x01]).data.take 3))) =
        some #v[1, 2, 3, 4, 5, 6] := by
  decide +kernel

/-- The ready state of an engine with an ISO handler. -/
def withHandler : State := { ready with cfg := { Config.standard with hasIsoHandler := true } }

/-- The host's own request, and the same as the first frame of a PUMP. -/
theorem witness_UnknownRequestGoesToTheHandler :
    withHandler.cfg.hasIsoHandler = true ∧ (request [0x01, 0xF8, 0x01]).len = 3 ∧
    (decodeId (request [0x01, 0xF8, 0x01]).id).dst = withHandler.devAddr ∧ withHandler.claimT = 0 ∧
    leNat ((request [0x01, 0xF8, 0x01]).data.take 3) ∉ [60928, 126464, 126996, 126998] ∧
    (receiving [some (request [0x01, 0xF8, 0x01]), none] withHandler).world.recvIn =
      some (request [0x01, 0xF8, 0x01]) :: [none] ∧
    pgnOf (request [0x01, 0xF8, 0x01]).id = 59904 ∧
    inList (pgnOf (request [0x01, 0xF8, 0x01]).id) withHandler.cfg.rxList = true := by decide

/-- The ready state of an engine with a transmit list of `n` PGNs. -/
def listing (n : Nat) : State :=
  { ready with cfg := { Config.standard with txList := List.replicate n 59392 } }

/-- A busy engine with a receive list of `n` PGNs. -/
def receivingLists (n : Nat) : State :=
  { inSingle 1 [] with cfg := { Config.standard with rxList := List.replicate n 59392 } }

theorem witness_PgnListRequestSendsBothLists :
    (listing 74).fr.mode = .idle ∧ (request [0x00, 0xEE, 0x01]).len = 3 ∧
    (decodeId (request [0x00, 0xEE, 0x01]).id).dst = (listing 74).devAddr ∧ (listing 74).claimT = 0 ∧
    leNat ((request [0x00, 0xEE, 0x01]).data.take 3) = 126464 ∧
    (listing 74).cfg.rxList.length ≤ 74 ∧ (listing 74).cfg.txList.length ≤ 74 ∧
    75 ≤ (listing 75).cfg.txList.length ∧ (listing 75).fr.mode = .idle ∧
    75 ≤ (receivingLists 75).cfg.rxList.length ∧
    ((inSingle 1 []).fr.mode ≠ .idle ∧ (inSingle 1 []).cfg.rxList.length ≤ 74) := by decide +kernel

theorem witness_ProductInfoRequestSendsTwentyFrames :
    ready.fr.mode = .idle ∧ (request [0x14, 0xF0, 0x01]).len = 3 ∧
    (decodeId (request [0x14, 0xF0, 0x01]).id).dst = ready.devAddr ∧ ready.claimT = 0 ∧
    leNat ((request [0x14, 0xF0, 0x01]).data.take 3) = 126996 := by decide

/-- The ready state of an engine whose first configuration text has `n` bytes. -/
def describing (n : Nat) : State :=
  { ready with cfg := { Config.standard with configInfo := ⟨List.replicate n 1, [], []⟩ } }

/-- Texts of 223 and of 224 bytes in all, with their heads. -/
theorem witness_ConfigInfoRequestSendsThreeTexts :
    ready.fr.mode = .idle ∧ (request [0x16, 0xF0, 0x01]).len = 3 ∧
    (decodeId (request [0x16, 0xF0, 0x01]).id).dst = ready.devAddr ∧ ready.claimT = 0 ∧
    leNat ((request [0x16, 0xF0, 0x01]).data.take 3) = 126998 ∧
    textLength (describing 217).cfg.configInfo.manufacturerInfo + 2 +
      (textLength (describing 217).cfg.configInfo.installDescription1 + 2) +
      (textLength (describing 217).cfg.configInfo.installDescription2 + 2) ≤ 223 ∧
    223 < textLength (describing 218).cfg.configInfo.manufacturerInfo + 2 +
      (textLength (describing 218).cfg.configInfo.installDescription1 + 2) +
      (textLength (describing 218).cfg.configInfo.installDescription2 + 2) := by decide +kernel

/-- The ready state of an engine with an ISO handler, with `c` running and `item` on the port. -/
def inCallback (c : Callback) (item : HostItem) : State := hosting [item] (withHandler.setCalls [c])

/-- The ISO handler asked for 129025 by node 5, with the polls `left` to its PUMP. -/
def askedFor129025 (left : Option Nat) : Callback :=
  .isoHandler 129025 (decodeId 0x18EA1905) [0x01, 0xF8, 0x01] left

/-- The message handler, with `left` polls left to its PUMP. -/
def handling (left : Nat) : Callback := .messageHandler (decodeId 0x09F80105) [] left

/-- Returns to the host's own command, and to a PUMP with no poll, one and nineteen polls left; with and
without a NAK due, from IDLE and busy; and a stray one. -/
theorem witness_CallbackReturnResumes :
    (inCallback (handling 0) (.callbackReturn true)).refused = false ∧
    (inCallback (handling 0) (.callbackReturn true)).calls = handling 0 :: [] ∧
    (inCallback (handling 0) (.callbackReturn true)).world.port = .callbackReturn true :: [] ∧
    ((handling 0).nakDue true = none ∧ (handling 19).nakDue false = none ∧
      (askedFor129025 (some 19)).nakDue true = none ∧
      (askedFor129025 none).nakDue false = some (129025, 5)) ∧
    ((handling 0).pollsLeft = 0 ∧ (handling 19).pollsLeft = 18 + 1 ∧
      (askedFor129025 none).pollsLeft = 0 ∧ (askedFor129025 (some 1)).pollsLeft = 0 + 1) ∧
    (inCallback (askedFor129025 none) (.callbackReturn false)).fr.mode = .idle ∧
    (inSingle 1 []).fr.mode ≠ .idle ∧
    (hosting [.callbackReturn true] ready).refused = false ∧
    (hosting [.callbackReturn true] ready).calls = [] ∧
    (hosting [.callbackReturn true] ready).world.port = .callbackReturn true :: [] := by decide

/-- A frame of PGN 129025, which `RX_LIST` does not hold. -/
def rapidUpdate : Frame := { id := 0x09F80105, data := List.replicate 8 0 }

/-- The engine of `inCallback` once the callback has been left, with what the transport will give. -/
def resumed (polls : List (Option Frame)) : State :=
  receiving polls { withHandler with
    cfg := { Config.standard with hasIsoHandler := true, rxList := [59904, 129025] } }

/-- The conditions of ResumesPump: an empty poll; one frame fewer than two polls; a frame for each handler. -/
theorem witness_ResumesPump :
    (resumed [none]).world.recvIn = none :: [] ∧
    ([rapidUpdate].length < 2 ∧
      (receiving [some rapidUpdate, none] ready).world.recvIn = [rapidUpdate].map some ++ none :: [] ∧
      after (exec .pump (sampleClock none (receiving [some rapidUpdate, none] ready))) State.calls =
        some ready.calls) ∧
    ((resumed [some rapidUpdate]).world.recvIn = some rapidUpdate :: [] ∧ rapidUpdate.len ≤ 8 ∧
      inList (pgnOf rapidUpdate.id) (resumed []).cfg.rxList = true ∧
      isServicePgn (pgnOf rapidUpdate.id) = false) ∧
    (pgnOf (request [0x01, 0xF8, 0x01]).id = 59904 ∧
      inList (pgnOf (request [0x01, 0xF8, 0x01]).id) (resumed []).cfg.rxList = true ∧
      (resumed []).cfg.hasIsoHandler = true ∧ (request [0x01, 0xF8, 0x01]).len = 3 ∧
      (decodeId (request [0x01, 0xF8, 0x01]).id).dst = (resumed []).devAddr ∧
      (resumed []).claimT = 0) := by decide +kernel

/-- The message handler's return into its PUMP, whose next frame is handled as any other (R182). -/
theorem test_callback_return_resumes_pump :
    after (step (hosting [.callbackReturn true]
      ((receiving [some rapidUpdate, none] ready).setCalls [handling 2])))
      (fun t => (t.cnt.drop, t.calls, t.world.recvIn)) = some (1, [], []) := by decide +kernel

theorem witness_PumpStopsAtAnEmptyPoll :
    (receiving [none] ready).world.recvIn = none :: [] := by decide

/-- With a frame and with no frame after it. -/
theorem witness_PumpDropsAnUnlistedFrame :
    (receiving [some rapidUpdate, some rapidUpdate] ready).world.recvIn =
      some rapidUpdate :: [some rapidUpdate] ∧
    (receiving [some rapidUpdate, none] ready).world.recvIn = some rapidUpdate :: none :: [] ∧
    inList (pgnOf rapidUpdate.id) ready.cfg.rxList = false := by decide

/-- R176: each frame of a PUMP has a clock sample of its own. Two claims that this device stands against: the
second re-claims at the second sample. -/
theorem test_pump_samples_each_frame :
    after (exec .pump ((receiving [some (claimFrame 25 101), some (claimFrame 25 101), none]
      (atTime 1000 ready)).setWorld
        { (receiving [some (claimFrame 25 101), some (claimFrame 25 101), none]
            (atTime 1000 ready)).world with clockIn := [1001, 1002] }))
      (fun t => (t.claimT, t.world.clock, t.txLog.length)) = some (1001, 1002, 2) := by decide +kernel

/-- One frame for each of the three service PGNs; each command answers without a callback, a request for an
unknown PGN calls the ISO handler, and a claim that meets a packet in progress is refused. -/
theorem witness_PumpRoutesByPgn :
    (request [0x00, 0xEE]).len ≤ 8 ∧ (claimFrame 24 50).len ≤ 8 ∧
    Frame.len { id := 0x18E81905, data := [] } ≤ 8 ∧
    inList (pgnOf (request [0x00, 0xEE]).id) ready.cfg.rxList = true ∧
    inList (pgnOf (claimFrame 24 50).id) ready.cfg.rxList = true ∧
    inList (pgnOf 0x18E81905) ready.cfg.rxList = true ∧
    pgnOf (request [0x00, 0xEE]).id = 59904 ∧ pgnOf (claimFrame 24 50).id = 60928 ∧
    pgnOf 0x18E81905 = 59392 ∧
    after (exec (.isoRxRequest (request [0x00, 0xEE])) (receiving [none] ready)) State.calls =
      some ready.calls ∧
    after (exec (.acRxClaim (claimFrame 24 50)) (receiving [none] (ready.setDevAddr 24))) State.calls =
      some ready.calls ∧
    after (exec (.isoRxAck { id := 0x18E81905, data := [] }) (receiving [none] ready)) State.calls =
      some ready.calls ∧
    after (exec (.isoRxRequest (request [0x01, 0xF8, 0x01])) (receiving [none] withHandler)) State.calls =
      some (askedFor129025 none :: withHandler.calls) ∧
    refusal (exec (.acRxClaim (claimFrame 25 101)) (receiving [none] (inSingle 1 []))) =
      some .packetInProgress := by decide +kernel

/-- The ready state of an engine that keeps frames of PGN 129025. -/
def keeping : State := { ready with cfg := { Config.standard with rxList := [129025] } }

theorem witness_PumpCallsTheMessageHandler :
    (receiving [some rapidUpdate] keeping).world.recvIn = some rapidUpdate :: [] ∧ rapidUpdate.len ≤ 8 ∧
    inList (pgnOf rapidUpdate.id) keeping.cfg.rxList = true ∧ pgnOf rapidUpdate.id ≠ 59904 ∧
    pgnOf rapidUpdate.id ≠ 60928 ∧ pgnOf rapidUpdate.id ≠ 59392 := by decide

/-- Nineteen frames, the most that leave a poll for the end, and twenty, after which there is none. -/
theorem witness_PumpCountsEveryFrame :
    (List.replicate 19 rapidUpdate).length < 20 ∧
    (receiving ((List.replicate 19 rapidUpdate).map some ++ [none]) ready).world.recvIn =
      (List.replicate 19 rapidUpdate).map some ++ none :: [] ∧
    after (exec .pump (receiving ((List.replicate 19 rapidUpdate).map some ++ [none]) ready))
      State.calls = some ready.calls ∧
    (List.replicate 20 rapidUpdate).length ≤ 20 ∧ ¬(List.replicate 20 rapidUpdate).length < 20 ∧
    (receiving ((List.replicate 20 rapidUpdate).map some ++ [none]) ready).world.recvIn =
      (List.replicate 20 rapidUpdate).map some ++ [none] ∧
    after (exec .pump (receiving ((List.replicate 20 rapidUpdate).map some ++ [none]) ready))
      State.calls = some ready.calls := by decide +kernel

theorem witness_PumpPollsAtMostTwentyTimes :
    (after (exec .pump (receiving [none] ready)) State.calls).isSome = true := by decide +kernel

/-- A state that meets the invariant and whose next item is an AC_CLAIM, which completes: the hypotheses of
EveryStepKeepsTheInvariant, AddressNeverDecreases, OnlyTheDeviceInstanceOfTheNameChanges,
TxLogGrowsAndTheSendCountersMatchIt, ConfigurationAndClockAcrossSteps and ClaimWindowLaw's step. -/
theorem witness_completing_step :
    (hosting [.command (some 7) [0x30]] ready).Inv ∧
    (∀ (c : Config) (items : List HostItem),
      (hosting [.command (some 7) [0x30]] ready).world.port ≠ .powerUp c :: items) ∧
    (∃ t : State, step (hosting [.command (some 7) [0x30]] ready) = .next t) := by
  refine ⟨by decide, fun c items h => ?_, _, rfl⟩
  cases (show [HostItem.command (some 7) [0x30]] = .powerUp c :: items from h)

/-- A PUMP step that calls the message handler. -/
theorem witness_MessageHandlerOnlyForKeptApplicationFrames :
    (hosting [.command none [0x50]] (receiving [some rapidUpdate] keeping)).Inv ∧
    after (step (hosting [.command none [0x50]] (receiving [some rapidUpdate] keeping))) State.calls =
      some [.messageHandler (decodeId rapidUpdate.id) rapidUpdate.data 19] := by decide +kernel

theorem witness_EngOpenReportsAndWaits :
    (ready.setWorld { World.quiet with openIn := [true] }).world.openIn = true :: [] ∧
    after (exec (.engOpen 0 0) (ready.setWorld { World.quiet with openIn := [true] })) State.result =
      some (.opened true) := by decide

theorem witness_StepRunsTheDecodedCommand :
    (hosting [.command (some 5) [0x51]] ready).refused = false ∧
    (hosting [.command (some 5) [0x51]] ready).world.port = .command (some 5) [0x51] :: [] ∧
    decode [0x51] = .ok .status ∧ ready.world.port = [] := by decide

theorem witness_IllegalCodesAreRefused :
    (hosting [.command none [0x53]] ready).refused = false ∧
    (hosting [.command none [0x53]] ready).world.port = .command none (0x53 :: []) :: [] ∧
    (0x53 : Byte).toNat ∉ [0x01, 0x02, 0x03, 0x10, 0x11, 0x12, 0x13, 0x14, 0x15, 0x18, 0x19, 0x1A, 0x1B,
      0x1C, 0x1D, 0x20, 0x21, 0x22, 0x23, 0x24, 0x25, 0x26, 0x27, 0x28, 0x29, 0x2A, 0x2B, 0x2C, 0x2D,
      0x2E, 0x2F, 0x30, 0x31, 0x32, 0x40, 0x41, 0x50, 0x51, 0x52] := by decide

/-- The ready state once a refusal has been marked. -/
def marked : State := { ready with refused := true }

theorem witness_RefusedMachineHasNoCommand :
    (hosting [.command none [0x51]] marked).refused = true ∧
    (hosting [.command none [0x51]] marked).world.port = .command none [0x51] :: [] ∧
    (hosting [.callbackReturn true] marked).refused = true ∧
    (hosting [.callbackReturn true] marked).world.port = .callbackReturn true :: [] ∧
    refusal (step (hosting [.command none [0x04]] ready)) = some (.illegalCommand 0x04) := by
  decide +kernel

theorem witness_ResetValues :
    (hosting [.powerUp Config.standard] ready).world.port = .powerUp Config.standard :: [] ∧
    251 < (Config.initAddr { Config.standard with initAddr := 252 }).toNat ∧
    (Config.initAddr { Config.standard with initAddr := 251 }).toNat ≤ 251 := by decide

theorem witness_NameIsAssembledFromItsFields :
    Config.nameLayout Config.standard = .j1939 ∧
    Config.nameLayout { Config.standard with nameLayout := .listed } = .listed := by decide

/-- Its step clauses are met by witness_completing_step; its commands, by a yield and by any other. -/
theorem witness_AddressNeverDecreases :
    (ready.setDevAddr 24).Inv ∧
    after (exec (.acRxClaim (claimFrame 24 50)) (ready.setDevAddr 24)) State.devAddr = some 25 ∧
    after (exec .status (ready.setDevAddr 24)) State.devAddr = some 24 := by decide +kernel

/-- Its step clause is met by witness_completing_step; the others, by a tie-break. -/
theorem witness_OnlyTheDeviceInstanceOfTheNameChanges :
    (decodeId (claimFrame 24 100).id).src = (ready.setDevAddr 24).devAddr ∧
    (ready.setDevAddr 24).devAddr ≠ 254 ∧ (claimFrame 24 100).len = 8 ∧
    leNat (claimFrame 24 100).data = (ready.setDevAddr 24).name.toNat ∧
    after (exec (.acRxClaim (claimFrame 24 100)) (atTime 0x34 (ready.setDevAddr 24))) State.name =
      some 0x0000003400000064 := by decide +kernel

theorem witness_DecodeOfEncode :
    (Instr.isoRxRequest { id := 0x1FFFFFFF, data := List.replicate 8 0xFF }).wellFormed = true := by decide

theorem witness_DecodedCommandsAreWellFormed :
    decode [0x41, 0x00, 0x00, 0x00, 0x00, 0x08, 1, 2, 3, 4, 5, 6, 7, 8] =
      .ok (.isoRxAck { id := 0, data := [1, 2, 3, 4, 5, 6, 7, 8] }) := by decide

end Sys2Proof.Tests
end

namespace Sys2Proof.Machine

/-! ### A step by the host's item (R42, R202, R206) -/

@[simp] theorem takeItem_refused (s : State) : (takeItem s).refused = s.refused := rfl

theorem step_of_port_nil {s : State} (hp : s.world.port = []) : step s = .next s := by
  rw [step, runItem, hp]

theorem step_of_command {s : State} {time : Option Millis} {bytes : List Byte}
    {items : List HostItem} (hp : s.world.port = .command time bytes :: items) :
    step s = runCommand time bytes (takeItem s) := by
  rw [step, runItem, hp]

theorem step_of_callbackReturn {s : State} {handled : Bool} {items : List HostItem}
    (hp : s.world.port = .callbackReturn handled :: items) :
    step s = runReturn handled (takeItem s) := by
  rw [step, runItem, hp]

theorem step_of_powerUp {s : State} {c : Config} {items : List HostItem}
    (hp : s.world.port = .powerUp c :: items) : step s = powerUp c (takeItem s) := by
  rw [step, runItem, hp]

/-- A power-up completes exactly when `INIT_ADDR` is claimable (R21); the mark and the outside agents
stay (R206). -/
theorem powerUp_eq_next {c : Config} {s t : State} :
    powerUp c s = .next t ↔ c.initAddr.toNat ≤ 251 ∧
      t = { State.ofConfig c with refused := s.refused, world := s.world } := by
  rw [powerUp]
  split <;> simp [*, eq_comm]

/-- A step that completes is a power-up with a claimable `INIT_ADDR`, or its item is no power-up. -/
theorem step_powerUp_or_not {s t : State} (h : step s = .next t) :
    (∃ c : Config, c.initAddr.toNat ≤ 251 ∧ (∃ items, s.world.port = .powerUp c :: items) ∧
      t = { State.ofConfig c with refused := s.refused, world := (takeItem s).world }) ∨
    ∀ (c : Config) (items : List HostItem), s.world.port ≠ .powerUp c :: items := by
  by_cases hp : ∃ c items, s.world.port = .powerUp c :: items
  · obtain ⟨c, items, hp⟩ := hp
    rw [step_of_powerUp hp] at h
    obtain ⟨hc, ht⟩ := powerUp_eq_next.mp h
    exact .inl ⟨c, hc, ⟨items, hp⟩, ht⟩
  · exact .inr fun c items e => hp ⟨c, items, e⟩

theorem step_command_of_refused {s : State} (hr : s.refused = true) {time : Option Millis}
    {bytes : List Byte} {items : List HostItem} (hp : s.world.port = .command time bytes :: items) :
    step s = .refused .alreadyRefused := by
  rw [step_of_command hp, runCommand, takeItem_refused, if_pos hr]

theorem step_callbackReturn_of_refused {s : State} (hr : s.refused = true) {handled : Bool}
    {items : List HostItem} (hp : s.world.port = .callbackReturn handled :: items) :
    step s = .refused .alreadyRefused := by
  rw [step_of_callbackReturn hp, runReturn, takeItem_refused, if_pos hr]

/-- A step that completes keeps the mark of R42, a power-up included (R206). -/
theorem step_keeps_refused {s t : State} (hr : s.refused = true) (h : step s = .next t) :
    t.refused = true := by
  match hp : s.world.port with
  | [] => cases (step_of_port_nil hp).symm.trans h; exact hr
  | .command _ _ :: _ => cases (step_command_of_refused hr hp).symm.trans h
  | .callbackReturn _ :: _ => cases (step_callbackReturn_of_refused hr hp).symm.trans h
  | .powerUp c :: _ =>
    rw [step_of_powerUp hp] at h
    obtain ⟨-, rfl⟩ := powerUp_eq_next.mp h
    exact hr

theorem stepMarked_of_next {s t : State} (h : step s = .next t) : stepMarked s = t := by
  rw [stepMarked, h]

theorem stepMarked_of_refused {s : State} {r : Refusal} (h : step s = .refused r) :
    stepMarked s = { s with refused := true } := by
  rw [stepMarked, h]

/-- Settles O49: a marked command or return is refused, and what does complete keeps the mark. -/
theorem refusedMachineHasNoCommand : Obligations.RefusedMachineHasNoCommand := by
  refine ⟨fun s hr => ⟨fun _ _ _ => step_command_of_refused hr,
    fun _ _ => step_callbackReturn_of_refused hr, ?_⟩, fun s r h => ?_⟩
  · cases h : step s with
    | next t => rw [stepMarked_of_next h]; exact step_keeps_refused hr h
    | fault e => cases e
    | refused r => rw [stepMarked_of_refused h]
  · rw [stepMarked_of_refused h]

/-! ### The invariant (R21, R36, R55) -/

theorem Framer.inv_of_idle {f : Framer} (h : f.mode = .idle) : f.Inv := by
  simp [Framer.Inv, h]

/-- Reset with a claimable `INIT_ADDR` meets the invariant (R21, R203). -/
theorem ofConfig_inv {c : Config} (h : c.initAddr.toNat ≤ 251) : (State.ofConfig c).Inv :=
  ⟨h, Framer.inv_of_idle rfl, by simp, by simp⟩

/-- Settles O52, as the reset with the standard configuration. -/
theorem resetMeetsTheInvariant : Obligations.ResetMeetsTheInvariant :=
  ofConfig_inv (by decide)

theorem State.Inv.framer {s : State} (hs : s.Inv) : s.fr.Inv := hs.2.1

theorem State.Inv.rightlyCalled {s : State} (hs : s.Inv) : ∀ c ∈ s.calls, c.inv s.cfg = true :=
  hs.2.2.2

theorem State.Inv.setFr {s : State} (hs : s.Inv) {f : Framer} (hf : f.Inv) : (s.setFr f).Inv :=
  ⟨hs.1, hf, hs.2.2⟩

/-- Frames offered keep the invariant when they are CAN frames and the packet in progress is as R36
says. -/
theorem Offered.inv {s t : State} {es : List TxEntry} (h : Offered s t es) (hs : s.Inv)
    (hf : t.fr.Inv) (he : ∀ e ∈ es, e.Inv) : t.Inv := by
  obtain ⟨ha, -, hl, hc⟩ := hs
  refine ⟨by rw [h.only.devAddr]; exact ha, hf, ?_, by rw [h.only.calls, h.only.cfg]; exact hc⟩
  rw [h.log]
  exact List.forall_mem_append.mpr ⟨hl, he⟩

theorem transmit_inv {id : CanId} {bs : List Byte} {s : State} (hb : bs.length ≤ 8) (hs : s.Inv) :
    (transmit id bs s).Inv := by
  by_cases hid : id = 0
  · rw [transmit, if_pos hid]; exact hs
  · obtain ⟨es, hlog, ho⟩ := transmit_offered hid bs s
    refine ho.inv hs (by rw [transmit_fr]; exact hs.framer) fun e he => ?_
    obtain ⟨h1, h2⟩ := hlog.mem he
    exact ⟨h1 ▸ hid, List.mem_singleton.mp h2 ▸ hb⟩

theorem goIdle_inv {s : State} (hs : s.Inv) : (goIdle s).Inv :=
  hs.setFr (Framer.inv_of_idle rfl)

theorem startSingle_inv {s t : State} {pgn prio src dst}
    (h : startSingle pgn prio src dst s = .next t) (hs : s.Inv) : t.Inv := by
  obtain ⟨-, r, -, rfl⟩ := startSingle_eq_next.mp h
  exact hs.setFr ⟨fun _ => Nat.zero_le _, fun hm => by cases hm⟩

theorem startFast_inv {s t : State} {pgn prio src dst total}
    (h : startFast pgn prio src dst total s = .next t) (hs : s.Inv) : t.Inv := by
  obtain ⟨-, ht, r, -, rfl⟩ := startFast_eq_next.mp h
  exact hs.setFr (fastStarted_inv r.1 ht s.fr)

theorem appendByte_inv_of_single {s t : State} {b : Byte} (hm : s.fr.mode = .single)
    (h : appendByte b s = .next t) (hs : s.Inv) : t.Inv := by
  obtain ⟨t', h', -, ho, -, ht⟩ := appendByte_of_single (b := b) hm (hs.framer.1 hm)
  cases h.symm.trans h'
  have hmt : t.fr.mode = .single := by rw [ht]; exact hm
  have hf : t.fr.Inv := ⟨fun _ => by omega, fun hm' => by rw [hmt] at hm'; cases hm'⟩
  rw [ht] at hf ⊢
  exact ⟨hs.1, hf, hs.2.2⟩

/-- In FAST mode an append that is not refused is below the declared total, so R36 is kept and the frame
it may offer has 8 bytes (R124, R126). -/
theorem appendByte_inv_of_fast {s t : State} {b : Byte} (hm : s.fr.mode = .fast)
    (hw : s.fr.written ≠ s.fr.total) (h : appendByte b s = .next t) (hs : s.Inv) : t.Inv := by
  obtain ⟨-, -, -, -, hle, -, -⟩ := hs.framer.2 hm
  have hlt : s.fr.written.toNat < s.fr.total.toNat :=
    lt_of_le_of_ne hle fun e => hw (BitVec.eq_of_toNat_eq e)
  obtain ⟨t', es, h', hf, -, ho, -, hlen, hes⟩ := appendByte_of_fast (b := b) hm hs.framer hlt
  cases h.symm.trans h'
  refine ho.inv hs hf fun e he => ?_
  obtain ⟨hid, hdata⟩ := hes e he
  refine ⟨fun h0 => ?_, hdata.le⟩
  rw [if_pos (hid.symm.trans h0)] at hlen
  rw [List.length_eq_zero_iff.mp hlen] at he
  cases he

theorem appendByte_inv {s t : State} {b : Byte} (h : appendByte b s = .next t) (hs : s.Inv) :
    t.Inv := by
  rcases appendByte_cases h with ⟨hm, -, -⟩ | ⟨hm, -, -⟩ | ⟨hm, hw, -, -⟩ | ⟨hm, hw, -, -⟩
  · exact appendByte_inv_of_single hm h hs
  · exact appendByte_inv_of_single hm h hs
  · exact appendByte_inv_of_fast hm hw h hs
  · exact appendByte_inv_of_fast hm hw h hs

/-- The residual frame is a CAN frame under both values of `FP_PAD` (R144). -/
theorem residualFrame_length_le (pad : FpPad) (f : Framer) : (residualFrame pad f).length ≤ 8 := by
  cases pad with
  | unpadded => exact bufFront_length_le _ _
  | padFF => simp only [residualFrame, bufFront, List.length_append, List.length_take,
      Vector.length_toList, List.length_replicate]; omega

theorem finishSingle_inv {s t : State} (h : finishSingle s = .next t) (hs : s.Inv) : t.Inv := by
  rcases finishSingle_cases h with ⟨-, rfl⟩ | ⟨-, -, rfl⟩ | ⟨-, -, rfl⟩
  · exact hs
  · exact goIdle_inv hs
  · exact goIdle_inv (transmit_inv (bufFront_length_le _ _) hs)

theorem finishFast_inv {s t : State} (h : finishFast s = .next t) (hs : s.Inv) : t.Inv := by
  rcases finishFast_cases h with ⟨-, rfl⟩ | ⟨-, -, -, rfl⟩ | ⟨-, -, -, rfl⟩
  · exact hs
  · exact goIdle_inv hs
  · exact goIdle_inv (transmit_inv (residualFrame_length_le _ _) hs)

theorem sendSingle_inv {s t : State} {pgn prio src dst bs}
    (h : sendSingle pgn prio src dst bs s = .next t) : s.Inv → t.Inv :=
  sendSingle_of_parts (R := fun s t => s.Inv → t.Inv) (fun h1 h2 => h2 ∘ h1) (fun _ => id)
    startSingle_inv appendByte_inv finishSingle_inv h

/-- A yield from below 251 leaves a claimable address (R155, R21). -/
theorem yield_inv {s : State} (hne : s.devAddr ≠ 251) (hs : s.Inv) :
    (s.setDevAddr (s.devAddr + 1)).Inv := by
  refine ⟨?_, hs.2⟩
  have hle : s.devAddr.toNat ≤ 251 := hs.1
  rw [State.setDevAddr_devAddr]
  bv_omega

/-- Every elementary change of the machine keeps the invariant. -/
theorem inv_allows : Allows fun s t => s.Inv → t.Inv where
  refl _ := id
  trans h1 h2 := h2 ∘ h1
  result _ _ := id
  world _ _ _ _ := id
  startSingle := startSingle_inv
  startFast := startFast_inv
  append := appendByte_inv
  finishSingle := finishSingle_inv
  finishFast := finishFast_inv
  countRx _ := id
  countDrop _ := id
  claimAddress := claimAddress_of_parts (R := fun s t => s.Inv → t.Inv) (fun h1 h2 => h2 ∘ h1)
    sendSingle_inv fun _ => id
  expire _ := id
  tieBreak _ := id
  yield _ := yield_inv
  call s c hc := fun ⟨ha, hf, hl, hcs⟩ => ⟨ha, hf, hl, List.forall_mem_cons.mpr ⟨hc, hcs⟩⟩
  ret s c rest hc := fun ⟨ha, hf, hl, hcs⟩ =>
    ⟨ha, hf, hl, fun c' hc' => hcs c' (by rw [hc]; exact List.mem_cons_of_mem c hc')⟩

/-- The induction for a step that is no power-up, for a relation that the taking of the host's item
allows too. -/
theorem Allows.step_of_take {R : State → State → Prop} (A : Allows R) (take : ∀ s, R s (takeItem s))
    {s t : State} (hs : s.Inv)
    (hp : ∀ (c : Config) (items : List HostItem), s.world.port ≠ .powerUp c :: items)
    (h : Machine.step s = .next t) : R s t := by
  have hstep := A.step hs.rightlyCalled hp h
  split at hstep
  · exact hstep
  · exact A.trans (take s) hstep

/-- Settles O53: a power-up resets what the invariant speaks of, and every elementary change of any other
step keeps it. -/
theorem everyStepKeepsTheInvariant : Obligations.EveryStepKeepsTheInvariant := by
  intro s t hs h
  obtain ⟨c, hc, -, rfl⟩ | hp := step_powerUp_or_not h
  · exact ofConfig_inv hc
  · exact inv_allows.step_of_take (fun _ => id) hs hp h hs

/-! ### The fields of NAME_INIT (R22 to R24) -/

/-- A field at or above the lower part of a concatenation is a field of the upper part. -/
theorem extract_above {v w start len : Nat} {x : BitVec v} {y : BitVec w} {z : BitVec len}
    (h : w ≤ start) (hx : x.extractLsb' (start - w) len = z) :
    (x ++ y).extractLsb' start len = z :=
  (BitVec.extractLsb'_append_eq_of_le h).trans hx

/-- A field within the lower part of a concatenation is a field of that part. -/
theorem extract_below {v w start len : Nat} {x : BitVec v} {y : BitVec w} {z : BitVec len}
    (h : start + len ≤ w) (hy : y.extractLsb' start len = z) :
    (x ++ y).extractLsb' start len = z :=
  (BitVec.extractLsb'_append_eq_of_add_le h).trans hy

/-- Bits 47:0, the same under both layouts (R23). -/
theorem nameLow_fields (d : DeviceIdentity) :
    (nameLow d).extractLsb' 0 21 = d.uniqueNumber ∧
    (nameLow d).extractLsb' 21 11 = d.manufacturerCode ∧
    (nameLow d).extractLsb' 32 8 = d.deviceInstance ∧
    (nameLow d).extractLsb' 40 8 = d.deviceFunction :=
  ⟨BitVec.extractLsb'_append_eq_right,
    extract_above (by decide) BitVec.extractLsb'_append_eq_right,
    extract_above (by decide) (extract_above (by decide) BitVec.extractLsb'_append_eq_right),
    extract_above (by decide) (extract_above (by decide) BitVec.extractLsb'_append_eq_left)⟩

/-- Bits 62:48 under J1939 (R24). -/
theorem nameHigh_j1939_fields (d : DeviceIdentity) :
    (nameHigh .j1939 d).extractLsb' 0 1 = d.reservedBit ∧
    (nameHigh .j1939 d).extractLsb' 1 7 = d.deviceClass ∧
    (nameHigh .j1939 d).extractLsb' 8 4 = d.systemInstance ∧
    (nameHigh .j1939 d).extractLsb' 12 3 = d.industryGroup :=
  ⟨BitVec.extractLsb'_append_eq_right,
    extract_above (by decide) BitVec.extractLsb'_append_eq_right,
    extract_above (by decide) (extract_above (by decide) BitVec.extractLsb'_append_eq_right),
    extract_above (by decide) (extract_above (by decide)
      (extract_above (by decide) BitVec.extractLsb'_append_eq_right))⟩

/-- Bits 62:48 under LISTED (R24). -/
theorem nameHigh_listed_fields (d : DeviceIdentity) :
    (nameHigh .listed d).extractLsb' 0 7 = d.deviceClass ∧
    (nameHigh .listed d).extractLsb' 7 1 = d.reservedBit ∧
    (nameHigh .listed d).extractLsb' 8 3 = d.industryGroup ∧
    (nameHigh .listed d).extractLsb' 11 4 = d.systemInstance :=
  ⟨BitVec.extractLsb'_append_eq_right,
    extract_above (by decide) BitVec.extractLsb'_append_eq_right,
    extract_above (by decide) (extract_above (by decide) BitVec.extractLsb'_append_eq_right),
    extract_above (by decide) (extract_above (by decide)
      (extract_above (by decide) BitVec.extractLsb'_append_eq_right))⟩

/-- The arbitrary bit is the top bit in both layouts (R24). -/
theorem nameHigh_arbitraryAddress (layout : NameLayout) (d : DeviceIdentity) :
    (nameHigh layout d).extractLsb' 15 1 = d.arbitraryAddress := by
  cases layout <;>
    exact extract_above (by decide) (extract_above (by decide) (extract_above (by decide)
      BitVec.extractLsb'_append_eq_left))

/-- Settles O51: each field is looked up in the half of the NAME that holds it. -/
theorem nameIsAssembledFromItsFields : Obligations.NameIsAssembledFromItsFields := by
  intro c
  obtain ⟨hun, hmc, hdi, hdf⟩ := nameLow_fields c.identity
  refine ⟨extract_below (by decide) hun, extract_below (by decide) hmc,
    extract_below (by decide) hdi, extract_below (by decide) hdf,
    extract_above (by decide) (nameHigh_arbitraryAddress _ _), fun hl => ?_, fun hl => ?_⟩
  · obtain ⟨hr, hc, hs, hg⟩ := nameHigh_j1939_fields c.identity
    rw [nameInit, hl]
    exact ⟨extract_above (by decide) hr, extract_above (by decide) hc,
      extract_above (by decide) hs, extract_above (by decide) hg⟩
  · obtain ⟨hc, hr, hg, hs⟩ := nameHigh_listed_fields c.identity
    rw [nameInit, hl]
    exact ⟨extract_above (by decide) hc, extract_above (by decide) hr,
      extract_above (by decide) hg, extract_above (by decide) hs⟩

/-! ### Output commands are appends -/

theorem outBytes_appends {bs : List Byte} {s t : State} (h : outBytes bs s = .next t) :
    ∃ as, appendAll as s = .next t := by
  rw [outBytes] at h
  split at h
  · cases h
  · exact ⟨bs, h⟩

theorem outNum_appends {k : NumKind} {value prec : NumOperand} {s t : State}
    (h : outNum k value prec s = .next t) : ∃ as, appendAll as s = .next t := by
  rw [outNum] at h
  split at h
  · cases h
  · obtain ⟨as, -, h⟩ := withValue_eq_next.mp h
    exact ⟨as, h⟩

theorem outVarString_appends {str : List Byte} {s t : State} (h : outVarString str s = .next t) :
    ∃ as, appendAll as s = .next t := by
  rw [outVarString] at h
  split at h
  · cases h
  · split at h
    · cases h
    · exact ⟨_, h⟩

/-! ### Commands that stay within the framer, the claim timer and the ports -/

/-- A command that neither starts a fast packet nor handles an inbound request or claim. -/
def isLocal : Instr → Bool
  | .frStartFast _ _ _ _ _ => false
  | .acRxClaim _ => false
  | .isoRxRequest _ => false
  | .pump => false
  | _ => true

/-- The elementary changes of the local commands, each as something the relation `R` allows. It asks less
than `Allows`: `R` need not hold across the start of a fast packet, a tie-break or a yield. -/
structure AllowsLocal (R : State → State → Prop) : Prop where
  refl : ∀ s, R s s
  trans : ∀ {s t u}, R s t → R t u → R s u
  result : ∀ s r, R s (s.setResult r)
  world : ∀ s w, w.port = s.world.port → s.world.clock ≤ w.clock → R s (s.setWorld w)
  startSingle : ∀ {s t pgn prio src dst}, startSingle pgn prio src dst s = .next t → R s t
  append : ∀ {s t b}, appendByte b s = .next t → R s t
  finishSingle : ∀ {s t}, finishSingle s = .next t → R s t
  finishFast : ∀ {s t}, finishFast s = .next t → R s t
  claim : ∀ s, R s ((s.setClaimT (now s)).setClaimedOnce true)
  expire : ∀ s, R s (expireClaim s)

section Local

variable {R : State → State → Prop} (L : AllowsLocal R) {s t : State}

include L

theorem AllowsLocal.answered {v : Result} (h : answer v s = .next t) : R s t := by
  cases h; exact L.result s v

theorem AllowsLocal.answeredValue {α : Type} {r : Except Refusal α} {v : α → Result}
    (h : withValue r (fun a => answer (v a) s) = .next t) : R s t := by
  obtain ⟨a, -, h⟩ := withValue_eq_next.mp h
  exact L.answered h

theorem AllowsLocal.done {r : Out} (hr : ∀ {t}, r = .next t → R s t) (h : done r = .next t) :
    R s t := by
  obtain ⟨m, h1, rfl⟩ := done_eq_next.mp h
  exact L.trans (hr h1) (L.result m _)

theorem AllowsLocal.output {r : Out} (hr : ∀ {t}, r = .next t → ∃ as, appendAll as s = .next t)
    (h : Machine.done r = .next t) : R s t := by
  refine L.done (fun h => ?_) h
  obtain ⟨as, h⟩ := hr h
  exact appendAll_induction L.refl (fun h1 h2 => L.trans (L.append h1) h2) h

theorem AllowsLocal.sendSingle {pgn prio src dst bs}
    (h : sendSingle pgn prio src dst bs s = .next t) : R s t :=
  sendSingle_of_parts (R := R) L.trans L.refl L.startSingle L.append L.finishSingle h

theorem AllowsLocal.claimAddress (h : claimAddress s = .next t) : R s t :=
  claimAddress_of_parts (R := R) L.trans L.sendSingle L.claim h

theorem AllowsLocal.engOpen (bitrate clockConfig : Nat)
    (h : execEngOpen bitrate clockConfig s = .next t) : R s t := by
  refine L.trans ?_ (L.answered h)
  rw [drawOpen_state]
  exact L.world s _ rfl (Nat.le_add_right _ _)

/-- What the elementary changes of local commands allow, every local command allows. -/
theorem AllowsLocal.exec {i : Instr} (hi : isLocal i = true) (h : exec i s = .next t) : R s t := by
  cases i with
  | frStartFast _ _ _ _ _ | acRxClaim _ | isoRxRequest _ | pump => cases hi
  | idPgnof _ | idDecode _ | status => exact L.answered h
  | idEncode _ _ _ _ => exact L.answeredValue h
  | numEncU16 _ _ | numEncS16 _ _ | numEncU24 _ _ | numEncS24 _ _ | numEncU32 _ _
  | numEncS32 _ _ => exact L.answeredValue h
  | numDecU16 _ _ | numDecS16 _ _ | numDecU24 _ _ | numDecS24 _ _ | numDecU32 _ _
  | numDecS32 _ _ => exact L.answeredValue h
  | frStart _ _ _ _ => exact L.done L.startSingle h
  | frOutByte _ | frOutRaw16 _ | frOutRaw24 _ | frOutRaw32 _ | frOutFixstr _ _ _ =>
    exact L.output outBytes_appends h
  | frOutVarstr _ => exact L.output outVarString_appends h
  | frOutNumU16 _ _ | frOutNumS16 _ _ | frOutNumU24 _ _ | frOutNumS24 _ _ | frOutNumU32 _ _
  | frOutNumS32 _ _ => exact L.output outNum_appends h
  | frFinish => exact L.done L.finishSingle h
  | frFinishFast => exact L.done L.finishFast h
  | acClaim => exact L.done L.claimAddress h
  | acPoll => exact L.trans (L.expire s) (L.answered h)
  | isoRxAck f => exact L.done (r := receiveAck f s) (fun h => by cases h; exact L.refl s) h
  | engOpen bitrate clockConfig => exact L.engOpen bitrate clockConfig h

end Local

/-! ### Received claims (R152 to R157) -/

/-- A full claim's NAME is the number its payload holds, whatever is drawn (R73, R153). -/
theorem nameOfBytes_remoteNameBytes {f : Frame} (h : 8 ≤ f.len) (s : State) :
    (nameOfBytes (remoteNameBytes f s).1).toNat = leNat (f.data.take 8) := by
  have hbytes : (remoteNameBytes f s).1 = f.data.take 8 := by
    rw [remoteNameBytes, Nat.sub_eq_zero_of_le h]
    exact List.append_nil _
  rw [hbytes, nameOfBytes_toNat (List.length_take_of_le h)]

@[simp] theorem remoteNameBytes_name (f : Frame) (s : State) :
    (remoteNameBytes f s).2.name = s.name := drawBytes_name s _

@[simp] theorem remoteNameBytes_fr (f : Frame) (s : State) :
    (remoteNameBytes f s).2.fr = s.fr := drawBytes_fr s _

/-- A claim from this device's own address is arbitrated (R152). -/
theorem receiveClaim_of_own {f : Frame} {s : State} (hsrc : (decodeId f.id).src = s.devAddr)
    (hne : (decodeId f.id).src ≠ 254) : receiveClaim f s =
      arbitrate (nameOfBytes (remoteNameBytes f s).1) (remoteNameBytes f s).2 := by
  rw [receiveClaim, if_neg hne, if_neg (not_not.mpr hsrc)]

/-- Everything a received claim that completes can do: nothing, or the arbitration of a claim from this
device's own address (R152, R153). -/
theorem receiveClaim_cases {f : Frame} {s t : State} (h : receiveClaim f s = .next t) :
    t = s ∨ (decodeId f.id).src = s.devAddr ∧
      arbitrate (nameOfBytes (remoteNameBytes f s).1) (remoteNameBytes f s).2 = .next t := by
  rw [receiveClaim] at h
  split at h
  · exact .inl (Host.Outcome.next.inj h).symm
  · split at h
    · exact .inl (Host.Outcome.next.inj h).symm
    · exact .inr ⟨not_not.mp ‹_›, h⟩

/-- Everything an arbitration that completes can do: the claim again, after a yield or a tie-break where
the NAMEs ask for one (R154 to R157). -/
theorem arbitrate_cases {remote : NameWord} {s t : State} (h : arbitrate remote s = .next t) :
    claimAddress s = .next t ∨
    (s.devAddr ≠ 251 ∧ claimAddress (s.setDevAddr (s.devAddr + 1)) = .next t) ∨
    (remote = s.name ∧ claimAddress (s.setName (withDeviceInstance s.name (now s))) = .next t) := by
  rw [arbitrate] at h
  split at h
  · exact .inr (.inr ⟨‹_›, h⟩)
  · split at h
    · split at h
      · cases h
      · exact .inr (.inl ⟨‹_›, h⟩)
    · exact .inl h

/-! ### Requests (R162 to R167) -/

theorem sendPgnList_sendsOnly {listType : Byte} {list : List Pgn24} {dst : Addr} {s t : State}
    (h : sendPgnList listType list dst s = .next t) : SendsOnly s t := by
  rw [sendPgnList] at h
  split at h
  · cases h
  · exact sendFast_sendsOnly h

theorem sendConfigInfo_sendsOnly {dst : Addr} {s t : State}
    (h : sendConfigInfo dst s = .next t) : SendsOnly s t := by
  rw [sendConfigInfo] at h
  split at h
  · cases h
  · exact sendFast_sendsOnly h

/-- Everything the answer to a request can do to the state: the claim again, sends, or a call (R167). -/
theorem respond_state_cases {f : Frame} {left : Option Nat} {s : State} {fl : Flow}
    (h : respond f left s = .next fl) :
    claimAddress s = .next (flowState fl) ∨ SendsOnly s (flowState fl) ∨
      ∃ c, flowState fl = s.setCalls (c :: s.calls) := by
  rw [respond] at h
  split at h
  · exact .inl (flowOf_next (R := fun s t => claimAddress s = .next t) id h)
  · refine .inr ?_
    split at h
    · refine .inl (flowOf_next (fun h => ?_) h)
      obtain ⟨m, h1, h2⟩ := andThen_eq_next.mp h
      exact (sendPgnList_sendsOnly h1).trans (sendPgnList_sendsOnly h2)
    · split at h
      · exact .inl (flowOf_next sendFast_sendsOnly h)
      · split at h
        · exact .inl (flowOf_next sendConfigInfo_sendsOnly h)
        · split at h
          · cases h
            exact .inr ⟨_, rfl⟩
          · exact .inl (flowOf_next sendSingle_sendsOnly h)

/-! ### Relations that sends respect -/

/-- The elementary changes of the machine for a relation that looks at nothing a send may change. -/
structure AllowsSends (R : State → State → Prop) : Prop where
  refl : ∀ s, R s s
  trans : ∀ {s t u}, R s t → R t u → R s u
  sends : ∀ {s t}, SendsOnly s t → R s t
  result : ∀ s r, R s (s.setResult r)
  world : ∀ s w, w.port = s.world.port → s.world.clock ≤ w.clock → R s (s.setWorld w)
  calls : ∀ s cs, R s (s.setCalls cs)
  claim : ∀ s, R s ((s.setClaimT (now s)).setClaimedOnce true)
  expire : ∀ s, R s (expireClaim s)

section Sends

variable {R : State → State → Prop} (S : AllowsSends R)

include S

theorem AllowsSends.toLocal : AllowsLocal R where
  refl := S.refl
  trans := S.trans
  result := S.result
  world := S.world
  startSingle h := S.sends (startSingle_sendsOnly h)
  append h := S.sends (appendByte_sendsOnly h)
  finishSingle h := S.sends (finishSingle_sendsOnly h)
  finishFast h := S.sends (finishFast_sendsOnly h)
  claim := S.claim
  expire := S.expire

/-- With the two changes of the arbitration, such a relation allows the whole machine. -/
theorem AllowsSends.allows (tieBreak : ∀ s, R s (s.setName (withDeviceInstance s.name (now s))))
    (yield : ∀ s, s.devAddr ≠ 251 → R s (s.setDevAddr (s.devAddr + 1))) : Allows R where
  refl := S.refl
  trans := S.trans
  result := S.result
  world := S.world
  startSingle := S.toLocal.startSingle
  startFast h := S.sends (startFast_sendsOnly h)
  append := S.toLocal.append
  finishSingle := S.toLocal.finishSingle
  finishFast := S.toLocal.finishFast
  countRx s := S.sends (SendsOnly.setCnt s _)
  countDrop s := S.sends (SendsOnly.setCnt s _)
  claimAddress := S.toLocal.claimAddress
  expire := S.expire
  tieBreak := tieBreak
  yield := yield
  call s _ _ := S.calls s _
  ret s _ rest _ := S.calls s rest

variable {s t : State}

theorem AllowsSends.respond {f : Frame} {left : Option Nat} {fl : Flow}
    (h : respond f left s = .next fl) : R s (flowState fl) := by
  obtain h | h | ⟨c, h⟩ := respond_state_cases h
  · exact S.toLocal.claimAddress h
  · exact S.sends h
  · rw [h]; exact S.calls s _

theorem AllowsSends.receiveRequest {f : Frame} {left : Option Nat} {fl : Flow}
    (h : receiveRequest f left s = .next fl) : R s (flowState fl) := by
  rw [Machine.receiveRequest] at h
  split at h
  · refine S.trans (S.expire s) ?_
    split at h
    · exact S.respond h
    · cases h; exact S.refl _
  · cases h; exact S.refl s

/-- Such a relation holds across every command but AC_RX_CLAIM and PUMP, which may arbitrate. -/
theorem AllowsSends.exec {i : Instr} (h : exec i s = .next t) (hr : ∀ f, i ≠ .acRxClaim f)
    (hp : i ≠ .pump) : R s t := by
  cases i with
  | frStartFast _ _ _ _ _ => exact S.toLocal.done (fun h => S.sends (startFast_sendsOnly h)) h
  | isoRxRequest f =>
    refine S.toLocal.done (fun h => ?_) h
    obtain ⟨fl, h1, h2⟩ := andThen_eq_next.mp h
    cases h2
    exact S.receiveRequest h1
  | acRxClaim f => exact absurd rfl (hr f)
  | pump => exact absurd rfl hp
  | _ => exact S.toLocal.exec rfl h

end Sends

/-! ### The sequence number (R33, R147) -/

theorem finishSingle_seq {s t : State} (h : finishSingle s = .next t) : t.fr.seq = s.fr.seq := by
  rcases finishSingle_cases h with ⟨-, rfl⟩ | ⟨-, -, rfl⟩ | ⟨-, -, rfl⟩ <;> simp [goIdle]

theorem finishFast_seq {s t : State} (h : finishFast s = .next t) : t.fr.seq = s.fr.seq := by
  rcases finishFast_cases h with ⟨-, rfl⟩ | ⟨-, -, -, rfl⟩ | ⟨-, -, -, rfl⟩ <;> simp [goIdle]

theorem startSingle_seq {s t : State} {pgn prio src dst}
    (h : startSingle pgn prio src dst s = .next t) : t.fr.seq = s.fr.seq := by
  obtain ⟨-, r, -, rfl⟩ := startSingle_eq_next.mp h
  rfl

theorem appendByte_seq {s t : State} {b : Byte} (h : appendByte b s = .next t) :
    t.fr.seq = s.fr.seq := by
  obtain ⟨-, -, hseq, -⟩ := appendByte_fixed h
  exact hseq

theorem startFast_seq {s t : State} {pgn prio src dst total}
    (h : startFast pgn prio src dst total s = .next t) : t.fr.seq = s.fr.seq + 1 := by
  obtain ⟨-, -, r, -, rfl⟩ := startFast_eq_next.mp h
  rfl

theorem seq_allowsLocal : AllowsLocal fun s t => t.fr.seq = s.fr.seq where
  refl _ := rfl
  trans h1 h2 := h2.trans h1
  result _ _ := rfl
  world _ _ _ _ := rfl
  startSingle := startSingle_seq
  append := appendByte_seq
  finishSingle := finishSingle_seq
  finishFast := finishFast_seq
  claim _ := rfl
  expire _ := rfl

theorem receiveClaim_seq {f : Frame} {s t : State} (h : receiveClaim f s = .next t) :
    t.fr.seq = s.fr.seq := by
  obtain rfl | ⟨-, h⟩ := receiveClaim_cases h
  · rfl
  · have claimed {m} (h : claimAddress m = .next t) : t.fr.seq = m.fr.seq :=
      seq_allowsLocal.claimAddress h
    obtain h | ⟨-, h⟩ | ⟨-, h⟩ := arbitrate_cases h <;> simpa using claimed h

/-- Settles O22: FR_START_FAST advances the number, and no elementary change of another command here
touches it. -/
theorem sequenceNumberPersists : Obligations.SequenceNumberPersists := by
  intro i s t h
  cases i with
  | frStartFast _ _ _ _ _ =>
    obtain ⟨m, hm, rfl⟩ := done_eq_next.mp h
    rw [State.setResult_fr, startFast_seq hm]
    exact BitVec.toNat_add s.fr.seq 1
  | acRxClaim f => exact seq_allowsLocal.done receiveClaim_seq h
  | isoRxRequest _ => trivial
  | pump => trivial
  | _ => exact seq_allowsLocal.exec rfl h

/-! ### The NAME across steps (R25, R159) -/

theorem name_allowsSends : AllowsSends fun s t => t.name = s.name where
  refl _ := rfl
  trans h1 h2 := h2.trans h1
  sends := SendsOnly.name
  result _ _ := rfl
  world _ _ _ _ := rfl
  calls _ _ := rfl
  claim _ := rfl
  expire _ := rfl

/-- The NAME `m` differs from `n` at most in bits 39:32, and then holds at most 0x7F there (R25, R154). -/
structure DeviceInstanceOnly (n m : NameWord) : Prop where
  high : m.extractLsb' 40 24 = n.extractLsb' 40 24
  low : m.extractLsb' 0 32 = n.extractLsb' 0 32
  device : m = n ∨ (m.extractLsb' 32 8).toNat ≤ 0x7F

theorem DeviceInstanceOnly.of_eq {n m : NameWord} (h : m = n) : DeviceInstanceOnly n m := by
  subst h; exact ⟨rfl, rfl, .inl rfl⟩

theorem DeviceInstanceOnly.trans {n m k : NameWord} (h1 : DeviceInstanceOnly n m)
    (h2 : DeviceInstanceOnly m k) : DeviceInstanceOnly n k := by
  refine ⟨h2.high.trans h1.high, h2.low.trans h1.low, ?_⟩
  obtain rfl | h := h2.device
  · exact h1.device
  · exact .inr h

theorem withDeviceInstance_device_le (n : NameWord) (t : Millis) :
    ((withDeviceInstance n t).extractLsb' 32 8).toNat ≤ 0x7F := by
  obtain ⟨hd, -, -⟩ := withDeviceInstance_bits n t
  rw [hd, BitVec.toNat_and]
  exact Nat.and_le_right

theorem withDeviceInstance_only (n : NameWord) (t : Millis) :
    DeviceInstanceOnly n (withDeviceInstance n t) := by
  obtain ⟨-, hl, hh⟩ := withDeviceInstance_bits n t
  exact ⟨hh, hl, .inr (withDeviceInstance_device_le n t)⟩

theorem deviceInstanceOnly_allowsSends :
    AllowsSends fun s t => DeviceInstanceOnly s.name t.name where
  refl _ := .of_eq rfl
  trans := .trans
  sends h := .of_eq h.name
  result _ _ := .of_eq rfl
  world _ _ _ _ := .of_eq rfl
  calls _ _ := .of_eq rfl
  claim _ := .of_eq rfl
  expire _ := .of_eq rfl

theorem deviceInstanceOnly_allows : Allows fun s t => DeviceInstanceOnly s.name t.name :=
  deviceInstanceOnly_allowsSends.allows (fun s => withDeviceInstance_only s.name (now s))
    fun _ _ => .of_eq rfl

theorem claimAddress_name {s t : State} (h : claimAddress s = .next t) : t.name = s.name :=
  name_allowsSends.toLocal.claimAddress h

/-- A received claim changes the NAME only in the tie-break (R152 to R157). -/
theorem receiveClaim_name {f : Frame} {s t : State} (h : receiveClaim f s = .next t) :
    t.name = s.name ∨ ((decodeId f.id).src = s.devAddr ∧
      (8 ≤ f.len → leNat (f.data.take 8) = s.name.toNat) ∧
      (t.name.extractLsb' 32 8).toNat ≤ 0x7F) := by
  obtain rfl | ⟨hsrc, h⟩ := receiveClaim_cases h
  · exact .inl rfl
  · obtain h | ⟨-, h⟩ | ⟨heq, h⟩ := arbitrate_cases h
    · exact .inl (by simpa using claimAddress_name h)
    · exact .inl (by simpa using claimAddress_name h)
    · refine .inr ⟨hsrc, fun h8 => ?_, ?_⟩
      · rw [← nameOfBytes_remoteNameBytes h8 s, heq, remoteNameBytes_name]
      · rw [claimAddress_name h]
        exact withDeviceInstance_device_le _ _

/-- A full claim from this device's own address with its NAME is the tie-break (R154). -/
theorem receiveClaim_tie_device_le {f : Frame} {s t : State}
    (hsrc : (decodeId f.id).src = s.devAddr) (hne : s.devAddr ≠ 254) (hlen : f.len = 8)
    (hname : leNat f.data = s.name.toNat) (h : receiveClaim f s = .next t) :
    (t.name.extractLsb' 32 8).toNat ≤ 0x7F := by
  have htie : nameOfBytes (remoteNameBytes f s).1 = s.name := by
    apply BitVec.eq_of_toNat_eq
    rw [nameOfBytes_remoteNameBytes hlen.ge, List.take_of_length_le hlen.le, hname]
  rw [receiveClaim_of_own hsrc (hsrc ▸ hne), arbitrate,
    if_pos (htie.trans (remoteNameBytes_name f s).symm)] at h
  rw [claimAddress_name h]
  exact withDeviceInstance_device_le _ _

/-- Settles O55: only the tie-break writes the NAME, and only bits 39:32 of it. -/
theorem onlyTheDeviceInstanceOfTheNameChanges :
    Obligations.OnlyTheDeviceInstanceOfTheNameChanges := by
  refine ⟨fun s t hs hp h => ?_, fun i s t h => ?_, fun f s t hsrc hne hlen hname h => ?_⟩
  · obtain ⟨hh, hl, hd⟩ := deviceInstanceOnly_allows.step_of_take (fun _ => .of_eq rfl) hs hp h
    exact ⟨hh, hl, hd⟩
  · cases i with
    | pump => trivial
    | acRxClaim f =>
      obtain ⟨m, hm, rfl⟩ := done_eq_next.mp h
      rw [State.setResult_name]
      exact receiveClaim_name hm
    | _ => exact name_allowsSends.exec h (fun _ e => by cases e) (fun e => by cases e)
  · obtain ⟨m, hm, rfl⟩ := done_eq_next.mp h
    rw [State.setResult_name]
    exact receiveClaim_tie_device_le hsrc hne hlen hname hm

/-! ### The configuration and the clock (R39, R44) -/

/-- From `s` to `t` the clock does not go back, and the configuration and the mark of R42 stay. -/
structure ClockForward (s t : State) : Prop where
  clock : s.world.clock ≤ t.world.clock
  cfg : t.cfg = s.cfg
  refused : t.refused = s.refused

theorem SendsOnly.clock {s t : State} (h : SendsOnly s t) : t.world.clock = s.world.clock := by
  rw [h]; rfl

theorem ClockForward.trans {s t u : State} (h1 : ClockForward s t) (h2 : ClockForward t u) :
    ClockForward s u :=
  ⟨h1.clock.trans h2.clock, h2.cfg.trans h1.cfg, h2.refused.trans h1.refused⟩

theorem clockForward_allowsSends : AllowsSends ClockForward where
  refl _ := ⟨le_refl _, rfl, rfl⟩
  trans := .trans
  sends h := ⟨h.clock.ge, h.cfg, h.refused⟩
  result _ _ := ⟨le_refl _, rfl, rfl⟩
  world _ _ _ hw := ⟨hw, rfl, rfl⟩
  calls _ _ := ⟨le_refl _, rfl, rfl⟩
  claim _ := ⟨le_refl _, rfl, rfl⟩
  expire _ := ⟨le_refl _, rfl, rfl⟩

theorem clockForward_allows : Allows ClockForward :=
  clockForward_allowsSends.allows (fun _ => ⟨le_refl _, rfl, rfl⟩) fun _ _ => ⟨le_refl _, rfl, rfl⟩

/-- Settles O57: a power-up leaves the clock, and every elementary change of any other step is allowed. -/
theorem configurationAndClockAcrossSteps : Obligations.ConfigurationAndClockAcrossSteps := by
  intro s t hs h
  obtain ⟨c, -, ⟨items, hp⟩, rfl⟩ | hp := step_powerUp_or_not h
  · exact ⟨le_refl _, fun hn => absurd hp (hn c items)⟩
  · obtain ⟨hclock, hcfg, hrefused⟩ :=
      clockForward_allows.step_of_take (fun _ => ⟨le_refl _, rfl, rfl⟩) hs hp h
    exact ⟨hclock, fun _ => ⟨hcfg, hrefused⟩⟩

end Sys2Proof.Machine

namespace Sys2Proof.Machine

/-! ### Transmission (R55) -/

/-- The send counters after a transmission under an identifier other than 0. -/
theorem transmit_cnt_of_ne_zero {id : CanId} (h : id ≠ 0) (bs : List Byte) (s : State) :
    (transmit id bs s).cnt = if (drawSend s).1 then { s.cnt with tx := s.cnt.tx + 1 }
      else { s.cnt with txFail := s.cnt.txFail + 1 } := by
  rw [transmit_cnt, if_neg h]
  cases (drawSend s).1 <;> rfl

/-- A transmission takes its answer, and nothing more, from the scripted ones. -/
theorem transmit_sendIn_of_scripted {id : CanId} (h : id ≠ 0) (bs : List Byte) {s : State} {a : Bool}
    {rest : List Bool} (hs : s.world.sendIn = a :: rest) :
    (transmit id bs s).world.sendIn = rest := by
  rw [transmit_of_ne_zero s h, drawSend_scripted s hs]
  rfl

/-- Settles O10: the answer `r` is the one that `drawSend` gives. -/
theorem transmitOffersOneFrame : Obligations.TransmitOffersOneFrame := by
  refine fun id bytes s => ⟨fun h => if_pos h, fun h => ⟨(drawSend s).1, ?_, ?_, ?_, ?_, ?_⟩⟩
  · rw [transmit_txLog, if_neg h]
  · exact transmit_cnt_of_ne_zero h bytes s
  · exact transmit_sendsOnly s id bytes
  · exact transmit_fr s id bytes
  · intro a rest hs
    exact ⟨by rw [drawSend_scripted s hs], transmit_sendIn_of_scripted h bytes hs⟩

/-! ### TX_LOG and the send counters across steps (R37, R43, R55, R57) -/

/-- From `s` to `t` the log grew by entries with identifiers other than 0, and each send counter by
those of them that the transport took or refused. -/
def LogGrowth (s t : State) : Prop :=
  ∃ es : List TxEntry, t.txLog = s.txLog ++ es ∧ (∀ e ∈ es, e.id ≠ 0) ∧
    t.cnt.tx = s.cnt.tx + BitVec.ofNat 32 (es.countP fun e => e.ok) ∧
    t.cnt.txFail = s.cnt.txFail + BitVec.ofNat 32 (es.countP fun e => !e.ok)

/-- A change that leaves the log and the send counters. -/
theorem LogGrowth.of_eq {s t : State} (hlog : t.txLog = s.txLog) (htx : t.cnt.tx = s.cnt.tx)
    (hfail : t.cnt.txFail = s.cnt.txFail) : LogGrowth s t :=
  ⟨[], by simpa using hlog, by simp, by simpa using htx, by simpa using hfail⟩

theorem LogGrowth.trans {s t u : State} (h1 : LogGrowth s t) (h2 : LogGrowth t u) :
    LogGrowth s u := by
  obtain ⟨a, hlog1, hid1, htx1, hfail1⟩ := h1
  obtain ⟨b, hlog2, hid2, htx2, hfail2⟩ := h2
  refine ⟨a ++ b, ?_, List.forall_mem_append.mpr ⟨hid1, hid2⟩, ?_, ?_⟩
  · rw [hlog2, hlog1, List.append_assoc]
  · rw [htx2, htx1, List.countP_append, BitVec.ofNat_add, BitVec.add_assoc]
  · rw [hfail2, hfail1, List.countP_append, BitVec.ofNat_add, BitVec.add_assoc]

theorem Offered.logGrowth {s t : State} {es : List TxEntry} (h : Offered s t es)
    (hid : ∀ e ∈ es, e.id ≠ 0) : LogGrowth s t :=
  ⟨es, h.log, hid, by rw [h.cnt]; rfl, by rw [h.cnt]; rfl⟩

/-- A transmission logs its frame under an identifier other than 0, or does nothing (R55). -/
theorem transmit_logGrowth (id : CanId) (bs : List Byte) (s : State) :
    LogGrowth s (transmit id bs s) := by
  by_cases h : id = 0
  · rw [transmit, if_pos h]
    exact .of_eq rfl rfl rfl
  · obtain ⟨es, hlog, ho⟩ := transmit_offered h bs s
    refine ho.logGrowth fun e he => ?_
    obtain ⟨hid, -⟩ := hlog.mem he
    exact hid ▸ h

/-- A change of the packet in progress after a growth of the log. -/
theorem LogGrowth.setFr {s t : State} (h : LogGrowth s t) (f : Framer) : LogGrowth s (t.setFr f) := h

theorem startSingle_logGrowth {s t : State} {pgn prio src dst}
    (h : startSingle pgn prio src dst s = .next t) : LogGrowth s t := by
  obtain ⟨-, r, -, rfl⟩ := startSingle_eq_next.mp h
  exact .of_eq rfl rfl rfl

theorem startFast_logGrowth {s t : State} {pgn prio src dst total}
    (h : startFast pgn prio src dst total s = .next t) : LogGrowth s t := by
  obtain ⟨-, -, r, -, rfl⟩ := startFast_eq_next.mp h
  exact .of_eq rfl rfl rfl

/-- Only the append that fills a fast-packet frame offers one (R124). -/
theorem appendByte_logGrowth {s t : State} {b : Byte} (h : appendByte b s = .next t) :
    LogGrowth s t := by
  rcases appendByte_cases h with ⟨-, -, rfl⟩ | ⟨-, -, rfl⟩ | ⟨-, -, -, rfl⟩ | ⟨-, -, -, rfl⟩
  · exact .of_eq rfl rfl rfl
  · exact .of_eq rfl rfl rfl
  · exact .of_eq rfl rfl rfl
  · have hput : LogGrowth s (fastPut b s) := .of_eq rfl rfl rfl
    exact hput.trans ((transmit_logGrowth _ _ (fastPut b s)).setFr _)

theorem finishSingle_logGrowth {s t : State} (h : finishSingle s = .next t) : LogGrowth s t := by
  rcases finishSingle_cases h with ⟨-, rfl⟩ | ⟨-, -, rfl⟩ | ⟨-, -, rfl⟩
  · exact .of_eq rfl rfl rfl
  · exact .of_eq rfl rfl rfl
  · exact (transmit_logGrowth _ _ s).setFr _

theorem finishFast_logGrowth {s t : State} (h : finishFast s = .next t) : LogGrowth s t := by
  rcases finishFast_cases h with ⟨-, rfl⟩ | ⟨-, -, -, rfl⟩ | ⟨-, -, -, rfl⟩
  · exact .of_eq rfl rfl rfl
  · exact .of_eq rfl rfl rfl
  · exact (transmit_logGrowth _ _ s).setFr _

theorem logGrowth_allowsLocal : AllowsLocal LogGrowth where
  refl _ := .of_eq rfl rfl rfl
  trans := .trans
  result _ _ := .of_eq rfl rfl rfl
  world _ _ _ _ := .of_eq rfl rfl rfl
  startSingle := startSingle_logGrowth
  append := appendByte_logGrowth
  finishSingle := finishSingle_logGrowth
  finishFast := finishFast_logGrowth
  claim _ := .of_eq rfl rfl rfl
  expire _ := .of_eq rfl rfl rfl

/-- The changes that no local command makes leave the log and the send counters. -/
theorem logGrowth_allows : Allows LogGrowth where
  refl := logGrowth_allowsLocal.refl
  trans := .trans
  result := logGrowth_allowsLocal.result
  world := logGrowth_allowsLocal.world
  startSingle := startSingle_logGrowth
  startFast := startFast_logGrowth
  append := appendByte_logGrowth
  finishSingle := finishSingle_logGrowth
  finishFast := finishFast_logGrowth
  countRx _ := .of_eq rfl rfl rfl
  countDrop _ := .of_eq rfl rfl rfl
  claimAddress := logGrowth_allowsLocal.claimAddress
  expire := logGrowth_allowsLocal.expire
  tieBreak _ := .of_eq rfl rfl rfl
  yield _ _ := .of_eq rfl rfl rfl
  call _ _ _ := .of_eq rfl rfl rfl
  ret _ _ _ _ := .of_eq rfl rfl rfl

/-- Settles O56: every elementary change of a step that is no power-up makes the log grow as the send
counters say, and so does the taking of the host's item. -/
theorem txLogGrowsAndTheSendCountersMatchIt : Obligations.TxLogGrowsAndTheSendCountersMatchIt :=
  fun _ _ hs hp h => logGrowth_allows.step_of_take (fun _ => .of_eq rfl rfl rfl) hs hp h

end Sys2Proof.Machine

namespace Sys2Proof

/-! ### Operand fields written and read back (R64, R68) -/

/-- The fields of a numeric command are read back. -/
theorem withValuePrec_numBytes {α : Type} (value prec : NumOperand) (rest : List Byte)
    (mk : NumOperand → NumOperand → α) :
    withValuePrec (numBytes value ++ (numBytes prec ++ rest)) mk = .ok (mk value prec) := by
  rw [withValuePrec, withNum_numBytes, withNum_numBytes]

/-- The fields of a numeric decode command are read back. -/
theorem withVector_withNum_numBytes {α : Type} {n : Nat} (raw : Vector Byte n) (prec : NumOperand)
    (rest : List Byte) (mk : Vector Byte n → NumOperand → α) :
    (withVector n (raw.toList ++ (numBytes prec ++ rest)) fun v r =>
      withNum r fun p _ => .ok (mk v p)) = .ok (mk raw prec) := by
  rw [withVector_toList, withNum_numBytes]

/-- The operand fields of every well-formed command are read back under its code, whatever bytes
follow: one case per row of R64, each by the rule of its fields. -/
theorem decodeOperands_operandBytes {i : Instr} (h : i.wellFormed = true) (rest : List Byte) :
    decodeOperands (opcode i) (operandBytes i ++ rest) = .ok i := by
  cases i <;>
    simp only [opcode, operandBytes, decodeOperands, BitVec.reduceToNat, List.append_assoc]
  case idPgnof id | idDecode id => exact withBits_leBytes (by norm_num) id rest _
  case idEncode pgn prio src dst | frStart pgn prio src dst =>
    exact withHeader_headerBytes pgn prio src dst rest _
  case numEncU16 value prec | numEncS16 value prec | numEncU24 value prec
      | numEncS24 value prec | numEncU32 value prec | numEncS32 value prec
      | frOutNumU16 value prec | frOutNumS16 value prec | frOutNumU24 value prec
      | frOutNumS24 value prec | frOutNumU32 value prec | frOutNumS32 value prec =>
    exact withValuePrec_numBytes value prec rest _
  case numDecU16 raw prec | numDecS16 raw prec | numDecU24 raw prec | numDecS24 raw prec
      | numDecU32 raw prec | numDecS32 raw prec =>
    exact withVector_withNum_numBytes raw prec rest _
  case frStartFast pgn prio src dst total =>
    rw [withHeader_headerBytes, withBits_leBytes (by norm_num)]
  case frOutByte v | frOutRaw16 v | frOutRaw24 v | frOutRaw32 v =>
    exact withBits_leBytes (by norm_num) v rest _
  case frOutFixstr str maxLen pad =>
    rw [withString_stringBytes h, withBits_leBytes (by norm_num), withBits_leBytes (by norm_num)]
  case frOutVarstr str => exact withString_stringBytes h rest _
  case acRxClaim frame | isoRxRequest frame | isoRxAck frame => exact withFrame_frameBytes h rest _
  case engOpen bitrate clockConfig =>
    rw [withNat_natBytes, withNat_natBytes]

/-- Settles O58: the code byte selects the reader of the fields that follow it (R63). -/
theorem decodeOfEncode : Obligations.DecodeOfEncode :=
  fun _ rest h => decodeOperands_operandBytes h rest

/-! ### What the decoder accepts (R67, R68, R82) -/

/-- Whatever a reader accepts satisfies `P`. -/
def Yields {α : Type} (P : α → Prop) (d : Decoded α) : Prop := ∀ a, d = .ok a → P a

namespace Yields

variable {α : Type} {P : α → Prop} {bs : List Byte}

theorem ok {a : α} (h : P a) : Yields P (.ok a) := fun _ e => Except.ok.inj e ▸ h

theorem error (e : DecodeError) : Yields P (.error e) := nofun

theorem withBits {w k : Nat} {f : BitVec w → List Byte → Decoded α}
    (h : ∀ v r, Yields P (f v r)) : Yields P (withBits w k bs f) := by
  rw [Sys2Proof.withBits]
  split_ifs
  · exact error _
  · exact h _ _
  · exact error _

theorem withVector {n : Nat} {f : Vector Byte n → List Byte → Decoded α}
    (h : ∀ v r, Yields P (f v r)) : Yields P (withVector n bs f) := by
  rw [Sys2Proof.withVector]
  split_ifs
  · exact h _ _
  · exact error _

theorem withNat {f : Nat → List Byte → Decoded α} (h : ∀ n r, Yields P (f n r)) :
    Yields P (withNat bs f) := by
  rw [Sys2Proof.withNat]
  split
  · exact h _ _
  · exact error _

theorem withNum {f : NumOperand → List Byte → Decoded α} (h : ∀ v r, Yields P (f v r)) :
    Yields P (withNum bs f) := by
  cases bs with
  | nil => exact error _
  | cons tag rest =>
    rw [Sys2Proof.withNum]
    split_ifs
    · exact withNat fun _ _ => withNat fun _ _ => h _ _
    · exact withNat fun _ _ => withNat fun _ _ => h _ _
    · exact h _ _
    · exact h _ _
    · exact error _

/-- The length byte bounds a string. -/
theorem withString {f : List Byte → List Byte → Decoded α}
    (h : ∀ str r, stringWellFormed str = true → Yields P (f str r)) :
    Yields P (withString bs f) := by
  cases bs with
  | nil => exact error _
  | cons len rest =>
    rw [Sys2Proof.withString]
    split_ifs
    · exact error _
    · have hlen : (rest.take len.toNat).length ≤ 255 :=
        (List.length_take_le _ _).trans (Nat.le_of_lt_succ len.isLt)
      exact h _ _ (decide_eq_true hlen)

/-- The check on the length byte bounds a frame's data. -/
theorem withFrame {f : Frame → List Byte → Decoded α}
    (h : ∀ frame r, frame.wellFormed = true → Yields P (f frame r)) :
    Yields P (withFrame bs f) := by
  refine withBits fun id r => ?_
  cases r with
  | nil => exact error _
  | cons len rest =>
    dsimp only
    split_ifs with h8
    · exact error _
    · exact error _
    · exact h _ _ (decide_eq_true ((List.length_take_le _ _).trans (not_lt.mp h8)))

theorem withHeader {f : Pgn24 → Prio → Addr → Addr → List Byte → Decoded α}
    (h : ∀ pgn prio src dst r, Yields P (f pgn prio src dst r)) : Yields P (withHeader bs f) :=
  withBits fun _ _ => withBits fun _ _ => withBits fun _ _ => withBits fun _ _ => h _ _ _ _ _

theorem withValuePrec {mk : NumOperand → NumOperand → α} (h : ∀ value prec, P (mk value prec)) :
    Yields P (withValuePrec bs mk) :=
  withNum fun _ _ => withNum fun _ _ => ok (h _ _)

end Yields

/-- Every reader of operand fields yields well-formed commands only: the strings and frames by their
length bytes, every other field by its type. Cases 1 to 39 are the rows of R64 in its order, case 40
the illegal codes. -/
theorem decodeOperands_yields_wellFormed (code : Byte) (bs : List Byte) :
    Yields (fun i => i.wellFormed = true) (decodeOperands code bs) := by
  fun_cases decodeOperands code bs
  case case1 | case2 | case18 | case19 | case20 | case21 => exact .withBits fun _ _ => .ok rfl
  case case3 | case16 => exact .withHeader fun _ _ _ _ _ => .ok rfl
  case case17 => exact .withHeader fun _ _ _ _ _ => .withBits fun _ _ => .ok rfl
  case case4 | case5 | case6 | case7 | case8 | case9
      | case24 | case25 | case26 | case27 | case28 | case29 =>
    exact .withValuePrec fun _ _ => rfl
  case case10 | case11 | case12 | case13 | case14 | case15 =>
    exact .withVector fun _ _ => .withNum fun _ _ => .ok rfl
  case case22 =>
    exact .withString fun _ _ h => .withBits fun _ _ => .withBits fun _ _ => .ok h
  case case23 => exact .withString fun _ _ h => .ok h
  case case30 | case31 | case32 | case33 | case37 | case38 => exact .ok rfl
  case case34 | case35 | case36 => exact .withFrame fun _ _ h => .ok h
  case case39 => exact .withNat fun _ _ => .withNat fun _ _ => .ok rfl
  case case40 => exact .error _

/-- Settles O59: the bytes after the code byte are read by the fields' readers. -/
theorem decodedCommandsAreWellFormed : Obligations.DecodedCommandsAreWellFormed := by
  intro bytes i h
  cases bytes with
  | nil => cases h
  | cons code bs => exact decodeOperands_yields_wellFormed code bs i h

/-- A code that R64 does not list has no operand fields, whatever follows it. -/
theorem decodeOperands_of_not_legal {code : Byte}
    (h : code.toNat ∉ Laws.OpcodeFirst.legalCodes.map BitVec.toNat) (bs : List Byte) :
    decodeOperands code bs = .error (.illegalCommand code) := by
  fun_cases decodeOperands code bs
  case case40 => rfl
  all_goals next hc => exact absurd (by rw [hc]; decide) h

/-- Settles O60 by evaluating each word; the precision 1/10 of the third is a quotient of rationals,
which only the kernel evaluates. -/
theorem tableCodesDecode : Obligations.TableCodesDecode :=
  ⟨by decide, by decide, by decide +kernel, by decide, by decide, by decide, by decide, by decide,
    by decide⟩

end Sys2Proof

namespace Sys2Proof.Machine

/-! ### A command on the port (R63, R67, R69) -/

section Command

variable {s : State} {time : Option Millis} {bytes : List Byte}

theorem runCommand_of_decode_ok (hr : s.refused = false) {i : Instr} (hd : decode bytes = .ok i) :
    runCommand time bytes s = exec i (sampleClock time s) := by
  rw [runCommand, hr, if_neg Bool.false_ne_true, hd]

theorem runCommand_of_decode_error (hr : s.refused = false) {e : DecodeError}
    (hd : decode bytes = .error e) : runCommand time bytes s = .refused (refusalOf e) := by
  rw [runCommand, hr, if_neg Bool.false_ne_true, hd]

end Command

/-- Settles O47: the state with the item taken is the one that the clock sample starts from. -/
theorem stepRunsTheDecodedCommand : Obligations.StepRunsTheDecodedCommand := by
  refine fun s time bytes items i => ⟨fun hr hp hd => ⟨?_, ?_⟩, step_of_port_nil⟩
  · rw [step_of_command hp, runCommand_of_decode_ok (s := takeItem s) hr hd, takeItem, hp,
      List.tail_cons]
  · rintro t rfl
    exact now_sampleClock_some _ t

/-- Settles O48: the listed numbers are the codes of R64, and the decoder names any other code. -/
theorem illegalCodesAreRefused : Obligations.IllegalCodesAreRefused := by
  intro s time code bytes items hr hp hcode
  have hd : decode (code :: bytes) = .error (.illegalCommand code) :=
    decodeOperands_of_not_legal hcode bytes
  exact (step_of_command hp).trans (runCommand_of_decode_error (s := takeItem s) hr hd)

end Sys2Proof.Machine

namespace Sys2Proof.Machine

/-! ### The commands of the identifier codec (R89 to R95) -/

theorem exec_idPgnof (id : CanId) (s : State) :
    exec (.idPgnof id) s = .next (s.setResult (.pgn (pgnOf id))) := rfl

theorem exec_idDecode (id : CanId) (s : State) :
    exec (.idDecode id) s = .next (s.setResult (.header (decodeId id))) := rfl

theorem exec_idEncode (pgn : Pgn24) (prio : Prio) (src dst : Addr) (s : State) :
    exec (.idEncode pgn prio src dst) s =
      withValue (encodeId pgn prio src dst) fun r => .next (s.setResult (.ident r.1 r.2)) := rfl

/-- ID_ENCODE answers `id` and `encFail` exactly when `Encode` gives them (R92). -/
theorem exec_idEncode_eq_next {pgn : Pgn24} {prio : Prio} {src dst : Addr} {s : State} {id : CanId}
    {encFail : Bool} :
    exec (.idEncode pgn prio src dst) s = .next (s.setResult (.ident id encFail)) ↔
      encodeId pgn prio src dst = .ok (id, encFail) := by
  rw [exec_idEncode, withValue_eq_next]
  constructor
  · rintro ⟨⟨i, b⟩, he, h⟩
    have hr : Result.ident i b = .ident id encFail :=
      congrArg State.result (Host.Outcome.next.inj h)
    cases hr
    exact he
  · exact fun he => ⟨_, he, rfl⟩

/-- `Encode` fails exactly on the PDU1 PGNs with a non-zero low byte, with identifier 0 (R92). -/
theorem encodeId_eq_ok_true {pgn : Pgn24} {prio : Prio} {src dst : Addr} {id : CanId} :
    encodeId pgn prio src dst = .ok (id, true) ↔
      pgn.toNat < 2 ^ 17 ∧ (pgn.toNat / 2 ^ 8 % 256 < 240 ∧ pgn.toNat % 256 ≠ 0) ∧ id = 0 := by
  rw [encodeId_eq_ok, ← encFails_iff]
  split <;> simp [*]

/-- `Encode` packs exactly the PGNs below 2^17 that have a zero low byte if in PDU1 (R89, R92). -/
theorem encodeId_eq_ok_false {pgn : Pgn24} {prio : Prio} {src dst : Addr} {id : CanId} :
    encodeId pgn prio src dst = .ok (id, false) ↔
      pgn.toNat < 2 ^ 17 ∧ (pgn.toNat / 2 ^ 8 % 256 < 240 → pgn.toNat % 256 = 0) ∧
        id = packId pgn prio src dst := by
  rw [encodeId_eq_ok, ← not_and_not_right, ← ne_eq, ← encFails_iff]
  split <;> simp [*]

/-- Settles O1: the result is `PgnOf` of R90, as a number. -/
theorem idPgnofGivesThePgn : Obligations.IdPgnofGivesThePgn :=
  fun id s => ⟨pgnOf id, exec_idPgnof id s, pgnOf_toNat id⟩

/-- Settles O2: the result is `Decode` of R91, each field as a number. -/
theorem idDecodeGivesTheFields : Obligations.IdDecodeGivesTheFields :=
  fun id s => ⟨decodeId id, exec_idDecode id s, pgnOf_toNat id, decodeId_toNat id⟩

/-- Settles O3: the refusal, the failed encoding and the packed identifier of R92. -/
theorem idEncodeBuildsTheIdentifier : Obligations.IdEncodeBuildsTheIdentifier := by
  refine fun pgn prio src dst s => ⟨fun hwide => ?_, fun hpgn => ?_⟩
  · rw [exec_idEncode, encodeId, if_pos hwide, withValue_error]
  · by_cases hfail : pgn.toNat / 2 ^ 8 % 256 < 240 ∧ pgn.toNat % 256 ≠ 0
    · refine ⟨0, true, exec_idEncode_eq_next.mpr (encodeId_eq_ok_true.mpr ⟨hpgn, hfail, rfl⟩), ?_⟩
      rw [if_pos hfail]
      exact ⟨rfl, rfl⟩
    · have hlow := not_and_not_right.mp hfail
      refine ⟨_, false, exec_idEncode_eq_next.mpr (encodeId_eq_ok_false.mpr ⟨hpgn, hlow, rfl⟩), ?_⟩
      rw [if_neg hfail]
      exact ⟨rfl, packId_toNat pgn prio src dst hpgn hlow⟩

/-! ### Fields to identifier and back (R94) -/

section Packed

variable {pgn : Pgn24} (prio : Prio) (src dst : Addr) (hpgn : pgn.toNat < 2 ^ 17)
  (hlow : pgn.toNat / 2 ^ 8 % 256 < 240 → pgn.toNat % 256 = 0)

include hpgn hlow

/-- The PDU format of a packed identifier is the PGN's, so both are of one family. -/
theorem packId_pf :
    (packId pgn prio src dst).toNat / 2 ^ 16 % 256 = pgn.toNat / 2 ^ 8 % 256 := by
  have hid := packId_toNat pgn prio src dst hpgn hlow
  split at hid <;> omega

/-- Decoding a packed identifier gives its fields back, the destination in PDU1 only. -/
theorem decodeId_packId :
    (decodeId (packId pgn prio src dst)).pgn.toNat = pgn.toNat ∧
    (decodeId (packId pgn prio src dst)).prio = prio ∧
    (decodeId (packId pgn prio src dst)).src = src ∧
    (decodeId (packId pgn prio src dst)).dst =
      if pgn.toNat / 2 ^ 8 % 256 < 240 then dst else 0xFF := by
  have hid := packId_toNat pgn prio src dst hpgn hlow
  have hpf := packId_pf prio src dst hpgn hlow
  have hp : (decodeId (packId pgn prio src dst)).pgn.toNat = _ := pgnOf_toNat _
  obtain ⟨hprio, hsrc, hdst⟩ := decodeId_toNat (packId pgn prio src dst)
  rw [hpf] at hp hdst
  by_cases hpdu1 : pgn.toNat / 2 ^ 8 % 256 < 240
  · have hz := hlow hpdu1
    rw [if_pos hpdu1] at hid hp hdst ⊢
    exact ⟨by omega, BitVec.eq_of_toNat_eq (by omega), BitVec.eq_of_toNat_eq (by omega),
      BitVec.eq_of_toNat_eq (by omega)⟩
  · rw [if_neg hpdu1] at hid hp hdst ⊢
    exact ⟨by omega, BitVec.eq_of_toNat_eq (by omega), BitVec.eq_of_toNat_eq (by omega),
      BitVec.eq_of_toNat_eq hdst⟩

end Packed

/-- Settles O4: an identifier without a failure is a packed one. -/
theorem fieldsSurviveTheIdentifier : Obligations.FieldsSurviveTheIdentifier := by
  intro pgn prio src dst s id h
  obtain ⟨hpgn, hlow, rfl⟩ := encodeId_eq_ok_false.mp (exec_idEncode_eq_next.mp h)
  exact ⟨_, exec_idDecode _ s, decodeId_packId prio src dst hpgn hlow⟩

/-! ### Identifier to fields and back (R95) -/

theorem getLsbD_clearBit {w : Nat} (x : BitVec w) (n i : Nat) :
    (x &&& ~~~((1 : BitVec w) <<< n)).getLsbD i = (x.getLsbD i && decide (i ≠ n)) := by
  have hbit : ((1 : BitVec w) <<< n).getLsbD i = (decide (n < w) && decide (n = i)) :=
    BitVec.getLsbD_twoPow n i
  rw [BitVec.getLsbD_and, BitVec.getLsbD_not, hbit]
  by_cases hi : i < w
  · obtain rfl | hin := eq_or_ne i n
    · simp [hi]
    · simp [hi, hin, hin.symm]
  · simp [BitVec.getLsbD_of_ge x i (not_lt.mp hi)]

/-- Clearing a bit changes nothing exactly when the bit is 0. -/
theorem clearBit_eq_self_iff {w : Nat} (x : BitVec w) (n : Nat) :
    x &&& ~~~((1 : BitVec w) <<< n) = x ↔ x.getLsbD n = false := by
  constructor
  · intro h
    rw [← h, getLsbD_clearBit]
    simp
  · intro h
    refine BitVec.eq_of_getLsbD_eq fun i _ => ?_
    rw [getLsbD_clearBit]
    obtain rfl | hin := eq_or_ne i n
    · simp [h]
    · simp [hin]

/-- An identifier with bit 25 cleared as a number. -/
theorem clearBit25_toNat (id : CanId) :
    (id &&& ~~~((1 : CanId) <<< 25)).toNat =
      2 ^ 26 * (id.toNat / 2 ^ 26) + id.toNat % 2 ^ 25 := by
  have hlow : id.toNat % 2 ^ 25 < 2 ^ 26 := by omega
  refine Nat.eq_of_testBit_eq fun i => ?_
  rw [BitVec.testBit_toNat, getLsbD_clearBit, Nat.testBit_two_pow_mul_add _ hlow,
    Nat.testBit_mod_two_pow, Nat.testBit_div_two_pow, BitVec.testBit_toNat]
  split
  · rw [Bool.and_comm, decide_eq_decide.mpr (show i ≠ 25 ↔ i < 25 by omega)]
  · rw [decide_eq_true (show i ≠ 25 by omega), Bool.and_true, Nat.sub_add_cancel (by omega),
      BitVec.testBit_toNat]

/-- The PDU format of an identifier's PGN is the identifier's. -/
theorem pgnOf_pf (id : CanId) : (pgnOf id).toNat / 2 ^ 8 % 256 = id.toNat / 2 ^ 16 % 256 := by
  have hp := pgnOf_toNat id
  split at hp <;> omega

/-- The PGN of an identifier has a zero low byte in PDU1 (R90), so it encodes. -/
theorem pgnOf_low {id : CanId} (h : (pgnOf id).toNat / 2 ^ 8 % 256 < 240) :
    (pgnOf id).toNat % 256 = 0 := by
  rw [pgnOf_pf] at h
  have hp := pgnOf_toNat id
  rw [if_pos h] at hp
  omega

/-- The fields of an identifier encode, to the identifier with bit 25 cleared. -/
theorem encodeId_decodeId (id : CanId) :
    encodeId ((decodeId id).pgn.setWidth 24) (decodeId id).prio (decodeId id).src
      (decodeId id).dst = .ok (id &&& ~~~((1 : CanId) <<< 25), false) := by
  have hw : ((decodeId id).pgn.setWidth 24).toNat = (pgnOf id).toNat :=
    BitVec.toNat_setWidth_of_le (by decide)
  have hlt : ((decodeId id).pgn.setWidth 24).toNat < 2 ^ 17 := hw ▸ (pgnOf id).isLt
  have hlow : ((decodeId id).pgn.setWidth 24).toNat / 2 ^ 8 % 256 < 240 →
      ((decodeId id).pgn.setWidth 24).toNat % 256 = 0 := hw ▸ pgnOf_low
  refine encodeId_eq_ok_false.mpr ⟨hlt, hlow, BitVec.eq_of_toNat_eq ?_⟩
  obtain ⟨hprio, hsrc, hdst⟩ := decodeId_toNat id
  rw [clearBit25_toNat, packId_toNat _ _ _ _ hlt hlow, hw, pgnOf_pf, pgnOf_toNat, hprio, hsrc, hdst]
  split <;> omega

/-- Settles O5: the fields of an identifier hold each of its bits but bit 25, and they encode. -/
theorem identifiersSurviveTheirFields : Obligations.IdentifiersSurviveTheirFields :=
  fun id s => ⟨decodeId id, exec_idDecode id s, exec_idEncode_eq_next.mpr (encodeId_decodeId id),
    clearBit_eq_self_iff id 25⟩

end Sys2Proof.Machine

namespace Sys2Proof.Machine

/-- Settles O6: the two laws that R99 puts on ROUND. -/
theorem roundIsWithinHalf : Obligations.RoundIsWithinHalf :=
  ⟨roundRat_near, roundRat_intCast⟩

/-! ### Encoding (R100 to R110) -/

theorem kindLo_lt_kindNaRaw (k : NumKind) : kindLo k < kindNaRaw k := by cases k <;> decide

section Encode

variable {k : NumKind} {value prec : NumOperand} {c : Config}

theorem encodeNum_of_eq_naValue (hv : numValue c value = c.naValue) :
    encodeNum k value prec c = .ok (naPattern k) := by
  rw [encodeNum, if_pos hv, naPattern_eq]

theorem encodeNum_of_prec_nonpos (hv : numValue c value ≠ c.naValue) (hp : numValue c prec ≤ 0) :
    encodeNum k value prec c = .error .badPrecision := by
  rw [encodeNum, if_neg hv, if_pos hp]

theorem encodeNum_of_lt_lo (hv : numValue c value ≠ c.naValue) (hp : 0 < numValue c prec)
    (hlow : roundRat (numValue c value / numValue c prec) < kindLo k) :
    encodeNum k value prec c = .error .belowRange := by
  have hna := not_le.mpr (hlow.trans (kindLo_lt_kindNaRaw k))
  rw [encodeNum_pos hv hp, if_neg hna, if_pos hlow]

/-- From `LO` up, the rounded quotient is clamped from above and encoded (R101). -/
theorem encodeNum_of_lo_le (hv : numValue c value ≠ c.naValue) (hp : 0 < numValue c prec)
    (hlow : kindLo k ≤ roundRat (numValue c value / numValue c prec)) :
    encodeNum k value prec c =
      .ok (rawBytes k (if kindNaRaw k ≤ roundRat (numValue c value / numValue c prec) then
        kindNaRaw k - 1 else roundRat (numValue c value / numValue c prec))) := by
  rw [encodeNum_pos hv hp, if_neg (not_lt.mpr hlow)]
  split <;> rfl

end Encode

/-- An encode command completes with the bytes that EncodeNum gives. -/
theorem exec_numEncInstr_of_ok {k : NumKind} {value prec : NumOperand} {s : State}
    {bytes : List Byte} (h : encodeNum k value prec s.cfg = .ok bytes) :
    exec (numEncInstr k value prec) s = .next (s.setResult (.raw bytes)) := by
  rw [exec_numEncInstr, encodeCommand, h, withValue_ok, answer]

/-- An encode command refuses for the reason that EncodeNum gives. -/
theorem exec_numEncInstr_of_error {k : NumKind} {value prec : NumOperand} {s : State}
    {e : Refusal} (h : encodeNum k value prec s.cfg = .error e) :
    exec (numEncInstr k value prec) s = .refused e := by
  rw [exec_numEncInstr, encodeCommand, h, withValue_error]

/-- Settles O7: the paths of EncodeNum, and the bytes of the clamped quotient as a number. -/
theorem numEncodeCommands : Obligations.NumEncodeCommands := by
  intro k value prec s
  rw [fieldRow_width, fieldRow_lo, fieldRow_naRaw]
  exact ⟨fun hv => exec_numEncInstr_of_ok (encodeNum_of_eq_naValue hv),
    fun hv hp => exec_numEncInstr_of_error (encodeNum_of_prec_nonpos hv hp),
    fun hv hp hlow => exec_numEncInstr_of_error (encodeNum_of_lt_lo hv hp hlow),
    fun hv hp hlow => ⟨_, exec_numEncInstr_of_ok (encodeNum_of_lo_le hv hp hlow),
      rawBytes_length k _, leNat_rawBytes k _⟩⟩

/-! ### Decoding (R104, R111 to R116) -/

section Decode

variable {k : NumKind} {bytes : List Byte} {prec : NumOperand} {c : Config}

theorem decodeNum_of_eq_naRaw (hu : (leNat bytes : Int) = kindNaRaw k) :
    decodeNum k bytes prec c = .ok c.naValue := by
  rw [decodeNum, if_pos hu]

theorem decodeNum_of_prec_nonpos (hu : (leNat bytes : Int) ≠ kindNaRaw k)
    (hp : numValue c prec ≤ 0) : decodeNum k bytes prec c = .error .badPrecision := by
  rw [decodeNum, if_neg hu, if_pos hp]

theorem decodeNum_of_ne_naRaw (hu : (leNat bytes : Int) ≠ kindNaRaw k)
    (hp : 0 < numValue c prec) :
    decodeNum k bytes prec c = .ok (fieldValue k bytes * numValue c prec) := by
  rw [decodeNum, if_neg hu, if_neg (not_le.mpr hp)]

end Decode

/-- The sign of a field by the lowest value of its kind: a signed kind has a negative `LO`, and its top
bit is set from `-LO` up. -/
theorem fieldValue_eq (k : NumKind) (bytes : List Byte) :
    fieldValue k bytes =
      if kindLo k < 0 ∧ -kindLo k ≤ leNat bytes then (leNat bytes : Int) - 2 ^ (8 * kindWidth k)
      else leNat bytes := by
  have hsign : (kindSigned k && decide (2 ^ (8 * kindWidth k - 1) ≤ leNat bytes)) = true ↔
      kindLo k < 0 ∧ -kindLo k ≤ leNat bytes := by
    cases hs : kindSigned k with
    | false => simp [kindLo, hs]
    | true =>
      rw [Bool.true_and, decide_eq_true_eq, kindLo, if_pos hs, neg_lt_zero, neg_neg,
        and_iff_right (by positivity)]
      exact_mod_cast Iff.rfl
  rw [fieldValue, if_congr hsign rfl rfl]

/-- A decode command completes with the value that DecodeNum gives. -/
theorem exec_numDecInstr_of_ok {k : NumKind} {raw : Vector Byte (kindWidth k)} {prec : NumOperand}
    {s : State} {q : Rat} (h : decodeNum k raw.toList prec s.cfg = .ok q) :
    exec (numDecInstr k raw prec) s = .next (s.setResult (.value q)) := by
  rw [exec_numDecInstr, decodeCommand, h, withValue_ok, answer]

/-- A decode command refuses for the reason that DecodeNum gives. -/
theorem exec_numDecInstr_of_error {k : NumKind} {raw : Vector Byte (kindWidth k)}
    {prec : NumOperand} {s : State} {e : Refusal}
    (h : decodeNum k raw.toList prec s.cfg = .error e) :
    exec (numDecInstr k raw prec) s = .refused e := by
  rw [exec_numDecInstr, decodeCommand, h, withValue_error]

/-- Settles O8: the paths of DecodeNum, and the field's number by the sign of its kind. -/
theorem numDecodeCommands : Obligations.NumDecodeCommands := by
  intro k raw prec s
  dsimp only
  rw [fieldRow_width, fieldRow_lo, fieldRow_naRaw, ← fieldValue_eq]
  exact ⟨fun hu => exec_numDecInstr_of_ok (decodeNum_of_eq_naRaw hu),
    fun hu hp => exec_numDecInstr_of_error (decodeNum_of_prec_nonpos hu hp),
    fun hu hp => exec_numDecInstr_of_ok (decodeNum_of_ne_naRaw hu hp)⟩

/-! ### Encoding, then decoding (R117) -/

/-- The `NA_RAW` bytes have no sign to take off: their top bit is clear in a signed kind (R97). -/
theorem fieldValue_of_eq_naRaw {k : NumKind} {bytes : List Byte}
    (hu : (leNat bytes : Int) = kindNaRaw k) : fieldValue k bytes = kindNaRaw k := by
  have hsign : ¬(kindLo k < 0 ∧ -kindLo k ≤ kindNaRaw k) := by cases k <;> decide
  rw [fieldValue_eq, hu, if_neg hsign]

/-- No raw value of a kind's range but `NA_RAW` itself is written as the `NA_RAW` bytes. -/
theorem leNat_rawBytes_ne_naRaw {k : NumKind} {n : Int} (hlow : kindLo k ≤ n)
    (hna : n < kindNaRaw k) : (leNat (rawBytes k n) : Int) ≠ kindNaRaw k := by
  intro hu
  have hn : n = kindNaRaw k := (fieldValue_rawBytes k n hlow hna.le).symm.trans
    (fieldValue_of_eq_naRaw hu)
  exact hna.ne hn

/-- A raw value of its kind's range below `NA_RAW` is decoded to itself times the precision. -/
theorem decodeNum_rawBytes {k : NumKind} {n : Int} {prec : NumOperand} {c : Config}
    (hp : 0 < numValue c prec) (hlow : kindLo k ≤ n) (hna : n < kindNaRaw k) :
    decodeNum k (rawBytes k n) prec c = .ok (n * numValue c prec) := by
  rw [decodeNum_of_ne_naRaw (leNat_rawBytes_ne_naRaw hlow hna) hp,
    fieldValue_rawBytes k n hlow hna.le]

/-- A rounded quotient times the precision differs from the value by at most half a precision. -/
theorem roundRat_div_mul_near {v p : Rat} (hp : 0 < p) :
    |(roundRat (v / p) : Rat) * p - v| ≤ p / 2 := by
  have hfactor : (roundRat (v / p) : Rat) * p - v = (roundRat (v / p) - v / p) * p := by
    rw [sub_mul, div_mul_cancel₀ v hp.ne']
  calc |(roundRat (v / p) : Rat) * p - v|
      = |(roundRat (v / p) : Rat) - v / p| * p := by rw [hfactor, abs_mul, abs_of_pos hp]
    _ ≤ 1 / 2 * p := mul_le_mul_of_nonneg_right (roundRat_near _) hp.le
    _ = p / 2 := one_div_mul_eq_div 2 p

/-- Settles O9: the encoded raw value, clamped or not, lies below `NA_RAW` and is decoded back. -/
theorem numericRoundTrip : Obligations.NumericRoundTrip := by
  intro k v p c hp hv
  rw [fieldRow_lo, fieldRow_naRaw]
  have hlo := kindLo_lt_kindNaRaw k
  have henc : kindLo k ≤ roundRat (v / p) → encodeNum k (.rat v) (.rat p) c =
      .ok (rawBytes k (if kindNaRaw k ≤ roundRat (v / p) then kindNaRaw k - 1
        else roundRat (v / p))) :=
    encodeNum_of_lo_le (value := .rat v) (prec := .rat p) hv hp
  refine ⟨fun hlow hmax => ⟨rawBytes k (roundRat (v / p)), ?_,
      decodeNum_rawBytes hp hlow (by omega), roundRat_div_mul_near hp⟩,
    fun hmax => ⟨rawBytes k (kindNaRaw k - 1), ?_, decodeNum_rawBytes hp (by omega) (by omega)⟩⟩
  · rw [henc hlow, if_neg (by omega)]
  · rw [henc (by omega), if_pos (by omega)]

end Sys2Proof.Machine

namespace Sys2Proof.Machine

/-! ### Sequencing (R69, R191) -/

theorem andThen_next_right {σ : Type} (r : Host.Outcome σ Fault Refusal) :
    andThen r .next = r := by
  cases r <;> rfl

/-- Two operations in sequence are equal when they are equal after every completion of the first. -/
theorem andThen_congr {σ τ : Type} {r : Host.Outcome σ Fault Refusal}
    {f g : σ → Host.Outcome τ Fault Refusal} (h : ∀ s, r = .next s → f s = g s) :
    andThen r f = andThen r g := by
  cases r with
  | next s => exact h s rfl
  | fault e => rfl
  | refused e => rfl

/-- The end of a command overwrites what the result port held. -/
theorem done_andThen_answer (r : Out) (v : Result) : done (andThen r (answer v)) = done r := by
  cases r <;> rfl

theorem andThen_done (r : Out) (f : State → Out) :
    andThen (done r) f = andThen r fun s => f (s.setResult .none) := by
  cases r <;> rfl

theorem execAll_append (is js : List Instr) (s : State) :
    execAll (is ++ js) s = andThen (execAll is s) (execAll js) := by
  induction is generalizing s with
  | nil => rfl
  | cons i is ih =>
    rw [List.cons_append, execAll, execAll, andThen_assoc]
    exact andThen_congr fun m _ => ih m

theorem execAll_singleton (i : Instr) (s : State) : execAll [i] s = exec i s :=
  andThen_next_right _

/-! ### The framer's commands by the framer's mode (R121) -/

section Commands

variable {s : State} {pgn : Pgn24} {prio : Prio} {src dst : Addr} {total : Byte}

theorem exec_frStart (s : State) :
    exec (.frStart pgn prio src dst) s = done (startSingle pgn prio src dst s) := rfl

theorem exec_frStartFast (s : State) :
    exec (.frStartFast pgn prio src dst total) s = done (startFast pgn prio src dst total s) := rfl

theorem exec_frOutByte (b : Byte) (s : State) : exec (.frOutByte b) s = done (outBytes [b] s) := rfl

theorem exec_frOutRaw16 (v : BitVec 16) (s : State) :
    exec (.frOutRaw16 v) s = done (outBytes (leBytes 2 v.toNat) s) := rfl

theorem exec_frOutRaw24 (v : BitVec 24) (s : State) :
    exec (.frOutRaw24 v) s = done (outBytes (leBytes 3 v.toNat) s) := rfl

theorem exec_frOutRaw32 (v : BitVec 32) (s : State) :
    exec (.frOutRaw32 v) s = done (outBytes (leBytes 4 v.toNat) s) := rfl

theorem exec_frOutFixstr (str : List Byte) (maxLen pad : Byte) (s : State) :
    exec (.frOutFixstr str maxLen pad) s = done (outBytes (fixedString str maxLen.toNat pad) s) := rfl

theorem exec_frOutVarstr (str : List Byte) (s : State) :
    exec (.frOutVarstr str) s = done (outVarString str s) := rfl

theorem exec_frFinish (s : State) : exec .frFinish s = done (finishSingle s) := rfl

theorem exec_frFinishFast (s : State) : exec .frFinishFast s = done (finishFast s) := rfl

theorem startSingle_of_busy (hm : s.fr.mode ≠ .idle) :
    startSingle pgn prio src dst s = .refused .packetInProgress := if_pos hm

theorem startFast_of_busy (hm : s.fr.mode ≠ .idle) :
    startFast pgn prio src dst total s = .refused .packetInProgress := if_pos hm

theorem startSingle_of_idle (hm : s.fr.mode = .idle) :
    startSingle pgn prio src dst s = withValue (encodeId pgn prio src dst) fun r =>
      .next (s.setFr { s.fr with id := r.1, off := 0, mode := .single }) := if_neg (not_not.mpr hm)

theorem startFast_of_tooLong (hm : s.fr.mode = .idle) (ht : 223 < total.toNat) :
    startFast pgn prio src dst total s = .refused .fastTooLong := by
  rw [startFast, if_neg (not_not.mpr hm), fastMaxLen, if_pos ht]

theorem startFast_of_idle (hm : s.fr.mode = .idle) (ht : total.toNat ≤ 223) :
    startFast pgn prio src dst total s = withValue (encodeId pgn prio src dst) fun r =>
      .next (s.setFr (fastStarted r.1 total s.fr)) := by
  rw [startFast, if_neg (not_not.mpr hm), fastMaxLen, if_neg (not_lt.mpr ht)]

theorem outBytes_of_idle (hm : s.fr.mode = .idle) (bytes : List Byte) :
    outBytes bytes s = .refused .noPacket := if_pos hm

theorem outVarString_of_idle (hm : s.fr.mode = .idle) (str : List Byte) :
    outVarString str s = .refused .noPacket := if_pos hm

theorem outNum_of_idle (hm : s.fr.mode = .idle) (k : NumKind) (value prec : NumOperand) :
    outNum k value prec s = .refused .noPacket := if_pos hm

theorem finishSingle_of_idle (hm : s.fr.mode = .idle) : finishSingle s = .refused .noPacket := by
  rw [finishSingle, hm]

theorem finishSingle_of_fast (hm : s.fr.mode = .fast) :
    finishSingle s = .next (countPacketErr s) := by
  rw [finishSingle, hm]

theorem finishSingle_of_single (hm : s.fr.mode = .single) : finishSingle s =
    if 0 < s.fr.off.toNat then
      .next (goIdle (transmit s.fr.id (bufFront s.fr.off.toNat s.fr.buf) s))
    else .next (goIdle s) := by
  rw [finishSingle, hm]

theorem finishFast_of_idle (hm : s.fr.mode = .idle) : finishFast s = .refused .noPacket := by
  rw [finishFast, hm]

theorem finishFast_of_single (hm : s.fr.mode = .single) :
    finishFast s = .next (countPacketErr s) := by
  rw [finishFast, hm]

theorem finishFast_of_fast (hm : s.fr.mode = .fast) : finishFast s =
    if s.fr.written.toNat < s.fr.total.toNat then .refused .fastUnderrun
    else if 1 < s.fr.off.toNat then
      .next (goIdle (transmit s.fr.id (residualFrame s.cfg.fpPad s.fr) s))
    else .next (goIdle s) := by
  rw [finishFast, hm]

end Commands

/-- Settles O11: each command's own guard refuses. -/
theorem misuseIsRefused : Obligations.MisuseIsRefused := by
  refine fun s => ⟨fun hm pgn prio src dst total => ⟨?_, ?_⟩, fun hm => ?_⟩
  · rw [exec_frStart, startSingle_of_busy hm, done_refused]
  · rw [exec_frStartFast, startFast_of_busy hm, done_refused]
  · have hout (bytes : List Byte) : done (outBytes bytes s) = .refused .noPacket := by
      rw [outBytes_of_idle hm, done_refused]
    refine ⟨fun _ => hout _, fun _ => hout _, fun _ => hout _, fun _ => hout _,
      fun _ _ _ => hout _, fun str => ?_, fun k value prec => ?_, ?_, ?_⟩
    · rw [exec_frOutVarstr, outVarString_of_idle hm, done_refused]
    · rw [exec_outNumInstr, outNum_of_idle hm, done_refused]
    · rw [exec_frFinish, finishSingle_of_idle hm, done_refused]
    · rw [exec_frFinishFast, finishFast_of_idle hm, done_refused]

/-! ### Starts (R122, R128, R129) -/

section Starts

variable {pgn : Pgn24} (prio : Prio) (src dst : Addr)

theorem encodeId_of_wide (hwide : 2 ^ 17 ≤ pgn.toNat) :
    encodeId pgn prio src dst = .error .pgnTooWide := if_pos hwide

/-- A PGN below 2^17 is encoded; a failed encoding gives identifier 0 (R92, R122). -/
theorem encodeId_of_lt (hpgn : pgn.toNat < 2 ^ 17) : ∃ id encFail,
    encodeId pgn prio src dst = .ok (id, encFail) ∧ (encFail = true → id = 0) := by
  obtain ⟨hwide, -⟩ | ⟨-, h⟩ := encodeId_cases pgn prio src dst
  · exact absurd hpgn (not_lt.mpr hwide)
  · exact h

end Starts

/-- Settles O12: the identifier is the one of ID_ENCODE, and 0 is never sent (R55). -/
theorem frStartBeginsASinglePacket : Obligations.FrStartBeginsASinglePacket := by
  refine fun pgn prio src dst s => ⟨fun hm => ?_, fun hm hwide => ?_, fun hm hpgn => ?_⟩
  · rw [exec_frStart, startSingle_of_busy hm, done_refused]
  · rw [exec_frStart, startSingle_of_idle hm, encodeId_of_wide prio src dst hwide,
      withValue_error, done_refused]
  · obtain ⟨id, encFail, he, hfail⟩ := encodeId_of_lt prio src dst hpgn
    refine ⟨id, encFail, exec_idEncode_eq_next.mpr he, fun h => ⟨hfail h, ?_⟩, ?_⟩
    · exact fun _ _ => if_pos (hfail h)
    · rw [exec_frStart, startSingle_of_idle hm, he, withValue_ok, done_next]

/-- The framer at the start of a fast packet, with frame 0's header as a number (R74, R75, R129). -/
theorem fastStarted_eq (id : CanId) (total : Byte) (f : Framer) : fastStarted id total f =
    { mode := .fast, id := id, seq := f.seq + 1
      buf := (f.buf.set 0 (BitVec.ofNat 8 ((f.seq + 1).toNat * 32))).set 1 total
      off := 2, fidx := 1, total := total, written := 0 } := by
  rw [fastStarted, fastHeader_zero, bufWrite_of_lt (by decide), bufWrite_of_lt (by decide)]

/-- Settles O13: the guards in the order of R129, then the identifier of ID_ENCODE. -/
theorem frStartFastBeginsAFastPacket : Obligations.FrStartFastBeginsAFastPacket := by
  refine fun pgn prio src dst total s => ⟨fun hm => ?_, fun hm ht => ?_, fun hm ht hwide => ?_,
    fun hm ht hpgn => ?_⟩
  · rw [exec_frStartFast, startFast_of_busy hm, done_refused]
  · rw [exec_frStartFast, startFast_of_tooLong hm ht, done_refused]
  · rw [exec_frStartFast, startFast_of_idle hm ht,
      encodeId_of_wide prio src dst hwide, withValue_error, done_refused]
  · obtain ⟨id, encFail, he, -⟩ := encodeId_of_lt prio src dst hpgn
    refine ⟨id, encFail, s.fr.seq + 1, exec_idEncode_eq_next.mpr he, BitVec.toNat_add s.fr.seq 1, ?_⟩
    rw [exec_frStartFast, startFast_of_idle hm ht, he, withValue_ok, done_next,
      fastStarted_eq]

/-! ### One append (R123, R124, R131) -/

theorem appendAll_singleton (b : Byte) (s : State) : appendAll [b] s = appendByte b s :=
  andThen_next_right _

theorem exec_frOutByte_of_busy {s : State} (hm : s.fr.mode ≠ .idle) (b : Byte) :
    exec (.frOutByte b) s = done (appendByte b s) := by
  rw [exec_frOutByte, outBytes_of_busy hm, appendAll_singleton]

theorem bufFront_eight (buf : Vector Byte 8) : bufFront 8 buf = buf.toList :=
  List.take_of_length_le (by simp)

/-- The append that fills the buffer offers it and begins the next frame (R124). -/
theorem flush_fastPut {s : State} (hoff : s.fr.off = 7) (b : Byte) : flush (fastPut b s) =
    (transmit s.fr.id (s.fr.buf.set 7 b).toList s).setFr
      { s.fr with
        buf := (s.fr.buf.set 7 b).set 0 (fastHeader s.fr.seq s.fr.fidx)
        off := 1, fidx := s.fr.fidx + 1, written := s.fr.written + 1 } := by
  have hbuf : bufWrite s.fr.off.toNat b s.fr.buf = s.fr.buf.set 7 b := by
    rw [hoff]; exact bufWrite_of_lt (by decide) b s.fr.buf
  rw [flush, fastPut, transmit_setFr, State.setFr_fr, bufFront_eight]
  simp only [putByte, hbuf, nextFrame, bufWrite_of_lt (show 0 < 8 by decide)]
  rfl

/-- Settles O14: AppendByte's branches by the mode and the offset (R123, R124). -/
theorem frOutByteAppends : Obligations.FrOutByteAppends := by
  intro b s
  refine ⟨fun hm => ?_, fun hm hoff => ?_, fun hm hoff => ?_, fun hm hw => ?_, fun hm hw hoff => ?_,
    fun hm hw hoff => ?_⟩
  · rw [exec_frOutByte, outBytes_of_idle hm, done_refused]
  all_goals rw [exec_frOutByte_of_busy (by rw [hm]; decide)]
  · rw [appendByte_single hm, if_pos hoff, done_next, countFrameErr]
  · have hne : s.fr.off ≠ 8 := fun h => absurd hoff (by rw [h]; decide)
    rw [appendByte_single hm, if_neg hne, done_next, putByte, bufWrite_of_lt hoff]
  · rw [appendByte_fast hm, if_pos hw, done_refused]
  · have hne : s.fr.off + 1 ≠ 8 := by bv_omega
    rw [appendByte_fast hm, if_neg hw, if_neg hne, done_next, fastPut, putByte, bufWrite_of_lt]
  · have hfull : s.fr.off + 1 = 8 := by rw [hoff]; rfl
    rw [appendByte_fast hm, if_neg hw, if_pos hfull, done_next, flush_fastPut hoff, fastHeader]

/-! ### Output commands (R132 to R142) -/

theorem outVarString_of_fits {str : List Byte} (h : textLength str + 2 ≤ 255) (s : State) :
    outVarString str s = outBytes (varTextField str) s := by
  have hfits : ¬255 < (beforeTerminator str).length + 2 := not_lt.mpr h
  rw [outVarString, if_neg hfits, varString_eq, outBytes]

theorem outNum_of_ok {k : NumKind} {value prec : NumOperand} {s : State} {bytes : List Byte}
    (h : encodeNum k value prec s.cfg = .ok bytes) : outNum k value prec s = outBytes bytes s := by
  rw [outNum, h, withValue_ok, outBytes]

theorem exec_outNumInstr_of_encoded {k : NumKind} {value prec : NumOperand} {s : State}
    {bytes : List Byte} (h : encodedBytes k value prec s.cfg = some bytes) :
    exec (outNumInstr k value prec) s = done (outBytes bytes s) := by
  rw [exec_outNumInstr, outNum_of_ok (encodedBytes_eq_some.mp h)]

/-- An output command that its own rule does not refuse appends its bytes (R131 to R142). -/
theorem exec_of_outputBytes {i : Instr} {bytes : List Byte} {s : State}
    (h : outputBytes s.cfg i = some bytes) : exec i s = done (outBytes bytes s) := by
  cases i with
  | frOutByte b => cases h; exact exec_frOutByte b s
  | frOutRaw16 v => cases h; rw [exec_frOutRaw16, leBytes_two]
  | frOutRaw24 v => cases h; rw [exec_frOutRaw24, leBytes_three]
  | frOutRaw32 v => cases h; rw [exec_frOutRaw32, leBytes_four]
  | frOutFixstr str maxLen pad => cases h; rw [exec_frOutFixstr, fixedString_eq]
  | frOutVarstr str =>
    obtain ⟨hfits, hbytes⟩ := Option.ite_none_right_eq_some.mp h
    cases hbytes
    rw [exec_frOutVarstr, outVarString_of_fits hfits]
  | frOutNumU16 value prec => exact exec_outNumInstr_of_encoded (k := .u16) h
  | frOutNumS16 value prec => exact exec_outNumInstr_of_encoded (k := .s16) h
  | frOutNumU24 value prec => exact exec_outNumInstr_of_encoded (k := .u24) h
  | frOutNumS24 value prec => exact exec_outNumInstr_of_encoded (k := .s24) h
  | frOutNumU32 value prec => exact exec_outNumInstr_of_encoded (k := .u32) h
  | frOutNumS32 value prec => exact exec_outNumInstr_of_encoded (k := .s32) h
  | _ => cases h

/-- With a packet in progress such a command completes when its appends do. -/
theorem exec_of_outputBytes_of_busy {i : Instr} {bytes : List Byte} {s : State}
    (h : outputBytes s.cfg i = some bytes) (hm : s.fr.mode ≠ .idle) :
    exec i s = done (appendAll bytes s) := by
  rw [exec_of_outputBytes h, outBytes_of_busy hm]

/-- FR_OUT_BYTEs one after another, with a packet in progress, are the appends of their bytes. -/
theorem execAll_frOutByte (bytes : List Byte) : ∀ {s : State}, s.fr.mode ≠ .idle →
    execAll (bytes.map .frOutByte) (s.setResult .none) = done (appendAll bytes s) := by
  induction bytes with
  | nil => exact fun _ => rfl
  | cons b bytes ih =>
    intro s hm
    have hhead : exec (.frOutByte b) (s.setResult .none) = done (appendByte b s) := by
      rw [exec_frOutByte_of_busy (s := s.setResult .none) hm, appendByte_setResult, done_andThen_answer]
    rw [List.map_cons, execAll, hhead, andThen_done, appendAll_cons, done, andThen_assoc]
    refine andThen_congr fun m h => ih ?_
    obtain ⟨hmode, -⟩ := appendByte_fixed h
    exact hmode ▸ hm

/-- Settles O15: each output command is the appends of its bytes, and so are its FR_OUT_BYTEs. -/
theorem outputCommandsAreByteAppends : Obligations.OutputCommandsAreByteAppends := by
  refine fun s => ⟨fun i bytes h => ?_, fun str hlong => ?_, fun k value prec e he => ?_⟩
  · by_cases hm : s.fr.mode = .idle
    · rw [exec_of_outputBytes h, outBytes_of_idle hm, done_refused, if_pos hm]
    · rw [exec_of_outputBytes_of_busy h hm, execAll_frOutByte bytes hm, if_neg hm]
  · have hlong' : 255 < (beforeTerminator str).length + 2 := hlong
    rw [exec_frOutVarstr, outVarString, if_pos hlong']
    split <;> rfl
  · rw [exec_outNumInstr, outNum, he, withValue_error]
    split <;> rfl

/-- Settles O16, by the appends in SINGLE mode (R125). -/
theorem outputsCompleteInSingleMode : Obligations.OutputsCompleteInSingleMode := by
  intro i bytes s h hm hoff
  obtain ⟨t, happ, hbuf, hlen, hcnt, hframe⟩ := appendAll_of_single bytes hm hoff
  refine ⟨t.setResult .none, ?_, hbuf, hlen, hcnt, congrArg (State.setResult · .none) hframe⟩
  rw [exec_of_outputBytes_of_busy h (by rw [hm]; decide), happ, done_next]

/-- A send stays one when both states get the same result port. -/
theorem SendsOnly.setResult {s t : State} (h : SendsOnly s t) (r : Result) :
    SendsOnly (s.setResult r) (t.setResult r) :=
  congrArg (State.setResult · r) h

/-- Settles O17, by the appends in FAST mode (R123, R124, R36). -/
theorem outputsCompleteInFastMode : Obligations.OutputsCompleteInFastMode := by
  intro i bytes s h hm hinv hroom
  obtain ⟨t, es, happ, htinv, hwritten, ho, -, hcount, hframes⟩ := appendAll_of_fast bytes hm hinv hroom
  obtain ⟨hmode, hid, hseq, htotal⟩ := appendAll_fixed happ
  refine ⟨t.setResult .none, es, ?_, htinv, hmode.trans hm, hid, hseq, htotal, hwritten, ho.log,
    hcount, hframes, ho.cnt, ho.only.setResult .none⟩
  rw [exec_of_outputBytes_of_busy h (by rw [hm]; decide), happ, done_next]

/-! ### Finishes (R143, R144) -/

/-- Settles O18: the residual of a single packet is its buffer, where that is not empty (R143). -/
theorem frFinishEndsASinglePacket : Obligations.FrFinishEndsASinglePacket := by
  refine fun s => ⟨fun hm => ?_, fun hm => ?_, fun hm =>
    ⟨{ s.fr with mode := .idle }, rfl, rfl, fun hoff => ?_, fun hoff => ?_⟩⟩
  · rw [exec_frFinish, finishSingle_of_idle hm, done_refused]
  · rw [exec_frFinish, finishSingle_of_fast hm, done_next, countPacketErr]
  · rw [exec_frFinish, finishSingle_of_single hm, hoff, if_neg (by decide), done_next, goIdle]
  · have hpos : 0 < s.fr.off.toNat := by bv_omega
    rw [exec_frFinish, finishSingle_of_single hm, if_pos hpos, done_next, goIdle, transmit_fr,
      bufFront]

/-- Settles O19: the residual of a fast packet is what follows its last full frame (R144). -/
theorem frFinishFastEndsAFastPacket : Obligations.FrFinishFastEndsAFastPacket := by
  refine fun s => ⟨fun hm => ?_, fun hm => ?_, fun hm hunder => ?_, fun hm hfull =>
    ⟨{ s.fr with mode := .idle }, rfl, rfl, fun hoff => ?_, fun hoff => ?_⟩⟩
  · rw [exec_frFinishFast, finishFast_of_idle hm, done_refused]
  · rw [exec_frFinishFast, finishFast_of_single hm, done_next, countPacketErr]
  · rw [exec_frFinishFast, finishFast_of_fast hm, if_pos hunder, done_refused]
  · rw [exec_frFinishFast, finishFast_of_fast hm, if_neg (not_lt.mpr hfull), if_neg (not_lt.mpr hoff),
      done_next, goIdle]
  · rw [exec_frFinishFast, finishFast_of_fast hm, if_neg (not_lt.mpr hfull), if_pos hoff, done_next,
      goIdle, transmit_fr]
    rfl

/-! ### Whole packets, command by command (R145, R146, R148) -/

theorem goIdle_setResult (s : State) (r : Result) :
    goIdle (s.setResult r) = (goIdle s).setResult r := rfl

/-- A single finish neither reads nor writes the result port. -/
theorem finishSingle_setResult (s : State) (r : Result) :
    finishSingle (s.setResult r) = andThen (finishSingle s) (answer r) := by
  cases hm : s.fr.mode with
  | idle => rw [finishSingle_of_idle hm, finishSingle_of_idle (by exact hm), andThen_refused]
  | fast => rw [finishSingle_of_fast hm, finishSingle_of_fast (by exact hm)]; rfl
  | single =>
    rw [finishSingle_of_single hm, finishSingle_of_single (by exact hm), transmit_setResult,
      goIdle_setResult, goIdle_setResult, State.setResult_fr]
    split <;> rfl

/-- A fast finish neither reads nor writes the result port. -/
theorem finishFast_setResult (s : State) (r : Result) :
    finishFast (s.setResult r) = andThen (finishFast s) (answer r) := by
  cases hm : s.fr.mode with
  | idle => rw [finishFast_of_idle hm, finishFast_of_idle (by exact hm), andThen_refused]
  | single => rw [finishFast_of_single hm, finishFast_of_single (by exact hm)]; rfl
  | fast =>
    rw [finishFast_of_fast hm, finishFast_of_fast (by exact hm), transmit_setResult,
      goIdle_setResult, goIdle_setResult, State.setResult_fr, State.setResult_cfg]
    split
    · rfl
    · split <;> rfl

/-- The FR_OUT_BYTEs and the finish of a packet in progress are one output and the finish's effect. -/
theorem execAll_outputs_finish {finish : Instr} {effect : State → Out} {s : State}
    (hexec : ∀ t, exec finish t = done (effect t))
    (hport : ∀ t r, effect (t.setResult r) = andThen (effect t) (answer r))
    (hm : s.fr.mode ≠ .idle) (bytes : List Byte) :
    execAll (bytes.map .frOutByte ++ [finish]) (s.setResult .none) =
      done (andThen (outBytes bytes s) effect) := by
  rw [execAll_append, execAll_frOutByte bytes hm, andThen_done, outBytes_of_busy hm, done,
    andThen_assoc]
  refine andThen_congr fun t _ => ?_
  rw [execAll_singleton, hexec, hport, done_andThen_answer, done]

/-- FR_START, FR_OUT_BYTEs and FR_FINISH do what the whole packet does. -/
theorem execAll_single (pgn : Pgn24) (prio : Prio) (src dst : Addr) (bytes : List Byte) (s : State) :
    execAll (.frStart pgn prio src dst :: (bytes.map .frOutByte ++ [.frFinish])) s =
      done (sendSingle pgn prio src dst bytes s) := by
  rw [execAll, exec_frStart, andThen_done, sendSingle, done, andThen_assoc]
  refine andThen_congr fun m h => ?_
  obtain ⟨-, r, -, rfl⟩ := startSingle_eq_next.mp h
  exact execAll_outputs_finish exec_frFinish finishSingle_setResult (by intro h; cases h) bytes

/-- FR_START_FAST, FR_OUT_BYTEs and FR_FINISH_FAST do what the whole packet does. -/
theorem execAll_fast (pgn : Pgn24) (prio : Prio) (src dst : Addr) (total : Byte) (bytes : List Byte)
    (s : State) :
    execAll (.frStartFast pgn prio src dst total :: (bytes.map .frOutByte ++ [.frFinishFast])) s =
      done (sendFast pgn prio src dst total bytes s) := by
  rw [execAll, exec_frStartFast, andThen_done, sendFast, done, andThen_assoc]
  refine andThen_congr fun m h => ?_
  obtain ⟨-, -, r, -, rfl⟩ := startFast_eq_next.mp h
  exact execAll_outputs_finish exec_frFinishFast finishFast_setResult (by intro h; cases h) bytes

theorem fastFrames_length (pad : FpPad) (seq : BitVec 3) (payload : List Byte) :
    (fastFrames pad seq payload).length = fastFrameCount payload.length := by
  simp [fastFrames]

/-- Settles O20: the commands are one fast packet, whose frames are those of R145 and R146. -/
theorem fastPacketFrames : Obligations.FastPacketFrames := by
  intro pgn prio src dst payload s id encFail hm hlen henc
  obtain ⟨t, es, hsend, hmode, hseq, ho, hlog⟩ :=
    sendFast_offers hm hlen (exec_idEncode_eq_next.mp henc)
  refine ⟨t.setResult .none, es, ?_, hmode, hseq, ho.log, ?_, hlog, ho.cnt, ho.only.setResult .none⟩
  · rw [execAll_fast, hsend, done_next]
  · rw [hlog.length, apply_ite List.length, List.length_nil, fastFrames_length]

/-- Settles O21: the commands are one single packet, whose frame is that of R148. -/
theorem singlePacketFrame : Obligations.SinglePacketFrame := by
  intro pgn prio src dst bytes s id encFail hm henc
  obtain ⟨t, es, hsend, hmode, hfr, htx, hcnt, hlog, honly⟩ :=
    sendSingle_offers bytes hm (exec_idEncode_eq_next.mp henc)
  have hseq : t.fr.seq = s.fr.seq := by rw [hfr]
  refine ⟨t.setResult .none, es, ?_, hmode, htx, hlog, hseq, hcnt, honly.setResult .none⟩
  rw [execAll_single, hsend, done_next]

end Sys2Proof.Machine

namespace Sys2Proof.Machine

/-! ### The commands of the arbitrator (R150 to R152) -/

theorem exec_acClaim (s : State) : exec .acClaim s = done (claimAddress s) := rfl

theorem exec_acPoll (s : State) : exec .acPoll s =
    .next ((expireClaim s).setResult (.claimed (notPending (expireClaim s)))) := rfl

theorem exec_acRxClaim (f : Frame) (s : State) :
    exec (.acRxClaim f) s = done (receiveClaim f s) := rfl

@[simp] theorem now_setName (s : State) (n : NameWord) : now (s.setName n) = now s := rfl

@[simp] theorem now_setDevAddr (s : State) (a : Addr) : now (s.setDevAddr a) = now s := rfl

@[simp] theorem now_expireClaim (s : State) : now (expireClaim s) = now s := rfl

@[simp] theorem now_remoteNameBytes (f : Frame) (s : State) :
    now (remoteNameBytes f s).2 = now s := by
  rw [remoteNameBytes, drawBytes_state]; rfl

@[simp] theorem remoteNameBytes_devAddr (f : Frame) (s : State) :
    (remoteNameBytes f s).2.devAddr = s.devAddr := drawBytes_devAddr s _

/-! ### The claim (R149, R150) -/

/-- One offered frame raises one send counter, by the transport's answer (R55). -/
theorem Counters.afterSends_singleton (c : Counters) (e : TxEntry) : c.afterSends [e] =
    if e.ok then { c with tx := c.tx + 1 } else { c with txFail := c.txFail + 1 } := by
  cases h : e.ok <;> simp [Counters.afterSends, h]

/-- Settles O23: everything that a claim does from IDLE, and its guard. -/
theorem acClaimSendsTheClaim : Obligations.AcClaimSendsTheClaim := by
  refine fun s => ⟨fun hm => ?_, fun hm => ?_⟩
  · rw [exec_acClaim, claimAddress_of_busy hm, done_refused]
  · obtain ⟨t, id, es, hclaim, hid, hframe, hlog, hcnt, htime, honce, hfr, honly⟩ :=
      claimAddress_offers hm
    obtain ⟨r, rfl⟩ := hframe.single
    refine ⟨t.setResult .none, id, r, ?_, hid, ?_, ?_, htime, honce, ?_, ?_, honly.setResult .none⟩
    · rw [exec_acClaim, hclaim, done_next]
    · rw [State.setResult_txLog, hlog, nameBytes_eq]
    · rw [State.setResult_cnt, hcnt, Counters.afterSends_singleton]
    · rw [State.setResult_fr, hfr]; exact hm
    · rw [State.setResult_fr, hfr]

theorem claimAddress_of_idle {s : State} (hm : s.fr.mode = .idle) :
    ∃ t, claimAddress s = .next t ∧ t.claimT = now s := by
  obtain ⟨t, -, -, hclaim, -, -, -, -, htime, -⟩ := claimAddress_offers hm
  exact ⟨t, hclaim, htime⟩

theorem idle_of_claimAddress {s t : State} (h : claimAddress s = .next t) : s.fr.mode = .idle := by
  by_contra hm
  rw [claimAddress_of_busy hm] at h
  cases h

/-- A claim that completes starts the timer (R150). -/
theorem claimAddress_claimed {s t : State} (h : claimAddress s = .next t) :
    t.claimT = now s ∧ t.claimedOnce = true := by
  obtain ⟨m, -, h⟩ := andThen_eq_next.mp h
  cases h
  exact ⟨rfl, rfl⟩

theorem claimAddress_clock {s t : State} (h : claimAddress s = .next t) :
    t.world.clock = s.world.clock := by
  rw [(claimAddress_sent h).world]; rfl

/-- The PGN of the identifier that a claim is sent under (R149). -/
theorem pgnOf_claimId {id : CanId} {prio : Prio} {src : Addr}
    (h : id.toNat = prio.toNat * 2 ^ 26 + 0x00EEFF00 + src.toNat) : pgnOf id = 60928 := by
  have hsrc := src.isLt
  apply BitVec.eq_of_toNat_eq
  rw [pgnOf_toNat, h, if_pos (by omega)]
  show _ = 60928
  omega

/-- A claim that completes offers one Address Claim frame (R149). -/
theorem claimAddress_txLog {s t : State} (h : claimAddress s = .next t) :
    ∃ e : TxEntry, t.txLog = s.txLog ++ [e] ∧ pgnOf e.id = 60928 := by
  obtain ⟨t', id, es, h', hid, hframe, hlog, -⟩ := claimAddress_offers (idle_of_claimAddress h)
  cases h.symm.trans h'
  obtain ⟨r, rfl⟩ := hframe.single
  exact ⟨_, hlog, pgnOf_claimId hid⟩

/-! ### The poll (R151) -/

/-- Settles O24: the condition of R151 is the window's. -/
theorem acPollExpiresTheWindow : Obligations.AcPollExpiresTheWindow := by
  intro s left
  have hleft : (if windowPassed (now s) s.claimT then 0 else s.claimT) = left := by
    by_cases h0 : s.claimT = 0
    · rw [show left = s.claimT from if_neg fun ⟨h, _⟩ => h h0, h0]; exact ite_self _
    · simp only [left, windowPassed_iff, ne_eq, h0, not_false_eq_true, true_and]
  rw [exec_acPoll, notPending, expireClaim, hleft, State.setClaimT_claimT]

/-- The poll leaves the timer, or clears it once the window has passed. -/
theorem expireClaim_cases (s : State) :
    (expireClaim s).claimT = s.claimT ∨
    ((expireClaim s).claimT = 0 ∧ 250 < (now s - s.claimT).toNat) := by
  by_cases h : 250 < (now s - s.claimT).toNat
  · rw [expireClaim_of_passed (.inr h)]; exact .inr ⟨rfl, h⟩
  · rw [expireClaim_of_pending (not_lt.mp h)]; exact .inl rfl

theorem exec_acPoll_of_passed {s : State} (h : s.claimT = 0 ∨ 250 < (now s - s.claimT).toNat) :
    exec .acPoll s = .next ((s.setClaimT 0).setResult (.claimed true)) := by
  rw [exec_acPoll, expireClaim_of_passed h]; rfl

theorem exec_acPoll_of_pending {s : State} (h0 : s.claimT ≠ 0)
    (h : (now s - s.claimT).toNat ≤ 250) :
    exec .acPoll s = .next (s.setResult (.claimed false)) := by
  rw [exec_acPoll, expireClaim_of_pending h, notPending, decide_eq_false h0]

/-! ### The arbitration (R152 to R157) -/

/-- The NAME bytes of a full claim are its payload's, and nothing is drawn. -/
theorem remoteNameBytes_of_full {f : Frame} (h : 8 ≤ f.len) (s : State) :
    remoteNameBytes f s = (f.data.take 8, s) := by
  rw [remoteNameBytes, Nat.sub_eq_zero_of_le h]
  exact Prod.ext (List.append_nil _) rfl

/-- The NAME bytes that a short claim lacks are the free bytes at the next draws (R153). -/
theorem remoteNameBytes_of_short {f : Frame} (h : f.len ≤ 8) (s : State) : remoteNameBytes f s =
    (f.data ++ (List.range (8 - f.len)).map fun j => Config.freeByte (s.world.draws + j),
      s.setWorld { s.world with draws := s.world.draws + (8 - f.len) }) := by
  rw [remoteNameBytes, drawBytes_bytes, drawBytes_state, List.take_of_length_le h]

/-- A short claim completed by one byte for each that it lacks is full. -/
theorem completed_len {f : Frame} (h : f.len ≤ 8) (byte : Nat → Byte) :
    Frame.len { f with data := f.data ++ (List.range (8 - f.len)).map byte } = 8 := by
  rw [Frame.len, List.length_append, List.length_map, List.length_range]
  exact Nat.add_sub_cancel' h

theorem receiveClaim_of_other {f : Frame} {s : State}
    (h : (decodeId f.id).src = 254 ∨ (decodeId f.id).src ≠ s.devAddr) :
    receiveClaim f s = .next s := by
  rw [receiveClaim]
  split
  · rfl
  · exact if_pos (h.resolve_left ‹_›)

theorem receiveClaim_of_full {f : Frame} {s : State} (hlen : f.len = 8)
    (hsrc : (decodeId f.id).src = s.devAddr) (hne : (decodeId f.id).src ≠ 254) :
    receiveClaim f s = arbitrate (nameOfBytes f.data) s := by
  rw [receiveClaim_of_own hsrc hne, remoteNameBytes_of_full hlen.ge, List.take_of_length_le hlen.le]

/-- A short claim is the full one that the drawn bytes complete it to, after the draws (R153). -/
theorem receiveClaim_of_short {f : Frame} {s : State} (hlen : f.len ≤ 8)
    (hsrc : (decodeId f.id).src = s.devAddr) (hne : (decodeId f.id).src ≠ 254) :
    receiveClaim f s = receiveClaim
      { f with data := f.data ++
        (List.range (8 - f.len)).map (fun j => Config.freeByte (s.world.draws + j)) }
      (s.setWorld { s.world with draws := s.world.draws + (8 - f.len) }) := by
  rw [receiveClaim_of_own hsrc hne, remoteNameBytes_of_short hlen]
  exact Eq.symm (receiveClaim_of_full (completed_len hlen _) hsrc hne)

section Arbitration

variable {remote : NameWord} {s : State}

theorem arbitrate_of_eq (h : remote = s.name) :
    arbitrate remote s = claimAddress (s.setName (withDeviceInstance s.name (now s))) := if_pos h

theorem arbitrate_of_lt (h : remote.toNat < s.name.toNat) : arbitrate remote s =
    if s.devAddr = 251 then .refused .addressExhausted
    else claimAddress (s.setDevAddr (s.devAddr + 1)) := by
  rw [arbitrate, if_neg fun e => h.ne (congrArg BitVec.toNat e), if_pos h]

theorem arbitrate_of_gt (h : s.name.toNat < remote.toNat) :
    arbitrate remote s = claimAddress s := by
  rw [arbitrate, if_neg fun e => h.ne' (congrArg BitVec.toNat e), if_neg h.asymm]

/-- Unless the device has to yield from address 251, the arbitration is a claim from a state with the same
packet in progress and the same clock (R154 to R157). -/
theorem arbitrate_eq_claimAddress (h : s.name.toNat ≤ remote.toNat ∨ s.devAddr ≠ 251) :
    ∃ m : State, arbitrate remote s = claimAddress m ∧ m.fr = s.fr ∧ now m = now s := by
  rcases Nat.lt_trichotomy remote.toNat s.name.toNat with hlt | heq | hgt
  · exact ⟨_, (arbitrate_of_lt hlt).trans (if_neg (h.resolve_left (not_le.mpr hlt))), rfl, rfl⟩
  · exact ⟨_, arbitrate_of_eq (BitVec.eq_of_toNat_eq heq), rfl, rfl⟩
  · exact ⟨_, arbitrate_of_gt hgt, rfl, rfl⟩

theorem arbitrate_of_idle (h : s.name.toNat ≤ remote.toNat ∨ s.devAddr ≠ 251)
    (hm : s.fr.mode = .idle) : ∃ t, arbitrate remote s = .next t ∧ t.claimT = now s := by
  obtain ⟨m, harb, hfr, hnow⟩ := arbitrate_eq_claimAddress h
  rw [harb, ← hnow]
  exact claimAddress_of_idle (hfr ▸ hm)

theorem arbitrate_of_busy (h : s.name.toNat ≤ remote.toNat ∨ s.devAddr ≠ 251)
    (hm : s.fr.mode ≠ .idle) : arbitrate remote s = .refused .packetInProgress := by
  obtain ⟨m, harb, hfr, -⟩ := arbitrate_eq_claimAddress h
  rw [harb, claimAddress_of_busy (hfr ▸ hm)]

end Arbitration

/-- Settles O26: the filters of R152, and the NAME that R153 completes. -/
theorem acRxClaimFilters : Obligations.AcRxClaimFilters := by
  refine fun f s => ⟨fun hother => ?_, fun hsrc hne hshort => ⟨?_, fun hm haddr => ?_⟩⟩
  · rw [exec_acRxClaim, receiveClaim_of_other hother, done_next]
  · rw [exec_acRxClaim, exec_acRxClaim, receiveClaim_of_short hshort.le hsrc hne]
  · have haddr' : (remoteNameBytes f s).2.devAddr ≠ 251 := by rwa [remoteNameBytes_devAddr]
    have hm' : (remoteNameBytes f s).2.fr.mode = .idle := by rwa [remoteNameBytes_fr]
    obtain ⟨t, harb, htime⟩ := arbitrate_of_idle (.inr haddr') hm'
    refine ⟨t.setResult .none, ?_, htime.trans (now_remoteNameBytes f s)⟩
    rw [exec_acRxClaim, receiveClaim_of_own hsrc hne, harb, done_next]

/-- Settles O27: the branches of R154 to R156 by the order of the two NAMEs. -/
theorem acRxClaimArbitrates : Obligations.AcRxClaimArbitrates := by
  intro f s hlen hsrc hne
  rw [← nameOfBytes_toNat hlen]
  have hexec : exec (.acRxClaim f) s = done (arbitrate (nameOfBytes f.data) s) := by
    rw [exec_acRxClaim, receiveClaim_of_full hlen hsrc (hsrc ▸ hne)]
  rw [hexec]
  refine ⟨fun heq => ?_, fun hlt haddr => ?_, fun hlt haddr => ?_, fun hgt => ?_, fun h =>
    ⟨fun hm => ?_, fun hm => ?_⟩⟩
  · obtain ⟨hdevice, hlow, hhigh⟩ := withDeviceInstance_bits s.name (now s)
    refine ⟨_, hdevice, hlow, hhigh, ?_⟩
    rw [arbitrate_of_eq (BitVec.eq_of_toNat_eq heq), exec_acClaim]
  · rw [arbitrate_of_lt hlt, if_pos haddr, done_refused]
  · rw [arbitrate_of_lt hlt, if_neg haddr, exec_acClaim]
  · rw [arbitrate_of_gt hgt, exec_acClaim]
  · obtain ⟨t, harb, htime⟩ := arbitrate_of_idle h hm
    exact ⟨t.setResult .none, by rw [harb, done_next], htime⟩
  · rw [arbitrate_of_busy h hm, done_refused]

/-! ### The address across steps (R160) -/

theorem State.Inv.claimable {s : State} (hs : s.Inv) : s.devAddr.toNat ≤ 251 := hs.1

/-- A claimable address that has not decreased, and is claimable still (R21, R160). -/
def AddressRises (s t : State) : Prop :=
  s.devAddr.toNat ≤ 251 → s.devAddr.toNat ≤ t.devAddr.toNat ∧ t.devAddr.toNat ≤ 251

theorem AddressRises.of_eq {s t : State} (h : t.devAddr = s.devAddr) : AddressRises s t :=
  fun hs => by rw [h]; exact ⟨le_refl _, hs⟩

theorem AddressRises.trans {s t u : State} (h1 : AddressRises s t) (h2 : AddressRises t u) :
    AddressRises s u := fun hs =>
  have ⟨hst, ht⟩ := h1 hs
  have ⟨htu, hu⟩ := h2 ht
  ⟨hst.trans htu, hu⟩

/-- The address after a claimable one below 251 is claimable, and does not wrap (R21, R155). -/
theorem yield_toNat {a : Addr} (hle : a.toNat ≤ 251) (hne : a ≠ 251) :
    (a + 1).toNat = a.toNat + 1 ∧ a.toNat + 1 ≤ 251 := by
  bv_omega

theorem addressRises_yield {s : State} (hne : s.devAddr ≠ 251) :
    AddressRises s (s.setDevAddr (s.devAddr + 1)) := by
  intro hle
  obtain ⟨hnext, hclaimable⟩ := yield_toNat hle hne
  rw [State.setDevAddr_devAddr, hnext]
  exact ⟨Nat.le_succ _, hclaimable⟩

theorem addressRises_allowsSends : AllowsSends AddressRises where
  refl _ := .of_eq rfl
  trans := .trans
  sends h := .of_eq h.devAddr
  result _ _ := .of_eq rfl
  world _ _ _ _ := .of_eq rfl
  calls _ _ := .of_eq rfl
  claim _ := .of_eq rfl
  expire _ := .of_eq rfl

theorem addressRises_allows : Allows AddressRises :=
  addressRises_allowsSends.allows (fun _ => .of_eq rfl) fun _ => addressRises_yield

theorem devAddr_allowsSends : AllowsSends fun s t => t.devAddr = s.devAddr where
  refl _ := rfl
  trans h1 h2 := h2.trans h1
  sends := SendsOnly.devAddr
  result _ _ := rfl
  world _ _ _ _ := rfl
  calls _ _ := rfl
  claim _ := rfl
  expire _ := rfl

theorem claimAddress_devAddr {s t : State} (h : claimAddress s = .next t) :
    t.devAddr = s.devAddr :=
  devAddr_allowsSends.toLocal.claimAddress h

/-- A received claim moves the address only in a yield, by 1 (R155). -/
theorem receiveClaim_devAddr {f : Frame} {s t : State} (h : receiveClaim f s = .next t) :
    t.devAddr = s.devAddr ∨ (s.devAddr ≠ 251 ∧ t.devAddr = s.devAddr + 1) := by
  obtain rfl | ⟨-, h⟩ := receiveClaim_cases h
  · exact .inl rfl
  · obtain h | ⟨hne, h⟩ | ⟨-, h⟩ := arbitrate_cases h
    · exact .inl (by simpa using claimAddress_devAddr h)
    · exact .inr (by simpa using And.intro hne (claimAddress_devAddr h))
    · exact .inl (by simpa using claimAddress_devAddr h)

/-- Settles O54: only a yield writes DEV_ADDR, and only to the next address. -/
theorem addressNeverDecreases : Obligations.AddressNeverDecreases := by
  refine ⟨fun s t hs hp h => ?_, fun i s t hs h => ?_⟩
  · obtain ⟨hle, -⟩ := addressRises_allows.step_of_take (fun _ => .of_eq rfl) hs hp h hs.claimable
    exact hle
  · cases i with
    | pump => trivial
    | acRxClaim f =>
      obtain ⟨m, hm, rfl⟩ := done_eq_next.mp h
      rw [State.setResult_devAddr]
      obtain hkept | ⟨hne, hyield⟩ := receiveClaim_devAddr hm
      · exact .inl hkept
      · obtain ⟨hnext, -⟩ := yield_toNat hs.claimable hne
        exact .inr (by rw [hyield, hnext])
    | _ => exact devAddr_allowsSends.exec h (fun _ e => by cases e) (fun e => by cases e)

/-! ### What the commands do to the claim timer (R27, R28, R158) -/

/-- A command that neither claims, polls, nor handles an inbound claim or request. -/
def leavesTheClaim : Instr → Bool
  | .acClaim => false
  | .acPoll => false
  | .acRxClaim _ => false
  | .isoRxRequest _ => false
  | .pump => false
  | _ => true

/-- `t` has the claim timer and CLAIMED_ONCE of `s`. -/
def ClaimKept (s t : State) : Prop := t.claimT = s.claimT ∧ t.claimedOnce = s.claimedOnce

theorem SendsOnly.claimKept {s t : State} (h : SendsOnly s t) : ClaimKept s t :=
  ⟨h.claimT, h.claimedOnce⟩

theorem ClaimKept.done {s t : State} {r : Out} (hr : ∀ {t}, r = .next t → SendsOnly s t)
    (h : done r = .next t) : ClaimKept s t := by
  obtain ⟨m, hm, rfl⟩ := done_eq_next.mp h
  exact (hr hm).claimKept

theorem ClaimKept.output {s t : State} {r : Out}
    (hr : ∀ {t}, r = .next t → ∃ bytes, appendAll bytes s = .next t) (h : Machine.done r = .next t) :
    ClaimKept s t := by
  refine .done (fun h => ?_) h
  obtain ⟨bytes, h⟩ := hr h
  exact appendAll_sendsOnly h

theorem ClaimKept.answered {s t : State} {v : Result} (h : answer v s = .next t) :
    ClaimKept s t := by
  cases h; exact ⟨rfl, rfl⟩

theorem ClaimKept.answeredValue {s t : State} {α : Type} {r : Except Refusal α} {v : α → Result}
    (h : withValue r (fun a => answer (v a) s) = .next t) : ClaimKept s t := by
  obtain ⟨a, -, h⟩ := withValue_eq_next.mp h
  exact .answered h

/-- Such a command sends at most, waits or answers. -/
theorem exec_claimKept {i : Instr} {s t : State} (hi : leavesTheClaim i = true)
    (h : exec i s = .next t) : ClaimKept s t := by
  cases i with
  | acClaim | acPoll | acRxClaim _ | isoRxRequest _ | pump => cases hi
  | idPgnof _ | idDecode _ | status => exact .answered h
  | idEncode _ _ _ _ => exact .answeredValue h
  | numEncU16 _ _ | numEncS16 _ _ | numEncU24 _ _ | numEncS24 _ _ | numEncU32 _ _
  | numEncS32 _ _ => exact .answeredValue h
  | numDecU16 _ _ | numDecS16 _ _ | numDecU24 _ _ | numDecS24 _ _ | numDecU32 _ _
  | numDecS32 _ _ => exact .answeredValue h
  | frStart _ _ _ _ => exact .done startSingle_sendsOnly h
  | frStartFast _ _ _ _ _ => exact .done startFast_sendsOnly h
  | frOutByte _ | frOutRaw16 _ | frOutRaw24 _ | frOutRaw32 _ | frOutFixstr _ _ _ =>
    exact .output outBytes_appends h
  | frOutVarstr _ => exact .output outVarString_appends h
  | frOutNumU16 _ _ | frOutNumS16 _ _ | frOutNumU24 _ _ | frOutNumS24 _ _ | frOutNumU32 _ _
  | frOutNumS32 _ _ => exact .output outNum_appends h
  | frFinish => exact .done finishSingle_sendsOnly h
  | frFinishFast => exact .done finishFast_sendsOnly h
  | isoRxAck _ => cases h; exact ⟨rfl, rfl⟩
  | engOpen _ _ => cases h; exact ⟨drawOpen_claimT s, drawOpen_claimedOnce s⟩

/-- A received claim keeps the timer, or claims at the command's sample (R152, R157). -/
theorem receiveClaim_claim {f : Frame} {s t : State} (h : receiveClaim f s = .next t) :
    ClaimKept s t ∨ (t.claimT = now s ∧ t.claimedOnce = true) := by
  obtain rfl | ⟨-, h⟩ := receiveClaim_cases h
  · exact .inl ⟨rfl, rfl⟩
  · obtain h | ⟨-, h⟩ | ⟨-, h⟩ := arbitrate_cases h <;>
      exact .inr (by simpa using claimAddress_claimed h)

/-- The timer and CLAIMED_ONCE of `t` are those that the poll leaves in `s`, or a claim's. -/
def ClaimPolled (s t : State) : Prop :=
  ClaimKept (expireClaim s) t ∨ (t.claimT = now s ∧ t.claimedOnce = true)

/-- The answer to a request claims again or leaves the timer as the poll left it (R167). -/
theorem respond_claimPolled {f : Frame} {left : Option Nat} {s : State} {fl : Flow}
    (h : respond f left (expireClaim s) = .next fl) : ClaimPolled s (flowState fl) := by
  obtain h | h | ⟨c, h⟩ := respond_state_cases h
  · exact .inr (by simpa using claimAddress_claimed h)
  · exact .inl h.claimKept
  · rw [h]; exact .inl ⟨rfl, rfl⟩

/-- A request keeps the timer, or does to it what the poll does and may then claim (R168). -/
theorem receiveRequest_claim {f : Frame} {left : Option Nat} {s : State} {fl : Flow}
    (h : receiveRequest f left s = .next fl) :
    ClaimKept s (flowState fl) ∨ ClaimPolled s (flowState fl) := by
  rw [receiveRequest] at h
  split at h
  · split at h
    · exact .inr (respond_claimPolled h)
    · cases h; exact .inr (.inl ⟨rfl, rfl⟩)
  · cases h; exact .inl ⟨rfl, rfl⟩

/-- What the poll leaves is kept, or cleared once the window has passed (R151). -/
theorem ClaimKept.of_expireClaim {s t : State} (h : ClaimKept (expireClaim s) t) :
    ClaimKept s t ∨
    (t.claimT = 0 ∧ t.claimedOnce = s.claimedOnce ∧ 250 < (now s - s.claimT).toNat) := by
  obtain ⟨htime, honce⟩ := h
  exact (expireClaim_cases s).imp (fun hkept => ⟨htime.trans hkept, honce⟩)
    fun ⟨hzero, hpassed⟩ => ⟨htime.trans hzero, honce, hpassed⟩

/-! ### The claim timer across steps (R150, R151, R158, log entry 6) -/

/-- `c` is what the claim timer `c0` becomes between the clock's times `a` and `b` with no claim: the same,
or 0 once the window has passed at one of these times. -/
def TimerKept (a b : Nat) (c0 c : Millis) : Prop :=
  c = c0 ∨ c = 0 ∧ ∃ time : Nat, a ≤ time ∧ time ≤ b ∧ 250 < (BitVec.ofNat 32 time - c0).toNat

/-- `c` is what the claim timer becomes after a claim between the clock's times `a` and `b`. -/
def TimerClaimed (a b : Nat) (c : Millis) : Prop :=
  c = 0 ∨ ∃ time : Nat, a ≤ time ∧ time ≤ b ∧ c = BitVec.ofNat 32 time

theorem TimerKept.trans {a b c : Nat} {x y z : Millis} (hab : a ≤ b) (hbc : b ≤ c)
    (h1 : TimerKept a b x y) (h2 : TimerKept b c y z) : TimerKept a c x z := by
  obtain rfl | ⟨rfl, time, hlo, hhi, hpassed⟩ := h1
  · exact h2.imp_right fun ⟨hz, time, hlo, hhi, hpassed⟩ =>
      ⟨hz, time, hab.trans hlo, hhi, hpassed⟩
  · have hz : z = 0 := h2.elim id And.left
    exact .inr ⟨hz, time, hlo, hhi.trans hbc, hpassed⟩

theorem TimerClaimed.kept {a b c : Nat} {y z : Millis} (hbc : b ≤ c)
    (h1 : TimerClaimed a b y) (h2 : TimerKept b c y z) : TimerClaimed a c z := by
  obtain rfl | ⟨hz, -⟩ := h2
  · exact h1.imp_right fun ⟨time, hlo, hhi, hy⟩ => ⟨time, hlo, hhi.trans hbc, hy⟩
  · exact .inl hz

theorem TimerClaimed.mono {a b c : Nat} {z : Millis} (hab : a ≤ b) (h : TimerClaimed b c z) :
    TimerClaimed a c z :=
  h.imp_right fun ⟨time, hlo, hhi, hz⟩ => ⟨time, hab.trans hlo, hhi, hz⟩

/-- From `s` to `t` the log grew by `es`, and the claim timer was kept or cleared by the poll, or an Address
Claim frame was offered and CLAIMED_ONCE set. -/
def ClaimAcross (s t : State) (es : List TxEntry) : Prop :=
  t.txLog = s.txLog ++ es ∧
    ((t.claimedOnce = s.claimedOnce ∧ TimerKept s.world.clock t.world.clock s.claimT t.claimT) ∨
      (t.claimedOnce = true ∧ (∃ e ∈ es, pgnOf e.id = 60928) ∧
        TimerClaimed s.world.clock t.world.clock t.claimT))

/-- From `s` to `t` the clock did not go back, and the claim timer did as `ClaimAcross` says. -/
structure ClaimLaw (s t : State) : Prop where
  clock : s.world.clock ≤ t.world.clock
  across : ∃ es, ClaimAcross s t es

theorem ClaimAcross.trans {s t u : State} {as bs : List TxEntry}
    (hst : s.world.clock ≤ t.world.clock) (htu : t.world.clock ≤ u.world.clock)
    (h1 : ClaimAcross s t as) (h2 : ClaimAcross t u bs) : ClaimAcross s u (as ++ bs) := by
  obtain ⟨hlog1, h1⟩ := h1
  obtain ⟨hlog2, h2⟩ := h2
  refine ⟨by rw [hlog2, hlog1, List.append_assoc], ?_⟩
  obtain ⟨honce2, hkept2⟩ | ⟨honce2, ⟨e, he, hpgn⟩, htime2⟩ := h2
  · obtain ⟨honce1, hkept1⟩ | ⟨honce1, ⟨e, he, hpgn⟩, htime1⟩ := h1
    · exact .inl ⟨honce2.trans honce1, hkept1.trans hst htu hkept2⟩
    · exact .inr ⟨honce2.trans honce1, ⟨e, List.mem_append_left bs he, hpgn⟩,
        htime1.kept htu hkept2⟩
  · exact .inr ⟨honce2, ⟨e, List.mem_append_right as he, hpgn⟩, htime2.mono hst⟩

theorem ClaimLaw.trans {s t u : State} (h1 : ClaimLaw s t) (h2 : ClaimLaw t u) : ClaimLaw s u := by
  obtain ⟨hst, as, ha⟩ := h1
  obtain ⟨htu, bs, hb⟩ := h2
  exact ⟨hst.trans htu, as ++ bs, ha.trans hst htu hb⟩

/-- A change that leaves the timer, and the log but for new entries. -/
theorem ClaimLaw.of_kept {s t : State} {es : List TxEntry} (hclock : s.world.clock ≤ t.world.clock)
    (hlog : t.txLog = s.txLog ++ es) (hkept : ClaimKept s t) : ClaimLaw s t := by
  obtain ⟨htime, honce⟩ := hkept
  exact ⟨hclock, es, hlog, .inl ⟨honce, .inl htime⟩⟩

/-- A change that leaves the timer and the log, and does not set the clock back. -/
theorem ClaimLaw.of_unlogged {s t : State} (hclock : s.world.clock ≤ t.world.clock)
    (hlog : t.txLog = s.txLog) (hkept : ClaimKept s t) : ClaimLaw s t :=
  .of_kept hclock (hlog.trans (List.append_nil _).symm) hkept

theorem ClaimLaw.of_sends {s t : State} (hsends : SendsOnly s t) (hlog : LogGrowth s t) :
    ClaimLaw s t := by
  obtain ⟨es, hlog, -⟩ := hlog
  exact .of_kept hsends.clock.ge hlog hsends.claimKept

theorem claimAddress_claimLaw {s t : State} (h : claimAddress s = .next t) : ClaimLaw s t := by
  have hclock := claimAddress_clock h
  obtain ⟨htime, honce⟩ := claimAddress_claimed h
  obtain ⟨e, hlog, hpgn⟩ := claimAddress_txLog h
  exact ⟨hclock.ge, [e], hlog, .inr ⟨honce, ⟨e, List.mem_singleton_self e, hpgn⟩,
    .inr ⟨s.world.clock, le_refl _, hclock.ge, htime⟩⟩⟩

theorem expireClaim_claimLaw (s : State) : ClaimLaw s (expireClaim s) := by
  refine ⟨le_refl _, [], (List.append_nil _).symm, .inl ⟨rfl, ?_⟩⟩
  exact (expireClaim_cases s).imp_right fun ⟨hzero, hpassed⟩ =>
    ⟨hzero, s.world.clock, le_refl _, le_refl _, hpassed⟩

theorem claimLaw_allows : Allows ClaimLaw where
  refl _ := .of_unlogged (le_refl _) rfl ⟨rfl, rfl⟩
  trans := .trans
  result _ _ := .of_unlogged (le_refl _) rfl ⟨rfl, rfl⟩
  world _ _ _ hclock := .of_unlogged hclock rfl ⟨rfl, rfl⟩
  startSingle h := .of_sends (startSingle_sendsOnly h) (startSingle_logGrowth h)
  startFast h := .of_sends (startFast_sendsOnly h) (startFast_logGrowth h)
  append h := .of_sends (appendByte_sendsOnly h) (appendByte_logGrowth h)
  finishSingle h := .of_sends (finishSingle_sendsOnly h) (finishSingle_logGrowth h)
  finishFast h := .of_sends (finishFast_sendsOnly h) (finishFast_logGrowth h)
  countRx _ := .of_unlogged (le_refl _) rfl ⟨rfl, rfl⟩
  countDrop _ := .of_unlogged (le_refl _) rfl ⟨rfl, rfl⟩
  claimAddress := claimAddress_claimLaw
  expire := expireClaim_claimLaw
  tieBreak _ := .of_unlogged (le_refl _) rfl ⟨rfl, rfl⟩
  yield _ _ := .of_unlogged (le_refl _) rfl ⟨rfl, rfl⟩
  call _ _ _ := .of_unlogged (le_refl _) rfl ⟨rfl, rfl⟩
  ret _ _ _ _ := .of_unlogged (le_refl _) rfl ⟨rfl, rfl⟩

/-- Settles O25: the polls of a claim by R151, the commands one by one, and the steps by what their
elementary changes do to the timer. -/
theorem claimWindowLaw : Obligations.ClaimWindowLaw := by
  refine ⟨fun s t h hnow w => ⟨fun hw => ?_, fun hw => ?_⟩, fun i s t h => ?_,
    fun s t hs hp h => ?_⟩
  · obtain ⟨m, hm, rfl⟩ := done_eq_next.mp h
    obtain ⟨htime, -⟩ := claimAddress_claimed hm
    have hpoll (time : Millis) : (sampleClock (some time) w).claimT = now s := by
      rw [sampleClock_claimT, hw]; exact htime
    refine ⟨fun time hle => ⟨_, exec_acPoll_of_pending ?_ ?_, rfl, ?_⟩,
      fun time hlt => ⟨_, exec_acPoll_of_passed (.inr ?_), rfl, rfl⟩⟩
    · rw [hpoll]; exact hnow
    · rwa [hpoll, now_sampleClock_some]
    · rw [State.setResult_claimT, sampleClock_claimT, hw]
    · rwa [hpoll, now_sampleClock_some]
  · exact ⟨_, exec_acPoll_of_passed (.inl hw), rfl, rfl⟩
  · cases i with
    | acClaim =>
      obtain ⟨m, hm, rfl⟩ := done_eq_next.mp h
      exact claimAddress_claimed (t := m) hm
    | acPoll =>
      cases h
      exact ClaimKept.of_expireClaim ⟨rfl, rfl⟩
    | acRxClaim f =>
      obtain ⟨m, hm, rfl⟩ := done_eq_next.mp h
      exact receiveClaim_claim (t := m) hm
    | isoRxRequest f =>
      obtain ⟨m, hm, rfl⟩ := done_eq_next.mp h
      obtain ⟨fl, hfl, hm⟩ := andThen_eq_next.mp hm
      cases hm
      obtain hkept | hpolled | hclaimed := receiveRequest_claim hfl
      · exact .inl hkept
      · exact hpolled.of_expireClaim.imp_right .inl
      · exact .inr (.inr hclaimed)
    | pump => trivial
    | _ => exact exec_claimKept rfl h
  · obtain ⟨-, hacross⟩ := claimLaw_allows.step_of_take
      (fun _ => .of_unlogged (le_refl _) rfl ⟨rfl, rfl⟩) hs hp h
    exact hacross

end Sys2Proof.Machine

namespace Sys2Proof.Machine

/-! ### The commands of the dispatcher (R167, R171) -/

theorem exec_isoRxAck (f : Frame) (s : State) : exec (.isoRxAck f) s = done (receiveAck f s) := rfl

/-- Settles O36: the command's effect is none (R171). -/
theorem isoRxAckDoesNothing : Obligations.IsoRxAckDoesNothing := by
  intro f s
  rw [exec_isoRxAck, receiveAck, done_next]

theorem exec_isoRxRequest (f : Frame) (s : State) : exec (.isoRxRequest f) s =
    done (andThen (receiveRequest f none s) fun fl => .next (flowState fl)) := rfl

theorem exec_isoRxRequest_of_done {f : Frame} {s t : State}
    (h : receiveRequest f none s = .next (.done t)) :
    exec (.isoRxRequest f) s = .next (t.setResult .none) := by
  rw [exec_isoRxRequest, h, andThen_next, flowState, done_next]

/-! ### Requests that end in a check (R167, R168, R173) -/

theorem receiveRequest_of_not_for_us {f : Frame} {s : State} (left : Option Nat)
    (h : ¬ requestForUs f s = true) : receiveRequest f left s = .next (.done s) := if_neg h

/-- While a claim is pending the third check ends every request that passes the first two
(R168). -/
theorem receiveRequest_of_pending {f : Frame} {s : State} (left : Option Nat) (h0 : s.claimT ≠ 0)
    (h : (now s - s.claimT).toNat ≤ 250) : receiveRequest f left s = .next (.done s) := by
  have hpending : ¬ notPending s = true := by rw [notPending, decide_eq_true_iff]; exact h0
  rw [receiveRequest, expireClaim_of_pending h, if_neg hpending, ite_self]

/-- Settles O28: the first two checks fail, and nothing has been changed before them. -/
theorem isoRequestFailsItsChecks : Obligations.IsoRequestFailsItsChecks := by
  intro f s h
  have hcheck : ¬ requestForUs f s = true := by
    rw [requestForUs_iff]
    rintro ⟨⟨h3, h8⟩, hdst⟩
    obtain hshort | hlong | ⟨hall, hown⟩ := h
    · exact absurd h3 (not_le.mpr hshort)
    · exact absurd h8 (not_le.mpr hlong)
    · exact hdst.elim hall hown
  exact exec_isoRxRequest_of_done (receiveRequest_of_not_for_us none hcheck)

/-- Settles O29: a request is ended by the third check where not by the first two (R173). -/
theorem silenceWhilePending : Obligations.SilenceWhilePending :=
  fun _ _ h0 h => exec_isoRxRequest_of_done (receiveRequest_of_pending none h0 h)

/-! ### The answer by the requested PGN (R167) -/

section Answers

variable {f : Frame} (left : Option Nat) (s : State)

/-- The requested PGN is the one whose number the payload holds (R83). -/
theorem requestedPgn_eq {p : Pgn24} (h : leNat (f.data.take 3) = p.toNat) : requestedPgn f = p :=
  BitVec.eq_of_toNat_eq ((requestedPgn_toNat f).trans h)

theorem respond_claim (h : leNat (f.data.take 3) = 60928) :
    respond f left s = toFlow (claimAddress s) := if_pos (requestedPgn_eq h)

theorem respond_pgnList (h : leNat (f.data.take 3) = 126464) :
    respond f left s = toFlow (andThen (sendPgnList 0 s.cfg.rxList (decodeId f.id).src s) fun m =>
      sendPgnList 1 m.cfg.txList (decodeId f.id).src m) := by
  simp only [respond, requestedPgn_eq (p := 126464) h]
  rfl

theorem respond_productInfo (h : leNat (f.data.take 3) = 126996) :
    respond f left s = toFlow (sendProductInfo (decodeId f.id).src s) := by
  simp only [respond, requestedPgn_eq (p := 126996) h]
  rfl

theorem respond_configInfo (h : leNat (f.data.take 3) = 126998) :
    respond f left s = toFlow (sendConfigInfo (decodeId f.id).src s) := by
  simp only [respond, requestedPgn_eq (p := 126998) h]
  rfl

/-- A request for none of the four known PGNs goes to the ISO handler, or gets a NAK where none is
installed (R166, R174). -/
theorem respond_unknown (h : leNat (f.data.take 3) ∉ [60928, 126464, 126996, 126998]) :
    respond f left s =
      if s.cfg.hasIsoHandler then
        .next (callHost (.isoHandler (requestedPgn f) (decodeId f.id) f.data left) s)
      else toFlow (sendNak (requestedPgn f) (decodeId f.id).src s) := by
  have hne (p : Pgn24) (hp : p.toNat ∈ [60928, 126464, 126996, 126998]) : requestedPgn f ≠ p := by
    rintro rfl
    rw [requestedPgn_toNat] at hp
    exact h hp
  simp only [respond]
  rw [if_neg (hne 60928 (by decide)), if_neg (hne 126464 (by decide)),
    if_neg (hne 126996 (by decide)), if_neg (hne 126998 (by decide))]

end Answers

/-! ### A request that passes the three checks (R167, R168) -/

section Checked

variable {f : Frame} {s : State} (h3 : 3 ≤ f.len) (h8 : f.len ≤ 8)
  (hdst : (decodeId f.id).dst = 0xFF ∨ (decodeId f.id).dst = s.devAddr)
  (hclaim : s.claimT = 0 ∨ 250 < (now s - s.claimT).toNat)

include h3 h8 hdst hclaim

/-- An answer that calls nobody is the command's effect, with the claim timer cleared. -/
theorem exec_isoRxRequest_of_answer {r : Out}
    (h : respond f none (s.setClaimT 0) = toFlow r) : exec (.isoRxRequest f) s = done r := by
  rw [exec_isoRxRequest, receiveRequest_of_checks none h3 h8 hdst hclaim, h, toFlow, andThen_assoc]
  exact congrArg done (andThen_next_right r)

/-- With a handler installed, a request for an unknown PGN is a call of it (R166). -/
theorem receiveRequest_calls (left : Option Nat) (hhandler : s.cfg.hasIsoHandler = true)
    (hreq : leNat (f.data.take 3) ∉ [60928, 126464, 126996, 126998]) :
    receiveRequest f left s = .next (callHost
      (.isoHandler (requestedPgn f) (decodeId f.id) f.data left) (s.setClaimT 0)) := by
  rw [receiveRequest_of_checks left h3 h8 hdst hclaim, respond_unknown left _ hreq]
  exact if_pos hhandler

/-- The same in a PUMP that keeps the request's frame and counts it first (R178, R179). -/
theorem handleFrame_calls_isoHandler (k : Nat) (hhandler : s.cfg.hasIsoHandler = true)
    (hreq : leNat (f.data.take 3) ∉ [60928, 126464, 126996, 126998])
    (hkept : inList (pgnOf f.id) s.cfg.rxList = true) (hpgn : pgnOf f.id = 59904) :
    handleFrame f k s = .next (callHost
      (.isoHandler (requestedPgn f) (decodeId f.id) f.data (some k))
      ((countRx s).setClaimT 0)) := by
  rw [handleFrame, if_pos hkept, route, if_pos hpgn]
  exact receiveRequest_calls (s := countRx s) h3 h8 hdst hclaim (some k) hhandler hreq

end Checked

/-- Settles O30: the answer to a request for 60928 is the claim, with the timer cleared. -/
theorem isoRequestForTheClaim : Obligations.IsoRequestForTheClaim := by
  intro f s h3 h8 hdst hclaim hreq
  have hexec := exec_isoRxRequest_of_answer h3 h8 hdst hclaim (respond_claim none _ hreq)
  refine ⟨hexec, fun hm => ?_, fun hm => ?_⟩
  · obtain ⟨t, hsend, htime⟩ := claimAddress_of_idle (s := s.setClaimT 0) hm
    exact ⟨t.setResult .none, by rw [hexec, hsend, done_next], htime⟩
  · rw [hexec, claimAddress_of_busy (by exact hm), done_refused]

/-! ### The NAK (R88, R165, R174) -/

theorem sendNak_of_busy {req : Pgn24} {dst : Addr} {s : State} (hm : s.fr.mode ≠ .idle) :
    sendNak req dst s = .refused .packetInProgress := sendSingle_of_busy hm

/-- The default tail of a request of at least 3 bytes repeats its first three. -/
theorem defaultAckTail_requestedPgn {f : Frame} (h3 : 3 ≤ f.len) :
    defaultAckTail (requestedPgn f) = 0xFF :: 0xFF :: 0xFF :: f.data.take 3 := by
  have hlen : (f.data.take 3).length = 3 := List.length_take_of_le h3
  have hbytes := leBytes_leNat (f.data.take 3)
  rw [hlen] at hbytes
  rw [defaultAckTail, requestedPgn_toNat, hbytes]

/-- Settles O31: the answer to a request for an unknown PGN is the NAK with no handler. -/
theorem unknownRequestGetsANak : Obligations.UnknownRequestGetsANak := by
  intro f s hhandler h3 h8 hdst hclaim hreq tail
  have htail : tail = ackTail s.cfg (requestedPgn f) := by
    simp only [tail, ← defaultAckTail_requestedPgn h3]
    rfl
  have hanswer : respond f none (s.setClaimT 0) =
      toFlow (sendNak (requestedPgn f) (decodeId f.id).src (s.setClaimT 0)) := by
    rw [respond_unknown none _ hreq, State.setClaimT_cfg, hhandler, if_neg Bool.false_ne_true]
  have hexec := exec_isoRxRequest_of_answer h3 h8 hdst hclaim hanswer
  refine ⟨fun hm => ?_, fun hm => ?_⟩
  · rw [hexec, sendNak_of_busy (by exact hm), done_refused]
  · obtain ⟨t, id, r, hsend, hid, hlog, hmode, hseq, hcnt, honly⟩ :=
      sendNak_offers (req := requestedPgn f) (dst := (decodeId f.id).src) (s := s.setClaimT 0) hm
    rw [htail]
    exact ⟨t.setResult .none, id, r, by rw [hexec, hsend, done_next], hid, rfl,
      ackTail_length _ _, hlog, hmode, hseq, hcnt, honly.setResult .none⟩

/-! ### Fast-packet answers (R161 to R164) -/

/-- A fast packet that encodes offers all its frames. -/
theorem sendFast_offers_frames {pgn : Pgn24} {prio : Prio} {src dst : Addr} {payload : List Byte}
    {s : State} {id : CanId} (hm : s.fr.mode = .idle) (hlen : payload.length ≤ 223)
    (henc : encodeId pgn prio src dst = .ok (id, false)) (hid : 0 < id.toNat) :
    ∃ t es, sendFast pgn prio src dst (BitVec.ofNat 8 payload.length) payload s = .next t ∧
      t.fr.mode = .idle ∧ t.fr.seq = s.fr.seq + 1 ∧ Offered s t es ∧
      LogOf id (fastFrames s.cfg.fpPad (s.fr.seq + 1) payload) es := by
  simpa only [if_neg (canId_ne_zero hid)] using sendFast_offers hm hlen henc

/-- The same for a PDU2 PGN, whose identifier holds no destination (R92). -/
theorem sendFast_offers_of_pdu2 {pgn : Pgn24} (prio : Prio) (src dst : Addr) {payload : List Byte}
    {s : State} (hpgn : pgn.toNat < 2 ^ 17) (hpdu2 : 240 ≤ pgn.toNat / 2 ^ 8 % 256)
    (hm : s.fr.mode = .idle) (hlen : payload.length ≤ 223) :
    ∃ t id es, sendFast pgn prio src dst (BitVec.ofNat 8 payload.length) payload s = .next t ∧
      id.toNat = prio.toNat * 2 ^ 26 + pgn.toNat * 2 ^ 8 + src.toNat ∧
      t.fr.mode = .idle ∧ t.fr.seq = s.fr.seq + 1 ∧ Offered s t es ∧
      LogOf id (fastFrames s.cfg.fpPad (s.fr.seq + 1) payload) es := by
  obtain ⟨henc, hid⟩ := encodeId_pdu2 (pgn := pgn) prio src dst hpgn (not_lt.mpr hpdu2)
  obtain ⟨t, es, hsend, hrest⟩ := sendFast_offers_frames hm hlen henc (by omega)
  exact ⟨t, _, es, hsend, hid, hrest⟩

/-! ### The PGN lists (R85, R162) -/

section Lists

variable {listType : Byte} {list : List Pgn24} {dst : Addr} {s : State}

theorem sendPgnList_of_long (hlen : 75 ≤ list.length) :
    sendPgnList listType list dst s = .refused .listTooLong :=
  if_pos (by rw [fastMaxLen]; omega)

theorem sendPgnList_of_fits (hlen : list.length ≤ 74) : sendPgnList listType list dst s =
    sendFast 126464 s.cfg.respPrio s.devAddr dst
      (BitVec.ofNat 8 (pgnListPayload listType list).length) (pgnListPayload listType list) s := by
  rw [sendPgnList, if_neg (by rw [fastMaxLen]; omega), pgnListPayload_length]

/-- The identifier that the PGN lists are sent under (R92, R162). -/
theorem pgnListId (prio : Prio) (src dst : Addr) :
    encodeId 126464 prio src dst = .ok (packId 126464 prio src dst, false) ∧
    (packId 126464 prio src dst).toNat =
      prio.toNat * 2 ^ 26 + 0x01EE0000 + dst.toNat * 256 + src.toNat :=
  encodeId_pdu1 prio src dst (by decide) (by decide) (by decide)

theorem sendPgnList_offers (hm : s.fr.mode = .idle) (hlen : list.length ≤ 74) :
    ∃ t es, sendPgnList listType list dst s = .next t ∧
      t.fr.mode = .idle ∧ t.fr.seq = s.fr.seq + 1 ∧ Offered s t es ∧
      LogOf (packId 126464 s.cfg.respPrio s.devAddr dst)
        (fastFrames s.cfg.fpPad (s.fr.seq + 1) (pgnListPayload listType list)) es := by
  obtain ⟨henc, hid⟩ := pgnListId s.cfg.respPrio s.devAddr dst
  have hpayload : (pgnListPayload listType list).length ≤ 223 := by
    rw [pgnListPayload_length]; omega
  rw [sendPgnList_of_fits hlen]
  exact sendFast_offers_frames hm hpayload henc (by omega)

end Lists

/-- Both lists, the second with the sequence number after the first's (R162, R167). -/
theorem sendPgnLists_offers {dst : Addr} {s : State} (hm : s.fr.mode = .idle)
    (hrx : s.cfg.rxList.length ≤ 74) (htx : s.cfg.txList.length ≤ 74) :
    ∃ t es0 es1, (andThen (sendPgnList 0 s.cfg.rxList dst s) fun m =>
        sendPgnList 1 m.cfg.txList dst m) = .next t ∧
      t.fr.mode = .idle ∧ t.fr.seq = s.fr.seq + 2 ∧ Offered s t (es0 ++ es1) ∧
      LogOf (packId 126464 s.cfg.respPrio s.devAddr dst)
        (fastFrames s.cfg.fpPad (s.fr.seq + 1) (pgnListPayload 0 s.cfg.rxList)) es0 ∧
      LogOf (packId 126464 s.cfg.respPrio s.devAddr dst)
        (fastFrames s.cfg.fpPad (s.fr.seq + 2) (pgnListPayload 1 s.cfg.txList)) es1 := by
  obtain ⟨m, es0, hsend0, hmode0, hseq0, ho0, hlog0⟩ := sendPgnList_offers (dst := dst) hm hrx
  obtain ⟨t, es1, hsend1, hmode1, hseq1, ho1, hlog1⟩ := sendPgnList_offers (dst := dst) hmode0 htx
  have hseq : m.fr.seq + 1 = s.fr.seq + 2 := by rw [hseq0, BitVec.add_assoc]; rfl
  rw [ho0.only.cfg, ho0.only.devAddr, hseq] at hlog1
  refine ⟨t, es0, es1, ?_, hmode1, hseq1.trans hseq, ho0.trans ho1, hlog0, hlog1⟩
  rw [hsend0, andThen_next, ho0.only.cfg, hsend1]

/-- Settles O33: the answer to a request for 126464 is the two lists, one after the other. -/
theorem pgnListRequestSendsBothLists : Obligations.PgnListRequestSendsBothLists := by
  intro f s h3 h8 hdst hclaim hreq entries
  have hexec := exec_isoRxRequest_of_answer h3 h8 hdst hclaim (respond_pgnList none _ hreq)
  have hlong (hrx : 75 ≤ s.cfg.rxList.length) :
      exec (.isoRxRequest f) s = .refused .listTooLong := by
    rw [hexec, sendPgnList_of_long (by exact hrx), andThen_refused, done_refused]
  refine ⟨fun hm hrx htx => ?_, fun h => ?_, fun hm hrx => ?_⟩
  · obtain ⟨t, es0, es1, hsend, hmode, hseq, ho, hlog0, hlog1⟩ :=
      sendPgnLists_offers (dst := (decodeId f.id).src) (s := s.setClaimT 0) hm hrx htx
    obtain ⟨-, hid⟩ := pgnListId s.cfg.respPrio s.devAddr (decodeId f.id).src
    rw [pgnListPayload_eq] at hlog0 hlog1
    refine ⟨t.setResult .none, _, es0, es1, ?_, hid, ?_, hlog0, hlog1, hmode, hseq, ho.cnt,
      ho.only.setResult .none⟩
    · rw [hexec, hsend, done_next]
    · rw [List.append_assoc]; exact ho.log
  · obtain hrx | ⟨hm, htx⟩ := h
    · exact hlong hrx
    · by_cases hrx : 75 ≤ s.cfg.rxList.length
      · exact hlong hrx
      · obtain ⟨m, es, hsend, -, -, ho, -⟩ := sendPgnList_offers (listType := 0)
          (dst := (decodeId f.id).src) (s := s.setClaimT 0) hm (Nat.le_of_not_lt hrx)
        have hcfg : m.cfg = s.cfg := ho.only.cfg
        rw [hexec, State.setClaimT_cfg, hsend, andThen_next, hcfg, sendPgnList_of_long htx,
          done_refused]
  · rw [hexec, sendPgnList_of_fits (by exact hrx), sendFast_of_busy (by exact hm), andThen_refused,
      done_refused]

/-! ### The Product Information (R86, R163) -/

theorem textField_length (str : List Byte) (n : Nat) (pad : Byte) :
    (textField str n pad).length = n := by
  rw [textField, List.length_map, List.length_range]

theorem productPayload_eq (p : ProductInfo) : productPayload p =
    [p.version.extractLsb' 0 8, p.version.extractLsb' 8 8,
      p.productCode.extractLsb' 0 8, p.productCode.extractLsb' 8 8] ++
      textField p.modelId 32 0xFF ++ textField p.softwareVersion 32 0xFF ++
      textField p.modelVersion 32 0xFF ++ textField p.serialNumber 32 0xFF ++
      [p.certificationLevel, p.loadEquivalency] := by
  simp only [productPayload, leBytes_two, fixedString_eq]
  rfl

theorem productPayload_length (p : ProductInfo) : (productPayload p).length = 134 := by
  simp only [productPayload_eq, List.length_append, textField_length, List.length_cons,
    List.length_nil]

/-- The declared total is the payload's length (R163). -/
theorem sendProductInfo_eq (dst : Addr) (s : State) : sendProductInfo dst s =
    sendFast 126996 s.cfg.respPrio s.devAddr dst
      (BitVec.ofNat 8 (productPayload s.cfg.productInfo).length)
      (productPayload s.cfg.productInfo) s := by
  rw [sendProductInfo, productPayload_length]
  rfl

/-- Settles O34: the answer to a request for 126996 is the fast packet of R86. -/
theorem productInfoRequestSendsTwentyFrames : Obligations.ProductInfoRequestSendsTwentyFrames := by
  intro f s h3 h8 hdst hclaim hreq p
  have hexec := exec_isoRxRequest_of_answer h3 h8 hdst hclaim (respond_productInfo none _ hreq)
  rw [sendProductInfo_eq] at hexec
  refine ⟨fun hm => ?_, fun hm => ?_⟩
  · rw [hexec, sendFast_of_busy (by exact hm), done_refused]
  · obtain ⟨t, id, es, hsend, hid, hmode, hseq, ho, hlog⟩ :=
      sendFast_offers_of_pdu2 (pgn := 126996) s.cfg.respPrio s.devAddr (decodeId f.id).src
        (s := s.setClaimT 0) (by decide) (by decide) hm
        ((productPayload_length p).trans_le (by decide))
    have hcount : es.length = 20 := by
      rw [hlog.length, fastFrames_length, productPayload_length]; rfl
    rw [productPayload_eq] at hlog
    exact ⟨t.setResult .none, id, es, hexec.trans (congrArg done hsend), hid, ho.log, hcount, hlog,
      hmode, hseq, ho.cnt, ho.only.setResult .none⟩

/-! ### The Configuration Information (R87, R164) -/

theorem configPayload_eq (c : ConfigInfo) : configPayload c = varTextField c.manufacturerInfo ++
    varTextField c.installDescription1 ++ varTextField c.installDescription2 := by
  simp only [configPayload, varString_eq]

theorem varString_length (str : List Byte) : (varString str).length = textLength str + 2 := rfl

theorem configPayload_length (c : ConfigInfo) : (configPayload c).length =
    textLength c.manufacturerInfo + 2 + (textLength c.installDescription1 + 2) +
      (textLength c.installDescription2 + 2) := by
  simp only [configPayload, List.length_append, varString_length]

section ConfigInfo

variable {dst : Addr} {s : State}

theorem sendConfigInfo_of_long (hlen : 223 < (configPayload s.cfg.configInfo).length) :
    sendConfigInfo dst s = .refused .listTooLong := if_pos hlen

theorem sendConfigInfo_of_fits (hlen : (configPayload s.cfg.configInfo).length ≤ 223) :
    sendConfigInfo dst s = sendFast 126998 s.cfg.respPrio s.devAddr dst
      (BitVec.ofNat 8 (configPayload s.cfg.configInfo).length)
      (configPayload s.cfg.configInfo) s := if_neg (not_lt.mpr hlen)

end ConfigInfo

/-- Settles O35: the answer to a request for 126998 is the fast packet of R87 where that fits. -/
theorem configInfoRequestSendsThreeTexts : Obligations.ConfigInfoRequestSendsThreeTexts := by
  intro f s h3 h8 hdst hclaim hreq c total
  have hexec := exec_isoRxRequest_of_answer h3 h8 hdst hclaim (respond_configInfo none _ hreq)
  rw [show total = (configPayload c).length from (configPayload_length c).symm]
  refine ⟨fun hm hlen => ?_, fun hlen => ?_, fun hm hlen => ?_⟩
  · obtain ⟨t, id, es, hsend, hid, hmode, hseq, ho, hlog⟩ :=
      sendFast_offers_of_pdu2 (pgn := 126998) s.cfg.respPrio s.devAddr (decodeId f.id).src
        (s := s.setClaimT 0) (by decide) (by decide) hm hlen
    rw [configPayload_eq] at hlog
    refine ⟨t.setResult .none, id, es, ?_, hid, ho.log, hlog, hmode, hseq, ho.cnt,
      ho.only.setResult .none⟩
    rw [hexec, sendConfigInfo_of_fits (by exact hlen)]
    exact congrArg done hsend
  · rw [hexec, sendConfigInfo_of_long (by exact hlen), done_refused]
  · rw [hexec, sendConfigInfo_of_fits (by exact hlen), sendFast_of_busy (by exact hm), done_refused]

/-! ### One poll of a PUMP (R176 to R182) -/

theorem exec_pump (s : State) : exec .pump s = done (pumpLoop pumpCap false s) := rfl

section Poll

variable {k : Nat} {s t m : State} {f : Frame}

theorem pumpLoop_of_no_frame (hpoll : pollReceive s = (none, t)) :
    pumpLoop (k + 1) false s = .next t := by
  rw [pumpLoop_succ, hpoll]

/-- A frame that is handled to its end leaves the further polls (R182). -/
theorem pumpLoop_of_done (hpoll : pollReceive s = (some f, t))
    (h : handleFrame f k t = .next (.done m)) :
    pumpLoop (k + 1) false s = pumpLoop k true m := by
  rw [pumpLoop_succ, hpoll]
  simp only [h, andThen_next]

/-- A frame that calls the application suspends the PUMP (R166, R180). -/
theorem pumpLoop_of_suspended (hpoll : pollReceive s = (some f, t))
    (h : handleFrame f k t = .next (.suspended m)) : pumpLoop (k + 1) false s = .next m := by
  rw [pumpLoop_succ, hpoll]
  simp only [h, andThen_next]

theorem pumpLoop_of_refused {r : Refusal} (hpoll : pollReceive s = (some f, t))
    (h : handleFrame f k t = .refused r) : pumpLoop (k + 1) false s = .refused r := by
  rw [pumpLoop_succ, hpoll]
  simp only [h, andThen_refused]

theorem pollReceive_of_frame {rest : List (Option Frame)}
    (hrecv : s.world.recvIn = some f :: rest) (hlen : f.len ≤ 8) :
    pollReceive s = (some f, s.setWorld { s.world with recvIn := rest }) := by
  rw [pollReceive_scripted s hrecv, Option.map_some, clipFrame_of_len hlen]

end Poll

/-- Settles O32: the third check clears the timer, and the answer is the call, for the host's
command and for the frame that a PUMP has counted. -/
theorem unknownRequestGoesToTheHandler : Obligations.UnknownRequestGoesToTheHandler := by
  intro f s hhandler h3 h8 hdst hclaim hreq call
  refine ⟨?_, fun rest hrecv hpgn hkept => ?_⟩
  · rw [exec_isoRxRequest, receiveRequest_calls h3 h8 hdst hclaim none hhandler hreq]
    rfl
  · have hcall := handleFrame_calls_isoHandler (s := s.setWorld { s.world with recvIn := rest })
      h3 h8 hdst hclaim 19 hhandler hreq hkept hpgn
    rw [exec_pump, pumpCap, pumpLoop_of_suspended (pollReceive_of_frame hrecv h8) hcall]
    rfl

/-! ### A PUMP that goes on (R176 to R182) -/

/-- A frame that a poll has found is handled as `PumpHandles` says, where the rest of the polls does
as `goesOn` says. -/
theorem pumpHandles_of_poll {k : Nat} {f : Frame} {s t : State} {out : Out}
    {goesOn : State → Prop} (hgoesOn : ∀ m, out = done (pumpLoop k true m) → goesOn m)
    (hpoll : pollReceive s = (some f, t)) (hout : out = done (pumpLoop (k + 1) false s)) :
    PumpHandles out k f t goesOn := by
  unfold PumpHandles
  cases hkept : inList (pgnOf f.id) t.cfg.rxList with
  | false =>
    rw [pumpLoop_of_done hpoll (handleFrame_unlisted hkept)] at hout
    exact hgoesOn _ hout
  | true =>
    cases hcmd : routedCommand f with
    | none =>
      rw [pumpLoop_of_suspended hpoll (handleFrame_application hkept hcmd)] at hout
      exact hout
    | some cmd =>
      refine ⟨fun r hr => ?_, fun u hu => ?_⟩
      · rw [hout, pumpLoop_of_refused hpoll (handleFrame_refused hkept hcmd hr), done_refused]
      · obtain ⟨hdone, hcalls⟩ | ⟨c, m, hsusp, hcalls, hm⟩ :=
          handleFrame_routed (k := k) hkept hcmd hu
        · rw [pumpLoop_of_done hpoll hdone] at hout
          exact ⟨fun _ => hgoesOn _ hout,
            fun c hc => absurd (hc.symm.trans hcalls) (List.cons_ne_self c _)⟩
        · rw [pumpLoop_of_suspended hpoll hsusp, done_next, hm] at hout
          refine ⟨fun hc => absurd (hcalls.symm.trans hc) (List.cons_ne_self c _), fun c' hc' => ?_⟩
          obtain ⟨rfl, -⟩ := List.cons.inj (hcalls.symm.trans hc')
          exact hout

/-- The loop goes on as a PUMP does, whatever step it ends. -/
theorem pumpGoesOn_of_pumpLoop {out : Out} {k : Nat} :
    ∀ {s : State}, out = done (pumpLoop k true s) → PumpGoesOn out k s := by
  induction k with
  | zero => exact fun h => h
  | succ k ih =>
    intro s h
    rw [pumpLoop_fresh] at h
    unfold PumpGoesOn
    split
    · next t hpoll => rw [h, pumpLoop_of_no_frame hpoll, done_next]
    · next f t hpoll => exact pumpHandles_of_poll (fun _ => ih) hpoll h

/-! ### The return of a callback (R166, R174, R180 to R182) -/

theorem routedCommand_of_not_service {f : Frame} (h : isServicePgn (pgnOf f.id) = false) :
    routedCommand f = none := by
  simp only [isServicePgn, Bool.or_eq_false_iff, decide_eq_false_iff_not] at h
  obtain ⟨⟨hrequest, hclaim⟩, hack⟩ := h
  rw [routedCommand, if_neg hrequest, if_neg hclaim, if_neg hack]

theorem State.setClaimT_of_eq {s : State} {x : Millis} (h : s.claimT = x) : s.setClaimT x = s := by
  subst h; rfl

theorem sampleClock_setWorld (time : Option Millis) (s : State) (w : World) :
    (sampleClock time s).setWorld w = s.setWorld w := by
  rw [sampleClock_state]; rfl

/-- A later poll that finds a frame handles it in the same state but for the outside agents. -/
theorem pumpLoop_fresh_of_suspended {k : Nat} {s : State} {f : Frame} {rest : List (Option Frame)}
    (hrecv : s.world.recvIn = some f :: rest) (hlen : f.len ≤ 8) :
    ∃ w : World, w.recvIn = rest ∧ ∀ m, handleFrame f k (s.setWorld w) = .next (.suspended m) →
      pumpLoop (k + 1) true s = .next m := by
  have hrecv' : (sampleClock none s).world.recvIn = some f :: rest := by
    rw [sampleClock_recvIn, hrecv]
  refine ⟨{ (sampleClock none s).world with recvIn := rest }, rfl, fun m h => ?_⟩
  rw [← sampleClock_setWorld none] at h
  rw [pumpLoop_fresh, pumpLoop_of_suspended (pollReceive_of_frame hrecv' hlen) h]

/-- A step that ends the rest of a PUMP resumes it. -/
theorem resumesPump_of_pumpLoop {s m : State} {left : Nat}
    (h : step s = done (pumpLoop left true m)) : ResumesPump s left m where
  goesOn := pumpGoesOn_of_pumpLoop h
  ends hzero := by rw [h, hzero]; rfl
  stops hpos rest hrecv := by
    obtain ⟨k, rfl⟩ := Nat.exists_eq_add_one_of_ne_zero hpos
    rw [pumpLoop_fresh, pumpLoop_none ((sampleClock_recvIn none m).trans hrecv),
      sampleClock_setWorld, done_next] at h
    exact ⟨_, h, rfl, rfl, sampleClock_port none m, clock_le_sampleClock m none⟩
  handles frames rest t hfew hcap hrecv hpump hcalls := by
    obtain ⟨k, rfl⟩ := Nat.exists_eq_add_one_of_ne_zero (Nat.ne_zero_of_lt hfew)
    obtain ⟨n, hloop, rfl⟩ := done_eq_next.mp hpump
    obtain ⟨-, -, hany⟩ := pumpLoop_frames (k := 19) (by omega)
      ((sampleClock_recvIn none m).trans hrecv) hloop
      (by rw [sampleClock_calls]; exact (congrArg List.length hcalls).le)
    rw [h, pumpLoop_fresh, hany k (Nat.le_of_lt_succ hfew), done_next]
  callsMessageHandler k f rest hleft hrecv hlen hkept hpgn := by
    obtain ⟨w, hw, hloop⟩ := pumpLoop_fresh_of_suspended (k := k) hrecv hlen
    have hcall := hloop _ (handleFrame_application hkept (routedCommand_of_not_service hpgn))
    rw [hleft, hcall, done_next] at h
    exact ⟨_, h, hw, rfl⟩
  callsIsoHandler k f rest hleft hrecv hpgn hkept hhandler h3 h8 hdst hclaim hreq := by
    obtain ⟨w, hw, hloop⟩ := pumpLoop_fresh_of_suspended (k := k) hrecv h8
    have hcall := hloop _ (handleFrame_calls_isoHandler (s := m.setWorld w) h3 h8 hdst
      (.inl hclaim) k hhandler hreq hkept hpgn)
    rw [State.setClaimT_of_eq (by exact hclaim)] at hcall
    rw [hleft, hcall, done_next] at h
    exact ⟨_, h, hw, rfl⟩
  pollsBounded t ht := by
    obtain ⟨n, hloop, rfl⟩ := done_eq_next.mp (h.symm.trans ht)
    exact pumpLoop_polls (t := n) hloop

theorem afterCallback_of_no_nak {c : Callback} {handled : Bool} (s : State)
    (h : c.nakDue handled = none) : afterCallback c handled s = pumpLoop c.pollsLeft true s := by
  rw [afterCallback_eq, h]
  rfl

theorem afterCallback_of_nak {c : Callback} {handled : Bool} {req : Pgn24} {dst : Addr} (s : State)
    (h : c.nakDue handled = some (req, dst)) : afterCallback c handled s =
      andThen (sendNak req dst s) (pumpLoop c.pollsLeft true) := by
  rw [afterCallback_eq, h]

/-- A return with no call running is refused (log entry 34). -/
theorem step_of_strayReturn {s : State} {handled : Bool} {items : List HostItem}
    (hmark : s.refused = false) (hcalls : s.calls = [])
    (hport : s.world.port = .callbackReturn handled :: items) : step s = .refused .strayReturn := by
  have htaken : (takeItem s).calls = [] := hcalls
  rw [step_of_callbackReturn hport, runReturn, takeItem_refused, hmark, if_neg Bool.false_ne_true,
    resume, htaken]

/-- Settles O37: a return sends the NAK that is due, and then goes on with the rest of the PUMP. -/
theorem callbackReturnResumes : Obligations.CallbackReturnResumes := by
  constructor
  · intro c rest s items handled hmark hcalls hport u
    have hstep : step s = done (afterCallback c handled u) := step_callbackReturn hmark hcalls hport
    refine ⟨fun hnak => ?_, fun req dst hnak => ?_⟩
    · rw [afterCallback_of_no_nak u hnak] at hstep
      exact resumesPump_of_pumpLoop hstep
    · rw [afterCallback_of_nak u hnak] at hstep
      refine ⟨fun hm => ?_, fun hm => ?_⟩
      · rw [hstep, sendNak_of_busy (by exact hm), andThen_refused, done_refused]
      · obtain ⟨m, id, r, hsend, hid, hlog, hmode, hseq, hcnt, honly⟩ :=
          sendNak_offers (req := req) (dst := dst) (s := u) hm
        rw [hsend, andThen_next] at hstep
        exact ⟨m, id, r, hid, hlog, hmode, hseq, hcnt, honly, resumesPump_of_pumpLoop hstep⟩
  · exact fun w items handled => step_of_strayReturn

end Sys2Proof.Machine

namespace Sys2Proof.Machine

/-! ### The first frame of a PUMP (R176 to R180) -/

section FirstFrame

variable {s t : State} {f : Frame}

/-- The first frame is handled as `PumpHandles` says, and after it PUMP goes on with its nineteen further
polls (R181). -/
theorem exec_pump_handles (hpoll : pollReceive s = (some f, t)) :
    PumpHandles (exec .pump s) 19 f t fun m => exec .pump s = done (pumpLoop 19 true m) :=
  pumpHandles_of_poll (fun _ => id) hpoll (exec_pump s)

theorem exec_pump_of_unlisted (hpoll : pollReceive s = (some f, t))
    (hkept : inList (pgnOf f.id) t.cfg.rxList = false) :
    exec .pump s = done (pumpLoop 19 true (countDrop t)) := by
  have h := exec_pump_handles hpoll
  rw [PumpHandles, hkept, if_neg Bool.false_ne_true] at h
  exact h

theorem exec_pump_of_application (hpoll : pollReceive s = (some f, t))
    (hkept : inList (pgnOf f.id) t.cfg.rxList = true) (hcmd : routedCommand f = none) :
    exec .pump s = .next (((countRx t).setCalls
      (.messageHandler (decodeId f.id) f.data 19 :: t.calls)).setResult .none) := by
  have h := exec_pump_handles hpoll
  rw [PumpHandles, hkept, if_pos rfl, hcmd] at h
  exact h

/-- A kept service frame does to PUMP what the outcome of its routed command says (R179, R182, R191). -/
theorem exec_pump_of_routed {cmd : Instr} (hpoll : pollReceive s = (some f, t))
    (hkept : inList (pgnOf f.id) t.cfg.rxList = true) (hcmd : routedCommand f = some cmd) :
    (∀ r : Refusal, exec cmd (countRx t) = .refused r → exec .pump s = .refused r) ∧
    (∀ u : State, exec cmd (countRx t) = .next u →
      (u.calls = t.calls → exec .pump s = done (pumpLoop 19 true (u.setResult t.result))) ∧
      (∀ c : Callback, u.calls = c :: t.calls →
        exec .pump s = .next (u.setCalls (c.inPump 19 :: t.calls)))) := by
  have h := exec_pump_handles hpoll
  rw [PumpHandles, hkept, if_pos rfl, hcmd] at h
  exact h

/-- A later poll that finds no frame ends the PUMP, at a clock sample of its own (R176). -/
theorem pumpLoop_fresh_of_none {k : Nat} {rest : List (Option Frame)}
    (h : s.world.recvIn = none :: rest) : pumpLoop (k + 1) true s =
      .next (s.setWorld { (sampleClock none s).world with recvIn := rest }) := by
  rw [pumpLoop_fresh, pumpLoop_none ((sampleClock_recvIn none s).trans h), sampleClock_setWorld]

end FirstFrame

/-! ### The routed commands (R179) -/

theorem routedCommand_of_pgn {f : Frame} {cmd : Instr}
    (h : pgnOf f.id = 59904 ∧ cmd = .isoRxRequest f ∨ pgnOf f.id = 60928 ∧ cmd = .acRxClaim f ∨
      pgnOf f.id = 59392 ∧ cmd = .isoRxAck f) : routedCommand f = some cmd := by
  rw [routedCommand]
  obtain ⟨hpgn, rfl⟩ | ⟨hpgn, rfl⟩ | ⟨hpgn, rfl⟩ := h <;> simp [hpgn]

theorem eq_of_routedCommand {f : Frame} {cmd : Instr} (h : routedCommand f = some cmd) :
    cmd = .isoRxRequest f ∨ cmd = .acRxClaim f ∨ cmd = .isoRxAck f := by
  rw [routedCommand] at h
  split at h
  · exact .inl (Option.some.inj h).symm
  · split at h
    · exact .inr (.inl (Option.some.inj h).symm)
    · split at h
      · exact .inr (.inr (Option.some.inj h).symm)
      · cases h

/-- A routed command has no result, and of the outside agents it asks the transport to send at most. -/
theorem routed_result_and_world {f : Frame} {cmd : Instr} {s u : State}
    (hcmd : routedCommand f = some cmd) (hu : exec cmd s = .next u) :
    u.result = .none ∧ u.world = s.world.afterSends u := by
  obtain rfl | rfl | rfl := eq_of_routedCommand hcmd
  · obtain ⟨m, hm, rfl⟩ := done_eq_next.mp ((exec_isoRxRequest f s).symm.trans hu)
    obtain ⟨fl, hfl, hm⟩ := andThen_eq_next.mp hm
    cases hm
    obtain ⟨n, rfl, hsent, -⟩ | ⟨rfl, -⟩ := receiveRequest_cases hfl
    · exact ⟨rfl, hsent.world⟩
    · exact ⟨rfl, rfl⟩
  · obtain ⟨m, hm, rfl⟩ := done_eq_next.mp ((exec_acRxClaim f s).symm.trans hu)
    exact ⟨rfl, (receiveClaim_sent hm).world⟩
  · cases hu
    exact ⟨rfl, rfl⟩

theorem State.setResult_of_eq {s : State} {r : Result} (h : s.result = r) : s.setResult r = s := by
  subst h; rfl

/-! ### PUMP by its first answer (R176 to R180) -/

/-- Settles O38: the first poll ends the loop. -/
theorem pumpStopsAtAnEmptyPoll : Obligations.PumpStopsAtAnEmptyPoll := by
  intro s rest hrecv
  rw [exec_pump, pumpCap, pumpLoop_none hrecv, done_next]

/-- Settles O39: after the count the loop goes on, and an empty poll ends it. -/
theorem pumpDropsAnUnlistedFrame : Obligations.PumpDropsAnUnlistedFrame := by
  intro s f rest hrecv hkept
  have hpoll : pollReceive s = (some (clipFrame f), s.setWorld { s.world with recvIn := rest }) :=
    pollReceive_scripted s hrecv
  have hpump := exec_pump_of_unlisted hpoll hkept
  refine ⟨pumpGoesOn_of_pumpLoop hpump, fun later hrest => ?_⟩
  rw [pumpLoop_fresh_of_none (rest := later) hrest, done_next] at hpump
  refine ⟨_, hpump, rfl, ?_⟩
  rw [sampleClock_state]
  rfl

/-- Settles O40: the loop goes on from the routed command's state, which differs from the one before it by
sends alone, so that the answers to polls are still to come. -/
theorem pumpRoutesByPgn : Obligations.PumpRoutesByPgn := by
  intro s f rest cmd hrecv hlen hkept hroute counted
  have hcmd := routedCommand_of_pgn hroute
  obtain ⟨hrefused, hnext⟩ :=
    exec_pump_of_routed (pollReceive_of_frame hrecv hlen) hkept hcmd
  refine ⟨fun u hu hcalls => ?_, fun u c hu hcalls => ?_, fun u later hrest hu hcalls => ?_,
    hrefused⟩
  · obtain ⟨hends, -⟩ := hnext u hu
    exact pumpGoesOn_of_pumpLoop (hends hcalls)
  · obtain ⟨-, hsuspends⟩ := hnext u hu
    exact hsuspends c hcalls
  · obtain ⟨hends, -⟩ := hnext u hu
    obtain ⟨hresult, hworld⟩ := routed_result_and_world hcmd hu
    have hrecv' : (u.setResult s.result).world.recvIn = none :: later := by
      rw [State.setResult_world, hworld]; exact hrest
    have hpump : exec .pump s = done (pumpLoop 19 true (u.setResult s.result)) := hends hcalls
    rw [pumpLoop_fresh_of_none hrecv', done_next] at hpump
    refine ⟨_, hpump, ?_, rfl, ?_⟩
    · conv_rhs => rw [← State.setResult_of_eq hresult]
      rfl
    · exact (sampleClock_port none _).trans (by rw [State.setResult_world, hworld]; rfl)

/-- Settles O41: a frame of no service PGN has no routed command, so that the message handler is called. -/
theorem pumpCallsTheMessageHandler : Obligations.PumpCallsTheMessageHandler := by
  intro s f rest hrecv hlen hkept hrequest hclaim hack
  have hcmd : routedCommand f = none := by
    rw [routedCommand, if_neg hrequest, if_neg hclaim, if_neg hack]
  exact exec_pump_of_application (pollReceive_of_frame hrecv hlen) hkept hcmd

/-! ### The polls and the counters of a whole PUMP (R181, R185) -/

/-- Settles O42: fewer than 20 frames end at the empty poll, and 20 use up the polls. -/
theorem pumpCountsEveryFrame : Obligations.PumpCountsEveryFrame := by
  intro s t frames rest hle hrecv hpump hcalls
  obtain ⟨m, hloop, rfl⟩ := done_eq_next.mp ((exec_pump s).symm.trans hpump)
  have hcalls' : m.calls.length ≤ s.calls.length := (congrArg List.length hcalls).le
  rcases hle.lt_or_eq with hlt | heq
  · rw [if_pos hlt] at hrecv
    obtain ⟨hrest, hcount, -⟩ := pumpLoop_frames (Nat.le_of_lt_succ hlt) hrecv hloop hcalls'
    exact ⟨hrest, hcount⟩
  · rw [if_neg heq.not_lt] at hrecv
    rw [pumpCap, ← heq] at hloop
    exact pumpLoop_full (t := m) hrecv hloop hcalls'

/-- Settles O43: each round of the loop polls once. -/
theorem pumpPollsAtMostTwentyTimes : Obligations.PumpPollsAtMostTwentyTimes := by
  intro s t hpump
  obtain ⟨m, hloop, rfl⟩ := done_eq_next.mp ((exec_pump s).symm.trans hpump)
  exact pumpLoop_polls (t := m) hloop

/-! ### The calls that a step adds (R180, R186) -/

/-- From `s` to `t` the configuration stays, and new calls, each rightly made, have come on top of some of
the calls of `s`. -/
structure CallsAdded (s t : State) : Prop where
  cfg : t.cfg = s.cfg
  calls : ∃ (returned : Nat) (new : List Callback),
    t.calls = new ++ s.calls.drop returned ∧ ∀ c ∈ new, c.inv s.cfg = true

theorem CallsAdded.of_eq {s t : State} (hcfg : t.cfg = s.cfg) (hcalls : t.calls = s.calls) :
    CallsAdded s t :=
  ⟨hcfg, 0, [], hcalls, fun _ hc => absurd hc List.not_mem_nil⟩

theorem CallsAdded.of_sends {s t : State} (h : SendsOnly s t) : CallsAdded s t :=
  .of_eq h.cfg h.calls

/-- The calls that are returned from are the newest, so those of the first part go before any older one. -/
theorem CallsAdded.trans {s t u : State} (h1 : CallsAdded s t) (h2 : CallsAdded t u) :
    CallsAdded s u := by
  obtain ⟨hcfg1, returned1, new1, hcalls1, hnew1⟩ := h1
  obtain ⟨hcfg2, returned2, new2, hcalls2, hnew2⟩ := h2
  rw [hcfg1] at hnew2
  refine ⟨hcfg2.trans hcfg1, returned1 + (returned2 - new1.length),
    new2 ++ new1.drop returned2, ?_, ?_⟩
  · rw [hcalls2, hcalls1, List.drop_append, List.drop_drop, List.append_assoc]
  · exact List.forall_mem_append.mpr ⟨hnew2, fun c hc => hnew1 c (List.mem_of_mem_drop hc)⟩

theorem claimAddress_callsAdded {s t : State} (h : claimAddress s = .next t) : CallsAdded s t :=
  .of_eq (clockForward_allowsSends.toLocal.claimAddress h).cfg (claimAddress_sent h).calls

theorem callsAdded_allows : Allows CallsAdded where
  refl _ := .of_eq rfl rfl
  trans := .trans
  result _ _ := .of_eq rfl rfl
  world _ _ _ _ := .of_eq rfl rfl
  startSingle h := .of_sends (startSingle_sendsOnly h)
  startFast h := .of_sends (startFast_sendsOnly h)
  append h := .of_sends (appendByte_sendsOnly h)
  finishSingle h := .of_sends (finishSingle_sendsOnly h)
  finishFast h := .of_sends (finishFast_sendsOnly h)
  countRx _ := .of_eq rfl rfl
  countDrop _ := .of_eq rfl rfl
  claimAddress := claimAddress_callsAdded
  expire _ := .of_eq rfl rfl
  tieBreak _ := .of_eq rfl rfl
  yield _ _ := .of_eq rfl rfl
  call _ c hc := ⟨rfl, 0, [c], rfl, List.forall_mem_singleton.mpr hc⟩
  ret s c rest hcalls := ⟨rfl, 1, [], by rw [hcalls]; rfl, fun _ hc => absurd hc List.not_mem_nil⟩

/-- A message handler rightly called has a kept frame of no service PGN (R186). -/
theorem Callback.inv_messageHandler {c : Config} {h : Header} {payload : List Byte} {left : Nat}
    (hinv : (Callback.messageHandler h payload left).inv c = true) :
    inList h.pgn c.rxList = true ∧ h.pgn ≠ 59904 ∧ h.pgn ≠ 60928 ∧ h.pgn ≠ 59392 := by
  simp only [Callback.inv, isServicePgn, Bool.and_eq_true, Bool.not_eq_true', Bool.or_eq_false_iff,
    decide_eq_false_iff_not] at hinv
  obtain ⟨⟨⟨hkept, ⟨hrequest, hclaim⟩, hack⟩, -⟩, -⟩ := hinv
  exact ⟨hkept, hrequest, hclaim, hack⟩

/-- Settles O44: a power-up leaves no call, and any other step only adds calls that are rightly made. -/
theorem messageHandlerOnlyForKeptApplicationFrames :
    Obligations.MessageHandlerOnlyForKeptApplicationFrames := by
  intro s t hs h
  obtain ⟨c, -, -, rfl⟩ | hp := step_powerUp_or_not h
  · exact ⟨s.calls.length, [], List.drop_length.symm, fun _ _ _ hc => absurd hc List.not_mem_nil⟩
  · obtain ⟨-, returned, new, hcalls, hnew⟩ :=
      callsAdded_allows.step_of_take (fun _ => .of_eq rfl rfl) hs hp h
    exact ⟨returned, new, hcalls, fun hd payload left hc => Callback.inv_messageHandler (hnew _ hc)⟩

/-! ### STATUS and ENG_OPEN (R183, R184) -/

/-- Settles O45: the answer is the counters, field by field. -/
theorem statusReadsTheCounters : Obligations.StatusReadsTheCounters := fun _ => rfl

/-- A scripted answer is the answer (R184). -/
theorem drawOpen_scripted {s : State} {a : Bool} {rest : List Bool}
    (h : s.world.openIn = a :: rest) :
    drawOpen s = (a, s.setWorld { s.world with openIn := rest }) := by
  rw [drawOpen, h]

theorem drawOpen_port (s : State) : (drawOpen s).2.world.port = s.world.port := by
  rw [drawOpen_state]; rfl

theorem drawOpen_clock (s : State) : (drawOpen s).2.world.clock = s.world.clock := by
  rw [drawOpen_state]; rfl

/-- The answer is drawn, and the delay passes only after a success (R184, R214). -/
theorem exec_engOpen (bitrate clockConfig : Nat) (s : State) :
    exec (.engOpen bitrate clockConfig) s =
      .next ((wait (if (drawOpen s).1 then s.cfg.startupDelayMs else 0) (drawOpen s).2).setResult
        (.opened (drawOpen s).1)) := rfl

/-- Settles O46: the wait is on the clock before any later sample, and no sample sets it back. -/
theorem engOpenReportsAndWaits : Obligations.EngOpenReportsAndWaits := by
  intro bitrate clockConfig s
  refine ⟨_, (drawOpen s).1, exec_engOpen bitrate clockConfig s, ?_, drawOpen_port s,
    fun a rest hopen => ?_, fun hok time => ?_⟩
  · rw [drawOpen_state]; rfl
  · rw [drawOpen_scripted hopen]; exact ⟨rfl, rfl⟩
  · rw [hok, if_pos rfl, ← drawOpen_clock s]
    exact clock_le_sampleClock ((wait s.cfg.startupDelayMs (drawOpen s).2).setResult _) time

end Sys2Proof.Machine

namespace Sys2Proof.Machine

/-! ### Reset values (R202, R203) -/

/-- A power-up is refused when `INIT_ADDR` is not claimable (R21). -/
theorem powerUp_of_unclaimable {c : Config} (h : 251 < c.initAddr.toNat) (s : State) :
    powerUp c s = .refused .initAddrIllegal := by
  rw [powerUp, if_neg (Nat.not_le.mpr h)]

/-- Settles O50: a power-up is decided by `INIT_ADDR` alone, and the state it leaves is `State.ofConfig`
in all that R203 gives a value; `State.reset` is that state for its own configuration. -/
theorem resetValues : Obligations.ResetValues := by
  refine ⟨fun c s items hp => ⟨fun h => ?_, fun h => ?_⟩, ?_⟩
  · rw [step_of_powerUp hp, powerUp_of_unclaimable h]
  · have hstep : step s =
        .next { State.ofConfig c with refused := s.refused, world := (takeItem s).world } :=
      (step_of_powerUp hp).trans (powerUp_eq_next.mpr ⟨h, rfl⟩)
    exact ⟨_, hstep, State.ofConfig_devAddr c, State.ofConfig_name c, State.ofConfig_claimT c,
      State.ofConfig_claimedOnce c, rfl, rfl, State.ofConfig_cnt c, State.ofConfig_txLog c,
      State.ofConfig_calls c, State.ofConfig_cfg c, rfl⟩
  · exact ⟨State.ofConfig_devAddr _, State.ofConfig_name _, State.ofConfig_claimT _,
      State.ofConfig_claimedOnce _, rfl, rfl, State.ofConfig_cnt _, State.ofConfig_txLog _,
      State.ofConfig_refused _⟩

end Sys2Proof.Machine
